-- ==== Sys2Proof/Word.lean ====
section
/-! DEFINITION. The word types of the block (rule R8: the widths are the spec's parameters). -/

namespace Sys2Proof

/-- A byte: 8 bits (rule R9).  `range`, `probability` and the bytes of the stream have this width. -/
abbrev Byte := BitVec 8

/-- A 32-bit word: `ADDR_W = LOW_W = VALUE_W = RUN_W = 32` (rule R8). -/
abbrev Word := BitVec 32

/-- A command word `cmd[75:0]`: `CMD_W = 76` (rules R8, R80). -/
abbrev CommandWord := BitVec 76

/-- A response word `rsp[35:0]`: `RSP_W = 36` (rules R8, R86). -/
abbrev ResponseWord := BitVec 36

end Sys2Proof
end

