-- ==== Sys2Proof/Config.lean ====
section
/-! DEFINITION. The numeric parameters of rule R8, and the free values: what the spec leaves unspecified. -/

namespace Sys2Proof.Config

/-! ## The parameters (rule R8, U13 of 93_implementation_defined.md) -/

/-- `ENC_PRIME`: the value `START_ENCODE` gives `enc.bit_count` (rules R8, R121). -/
def encPrime : BitVec 6 := BitVec.ofInt 6 (-24)

/-- `DEC_PRIME`: the value `START_DECODE` gives `dec.bit_count` (rules R8, R161). -/
def decPrime : BitVec 5 := BitVec.ofInt 5 (-8)

/-- `ENC_INIT_RANGE`, and the decoder's initial `range`: 255 (rules R7, R8). -/
def initRange : Byte := 255

/-- `FLUSH_BYTES`: how many bytes `STOP_ENCODE` finalizes (rules R8, R133). -/
def flushBytes : Nat := 4

/-! ## Memory that nothing has written -/

/-- What a byte of `M` that no entry of the memory's list names reads as.
DESIGN CHOICE (log entry 3, unsafe): the spec says the contents of `M` are the host's (rule R55, U11). -/
def unlistedByte : Byte := 0

/-! ## Free values

Each constant below has no body, so nothing can be proved of its value.  The register functions are
applied to the counter `State.freeCount`, which advances at every use (log entry 4). -/

/-- `enc.range` where the spec leaves it unspecified (rules R55, R136). -/
opaque freeEncRange : Nat → Byte
/-- `enc.low_value` where the spec leaves it unspecified (rules R55, R136). -/
opaque freeEncLowValue : Nat → Word
/-- `enc.bit_count` where the spec leaves it unspecified (rules R55, R136). -/
opaque freeEncBitCount : Nat → BitVec 6
/-- `enc.pending_carry` where the spec leaves it unspecified (rules R55, R136). -/
opaque freeEncPendingCarry : Nat → Bool
/-- `enc.pending_valid` where the spec leaves it unspecified (rules R55, R136). -/
opaque freeEncPendingValid : Nat → Bool
/-- `enc.pending_byte` where the spec leaves it unspecified (rules R55, R136). -/
opaque freeEncPendingByte : Nat → Byte
/-- `enc.run_of_0xFF` where the spec leaves it unspecified (rules R55, R136). -/
opaque freeEncRun : Nat → Word
/-- `enc.output_cursor` after a reset (rule R55). -/
opaque freeEncOutputCursor : Nat → Word
/-- `enc.output_end` after a reset (rule R55). -/
opaque freeEncOutputEnd : Nat → Word
/-- `dec.range` after a reset (rule R55). -/
opaque freeDecRange : Nat → Byte
/-- `dec.value` after a reset (rule R55). -/
opaque freeDecValue : Nat → Word
/-- `dec.bit_count` after a reset (rule R55). -/
opaque freeDecBitCount : Nat → BitVec 5
/-- `dec.input_base` after a reset (rule R55). -/
opaque freeDecInputBase : Nat → Word
/-- `dec.input_cursor` after a reset (rule R55). -/
opaque freeDecInputCursor : Nat → Word
/-- `dec.input_end` after a reset (rule R55). -/
opaque freeDecInputEnd : Nat → Word

/-- The amount a datapath would shift by if it ever renormalized a range of 0: `shift_for(0)` is
undefined (rule R103), and no run of the block asks for it (log entry 5). -/
opaque shiftForZero : Nat

/-- `split_of(0, p)`: rule R104 gives the formula for `r` in `[1,255]` only, and no run of the block
asks for it (log entry 5). -/
opaque splitOfZero : Byte → Byte

end Sys2Proof.Config
end

