-- ==== Sys2Proof/Syntax.lean ====
section
/-! DEFINITION. The six commands (rule R84), one constructor per row of spec/opcode_table.json. -/

namespace Sys2Proof

/-- A command with its used operands (rules R82, R84).  Every operand has exactly the width of its field
of the command word, so a value outside the operand's range cannot be written down (rules R82, R223).
The fields a command does not use are not operands: they are ignored (rule R83). -/
inductive Instr where
  /-- `START_ENCODE buffer_start, buffer_end` (rule R121). -/
  | startEncode (bufferStart bufferEnd : Word)
  /-- `ENCODE_BOOL bit, probability` (rule R123). -/
  | encodeBool (bit : Bool) (probability : Byte)
  /-- `STOP_ENCODE` (rule R133). -/
  | stopEncode
  /-- `START_DECODE buffer, length` (rule R161). -/
  | startDecode (buffer length : Word)
  /-- `DECODE_BOOL probability` (rule R163). -/
  | decodeBool (probability : Byte)
  /-- `NORM r` (rule R107). -/
  | norm (r : Byte)
  deriving DecidableEq, Repr

end Sys2Proof
end

