-- ==== Sys2Proof/WellFormed.lean ====
section
/-! DEFINITION. The operations as a caller writes them, with unbounded numbers, and the check that each
operand lies in its range (rules R81, R82, R89, R223).  Only a well-formed call becomes a command; an
operand out of range is refused and never reduced (90_conflicts.md C12). -/

namespace Sys2Proof

/-- An operation in the textual syntax of rule R89: a mnemonic and its used operands, as numbers. -/
inductive Call where
  | startEncode (bufferStart bufferEnd : Nat)
  | encodeBool (bit probability : Nat)
  | stopEncode
  | startDecode (buffer length : Nat)
  | decodeBool (probability : Nat)
  | norm (r : Nat)
  deriving DecidableEq, Repr

/-- A 32-bit address or count (rule R81). -/
def Call.wordOk (n : Nat) : Bool := n < 2 ^ 32

/-- A value of the `prob` field, `0..255`; a probability outside it is the document's
`InvalidProbability` (rules R81, R223). -/
def Call.probOk (n : Nat) : Bool := n < 2 ^ 8

/-- The `bit` operand, `0` or `1` (rule R81). -/
def Call.bitOk (n : Nat) : Bool := n < 2

/-- Every operand of the call fits its field of the command word (rule R82). -/
def Call.wf : Call → Bool
  | .startEncode a b => Call.wordOk a && Call.wordOk b
  | .encodeBool b p => Call.bitOk b && Call.probOk p
  | .stopEncode => true
  | .startDecode a n => Call.wordOk a && Call.wordOk n
  | .decodeBool p => Call.probOk p
  | .norm r => Call.probOk r

/-- The command a call stands for: none where an operand is out of range (rules R82, R223). -/
def Call.toInstr (c : Call) : Option Instr :=
  if c.wf then
    match c with
    | .startEncode a b => some (.startEncode (BitVec.ofNat 32 a) (BitVec.ofNat 32 b))
    | .encodeBool b p => some (.encodeBool (b == 1) (BitVec.ofNat 8 p))
    | .stopEncode => some .stopEncode
    | .startDecode a n => some (.startDecode (BitVec.ofNat 32 a) (BitVec.ofNat 32 n))
    | .decodeBool p => some (.decodeBool (BitVec.ofNat 8 p))
    | .norm r => some (.norm (BitVec.ofNat 8 r))
  else none

/-- The call a command is written as (rule R89). -/
def Instr.toCall : Instr → Call
  | .startEncode a b => .startEncode a.toNat b.toNat
  | .encodeBool b p => .encodeBool b.toNat p.toNat
  | .stopEncode => .stopEncode
  | .startDecode a n => .startDecode a.toNat n.toNat
  | .decodeBool p => .decodeBool p.toNat
  | .norm r => .norm r.toNat

end Sys2Proof
end

