-- ==== Sys2Proof/Decode.lean ====
section
/-! DEFINITION. The command word: its fields, the opcode table, the decoder and the encoder
(rules R80 to R85, R89, R90). -/

namespace Sys2Proof

/-! ## The fields of the command word (rule R81) -/

/-- `op = cmd[75:73]`. -/
def opField (w : CommandWord) : BitVec 3 := w.extractLsb' 73 3
/-- `bit = cmd[72]`. -/
def bitField (w : CommandWord) : Bool := w.getLsbD 72
/-- `prob = cmd[71:64]`. -/
def probField (w : CommandWord) : Byte := w.extractLsb' 64 8
/-- `arg0 = cmd[63:32]`. -/
def arg0Field (w : CommandWord) : Word := w.extractLsb' 32 32
/-- `arg1 = cmd[31:0]`. -/
def arg1Field (w : CommandWord) : Word := w.extractLsb' 0 32

/-! ## The decoder (rules R84, R85) -/

/-- Why a word is no command. -/
inductive DecodeError where
  /-- `op` is `0b110` or `0b111` (rule R85). -/
  | reservedOp (op : BitVec 3)
  deriving DecidableEq, Repr

/-- The command a 76-bit word stands for: one of six, or a reserved `op` (rules R84, R85).  A field the
command does not use is not looked at (rule R83). -/
def decode (w : CommandWord) : Except DecodeError Instr :=
  match (opField w).toNat with
  | 0 => .ok (.startEncode (arg0Field w) (arg1Field w))
  | 1 => .ok (.encodeBool (bitField w) (probField w))
  | 2 => .ok .stopEncode
  | 3 => .ok (.startDecode (arg0Field w) (arg1Field w))
  | 4 => .ok (.decodeBool (probField w))
  | 5 => .ok (.norm (probField w))
  | _ => .error (.reservedOp (opField w))

/-! ## The opcode table (rule R84, spec/opcode_table.json) -/

/-- A row: a word `w` is the command of a row when `w AND mask = match`. -/
structure OpcodeRow where
  mnemonic : String
  mask : CommandWord
  pattern : CommandWord
  /-- The bits of the word that the command looks at: `op` and the fields rule R84 says it uses. -/
  used : CommandWord
  deriving DecidableEq, Repr

/-- The row of a command (rule R84). -/
def opcodeRow : Instr → OpcodeRow
  | .startEncode _ _ => ⟨"START_ENCODE", 0xE000000000000000000#76, 0x0000000000000000000#76, 0xE00FFFFFFFFFFFFFFFF#76⟩
  | .encodeBool _ _ => ⟨"ENCODE_BOOL", 0xE000000000000000000#76, 0x2000000000000000000#76, 0xFFF0000000000000000#76⟩
  | .stopEncode => ⟨"STOP_ENCODE", 0xE000000000000000000#76, 0x4000000000000000000#76, 0xE000000000000000000#76⟩
  | .startDecode _ _ => ⟨"START_DECODE", 0xE000000000000000000#76, 0x6000000000000000000#76, 0xE00FFFFFFFFFFFFFFFF#76⟩
  | .decodeBool _ => ⟨"DECODE_BOOL", 0xE000000000000000000#76, 0x8000000000000000000#76, 0xEFF0000000000000000#76⟩
  | .norm _ => ⟨"NORM", 0xE000000000000000000#76, 0xA000000000000000000#76, 0xEFF0000000000000000#76⟩

/-! ## The encoder (rules R81, R84; unused fields are assembled as zero, rule R89) -/

/-- The command word with the five fields given: `op ‖ bit ‖ prob ‖ arg0 ‖ arg1` (rule R81). -/
def assemble (op : BitVec 3) (bit : Bool) (prob : Byte) (arg0 arg1 : Word) : CommandWord :=
  op ++ BitVec.ofBool bit ++ prob ++ arg0 ++ arg1

/-- The word of a command (rules R84, R89). -/
def encode : Instr → CommandWord
  | .startEncode a b => assemble 0 false 0 a b
  | .encodeBool b p => assemble 1 b p 0 0
  | .stopEncode => assemble 2 false 0 0 0
  | .startDecode a n => assemble 3 false 0 a n
  | .decodeBool p => assemble 4 false p 0 0
  | .norm r => assemble 5 false r 0 0

/-- The textual form of a command (rule R89), with decimal numbers. -/
def Instr.text : Instr → String
  | .startEncode a b => "START_ENCODE " ++ toString a.toNat ++ ", " ++ toString b.toNat
  | .encodeBool b p => "ENCODE_BOOL " ++ toString b.toNat ++ ", " ++ toString p.toNat
  | .stopEncode => "STOP_ENCODE"
  | .startDecode a n => "START_DECODE " ++ toString a.toNat ++ ", " ++ toString n.toNat
  | .decodeBool p => "DECODE_BOOL " ++ toString p.toNat
  | .norm r => "NORM " ++ toString r.toNat

/-! ## The host's view of a table word -/

/-- The command word whose bits, numbered as spec/opcode_table.json numbers them, are the low `nbits`
bits of `w`, every bit above them 0. -/
def tableWord (nbits w : Nat) : CommandWord := BitVec.ofNat 76 (w % 2 ^ nbits)

/-- The command the decoder reads from a table word: none for a reserved `op`, and none for a number
that does not fit the 76 bits of a command word. -/
def decodeTableWord (nbits w : Nat) : Option Instr :=
  if w % 2 ^ nbits < 2 ^ 76 then (decode (tableWord nbits w)).toOption else none

end Sys2Proof
end

