-- ==== Sys2Proof/Machine/State.lean ====
section
/-! DEFINITION. The state of the block as plain data, the reasons a step can stop, and the state after
reset (rules R20 to R33, R40 to R47, R53 to R55, R60, R86, R87). -/

namespace Sys2Proof.Machine

/-! ## The contexts -/

/-- `enc.phase` (rule R33). -/
inductive EncPhase where
  /-- No stream has been started since reset. -/
  | idle
  /-- `START_ENCODE` has run: `ENCODE_BOOL` and `STOP_ENCODE` are accepted. -/
  | active
  /-- `STOP_ENCODE` has completed: the stream is in memory. -/
  | done
  /-- A `BufferOverflow` has occurred: sticky until the next `START_ENCODE` or reset. -/
  | fault
  deriving DecidableEq, Repr

/-- `dec.phase` (rule R44). -/
inductive DecPhase where
  /-- No `START_DECODE` since reset. -/
  | idle
  /-- `DECODE_BOOL` is accepted. -/
  | active
  deriving DecidableEq, Repr

/-- The encoder context (rules R20, R23 to R33). -/
structure Encoder where
  /-- `enc.range` (rule R23). -/
  range : Byte
  /-- `enc.low_value` (rule R24). -/
  lowValue : Word
  /-- `enc.bit_count`, 6 bits, two's complement (rule R25). -/
  bitCount : BitVec 6
  /-- `enc.pending_carry` (rule R26). -/
  pendingCarry : Bool
  /-- `enc.pending_valid` (rule R27). -/
  pendingValid : Bool
  /-- `enc.pending_byte` (rule R28). -/
  pendingByte : Byte
  /-- `enc.run_of_0xFF` (rule R29). -/
  run : Word
  /-- `enc.output_cursor` (rule R30). -/
  outputCursor : Word
  /-- `enc.output_end` (rule R31). -/
  outputEnd : Word
  /-- `enc.phase` (rule R33). -/
  phase : EncPhase
  deriving DecidableEq, Repr

/-- The decoder context (rules R20, R40 to R47). -/
structure Decoder where
  /-- `dec.range` (rule R40). -/
  range : Byte
  /-- `dec.value` (rule R41). -/
  value : Word
  /-- `dec.bit_count`, 5 bits, two's complement (rule R42). -/
  bitCount : BitVec 5
  /-- `dec.exhausted` (rule R43). -/
  exhausted : Bool
  /-- `dec.phase` (rule R44). -/
  phase : DecPhase
  /-- `dec.input_base` (rule R45). -/
  inputBase : Word
  /-- `dec.input_cursor` (rule R46). -/
  inputCursor : Word
  /-- `dec.input_end` (rule R47). -/
  inputEnd : Word
  deriving DecidableEq, Repr

/-! ## The port -/

/-- The status of a response (rule R87): the codes 5, 6 and 7 are never produced (U7). -/
inductive Status where
  | ok
  | bufferOverflow
  | sequenceError
  | illegalOp
  | illegalOperand
  deriving DecidableEq, Repr

/-- A response, field by field (rule R86); `Response.word` is its 36-bit word. -/
structure Response where
  status : Status
  /-- `dec.exhausted` after the command. -/
  exhausted : Bool
  data : Word
  deriving DecidableEq, Repr

/-- One access of the host to the memory it owns (rules R60, R69). -/
inductive HostAccess where
  | read (addr : Word)
  | write (addr : Word) (v : Byte)
  deriving DecidableEq, Repr

/-- What the world outside does to the block, one action at a time (rules R14, R69, R227, R250). -/
inductive HostAction where
  /-- The host issues a command word (rules R14, R80). -/
  | command (w : CommandWord)
  /-- The host accesses `M` between two commands (rule R69 (d)). -/
  | access (a : HostAccess)
  /-- The reset input is asserted and released between two commands (rule R250). -/
  | reset
  /-- The reset input is asserted while the command `w` is in flight and released afterwards: the first
  `k` of the command's memory writes, or all of them where there are fewer, have been performed
  (rule R250). -/
  | resetDuring (w : CommandWord) (k : Nat)
  /-- The host accesses `M` while the command `w` executes (rule R69, U4). -/
  | commandWithAccess (w : CommandWord) (a : HostAccess)
  deriving DecidableEq, Repr

/-! ## Memory -/

/-- The byte memory `M` (rule R60): the bytes that differ from `Config.unlistedByte`, by address,
addresses strictly rising. -/
abbrev Memory := List Host.Cell

/-- Every address of the list is above `lo`, rising, inside the `2^32` bytes of `M`, and no entry
equals what an unlisted address reads as. -/
def Memory.wfFrom : Nat → Memory → Bool
  | _, [] => true
  | lo, (a, v) :: m => lo ≤ a && a < 2 ^ 32 && v != Config.unlistedByte && Memory.wfFrom (a + 1) m

/-- The canonical form of a memory: equal memories are equal lists. -/
def Memory.wf (m : Memory) : Bool := Memory.wfFrom 0 m

/-! ## The state -/

/-- Everything the spec gives the block, the memory it is attached to, and the two sides of its port. -/
structure State where
  /-- The encoder context (rules R20 to R33). -/
  enc : Encoder
  /-- The decoder context (rules R40 to R47). -/
  dec : Decoder
  /-- The memory `M` (rule R60). -/
  mem : Memory
  /-- The outside world's actions still to come, first one first: the block fetches nothing itself
  (rules R14, R22). -/
  host : List HostAction
  /-- The responses the block has produced, oldest first (rule R86). -/
  responses : List Response
  /-- The `buffer_start` the host gave the last `START_ENCODE`: the host's own knowledge of where its output
  buffer begins, which no register of the block keeps (rule R32) and no command reads (log entry 14). -/
  streamStart : Word
  /-- The model's own counter for free values (log entry 4); no register of the block. -/
  freeCount : Nat
  deriving DecidableEq, Repr

/-- Why the machine stops. -/
inductive Fault where
  /-- The host accessed `addr` while a command was executing that reads or writes `addr`, or while `addr` lay in
  a live buffer: a race, to which rule R69, D25 and U4 give no outcome ("the model should give such a run no
  meaning").  Raised by the host action `commandWithAccess` alone, by no command.  Safe: the hardware goes on,
  the model stops. -/
  | hostAccessRace (addr : Word)
  deriving DecidableEq, Repr

/-- Why the machine gives a command no meaning. -/
inductive Refusal where
  /-- A command that has no meaning in the model yet, by its mnemonic.  Raised by no arm of `exec`:
  all six commands have their meaning.  Safe. -/
  | notModelled (mnemonic : String)
  deriving DecidableEq, Repr

/-- The state right after reset (rules R55, R250): both phases `IDLE`, `dec.exhausted = 0`.  Every other
register is unspecified there and holds 0 here (DESIGN CHOICE, log entry 2, unsafe); nothing is listed in
memory (log entry 3); the host has issued nothing (log entry 1). -/
def State.reset : State where
  enc := { range := 0, lowValue := 0, bitCount := 0, pendingCarry := false, pendingValid := false,
           pendingByte := 0, run := 0, outputCursor := 0, outputEnd := 0, phase := .idle }
  dec := { range := 0, value := 0, bitCount := 0, exhausted := false, phase := .idle,
           inputBase := 0, inputCursor := 0, inputEnd := 0 }
  mem := []
  host := []
  responses := []
  streamStart := 0
  freeCount := 0

end Sys2Proof.Machine
end

