-- ==== Sys2Proof/Machine/Ops.lean ====
section
/-! DEFINITION. The named operations over memory, registers and the port: reading and writing a byte,
answering a command, taking the `BufferOverflow` fault, and reset (rules R13, R60, R65, R86 to R88,
R136, R221, R229, R250). -/

namespace Sys2Proof.Machine

/-! ## Updates of one part of the state -/

def State.withEnc (s : State) (e : Encoder) : State := { s with enc := e }
def State.withDec (s : State) (d : Decoder) : State := { s with dec := d }
def State.withMem (s : State) (m : Memory) : State := { s with mem := m }
def State.withHost (s : State) (h : List HostAction) : State := { s with host := h }
def State.withResponse (s : State) (r : Response) : State := { s with responses := s.responses ++ [r] }
def State.withStreamStart (s : State) (a : Word) : State := { s with streamStart := a }
def State.nextFree (s : State) : State := { s with freeCount := s.freeCount + 1 }

/-! ## Bytes of memory (rules R13, R60, R64, R65) -/

/-- The byte of a memory at address `a`. -/
def readMem : Memory → Nat → Byte
  | [], _ => Config.unlistedByte
  | (b, v) :: m, a => if a = b then v else readMem m a

/-- The memory with the byte `v` put in front of the later entries `m`, or nothing put there where an
unlisted address reads as `v`. -/
def consCell (a : Nat) (v : Byte) (m : Memory) : Memory :=
  if v = Config.unlistedByte then m else (a, v) :: m

/-- The memory with the byte at address `a` replaced by `v`, canonical form kept. -/
def writeMem : Memory → Nat → Byte → Memory
  | [], a, v => consCell a v []
  | (b, w) :: m, a, v =>
    if a < b then consCell a v ((b, w) :: m)
    else if a = b then consCell a v m
    else (b, w) :: writeMem m a v

/-- `MemRead(addr, 1)` (rule R13). -/
def memRead (s : State) (addr : Word) : Byte := readMem s.mem addr.toNat

/-- `MemWrite(addr, 1, v)` (rule R13). -/
def memWrite (s : State) (addr : Word) (v : Byte) : State := s.withMem (writeMem s.mem addr.toNat v)

/-! ## Responses (rules R86 to R88) -/

/-- `respond(status, data)`: end the command with a response, whose `exhausted` bit is `dec.exhausted`
after the command (rules R13, R86). -/
def respond (status : Status) (data : Word) (s : State) : Host.Outcome State Fault Refusal :=
  .next (s.withResponse ⟨status, s.dec.exhausted, data⟩)

/-! ## Registers that hold unspecified values -/

/-- The encoder registers that rule R136 leaves unspecified hold free values; the cursor, the end and the
phase are kept. -/
def freeEncDatapath (n : Nat) (e : Encoder) : Encoder :=
  { e with
    range := Config.freeEncRange n
    lowValue := Config.freeEncLowValue n
    bitCount := Config.freeEncBitCount n
    pendingCarry := Config.freeEncPendingCarry n
    pendingValid := Config.freeEncPendingValid n
    pendingByte := Config.freeEncPendingByte n
    run := Config.freeEncRun n }

/-- The encoder context after a reset (rule R55): phase `IDLE`, everything else unspecified. -/
def freeEncoder (n : Nat) (e : Encoder) : Encoder :=
  { freeEncDatapath n e with
    outputCursor := Config.freeEncOutputCursor n
    outputEnd := Config.freeEncOutputEnd n
    phase := .idle }

/-- The decoder context after a reset (rule R55): phase `IDLE`, `exhausted` 0, everything else unspecified. -/
def freeDecoder (n : Nat) : Decoder where
  range := Config.freeDecRange n
  value := Config.freeDecValue n
  bitCount := Config.freeDecBitCount n
  exhausted := false
  phase := .idle
  inputBase := Config.freeDecInputBase n
  inputCursor := Config.freeDecInputCursor n
  inputEnd := Config.freeDecInputEnd n

/-! ## Faults (rules R220, R221, R224 to R229) -/

/-- A command that is refused: no register changes, no memory access, the status alone is answered
(rules R224 to R226, R229). -/
def refuseCommand (status : Status) (s : State) : Host.Outcome State Fault Refusal := respond status 0 s

/-- The sticky answer of an encoder command in phase `FAULT`: nothing changes (rules R221, R230). -/
def stickyOverflow (s : State) : Host.Outcome State Fault Refusal :=
  respond .bufferOverflow s.enc.outputCursor s

/-- Entering the fault: phase `FAULT`, datapath registers unspecified, cursor, end and memory as the refused
write found them (rule R136). -/
def enterFault (s : State) : State :=
  (s.withEnc { freeEncDatapath s.freeCount s.enc with phase := .fault }).nextFree

/-- Taking `BufferOverflow` during execution: enter the fault and answer with the refused address
(rules R88, R136, R221). -/
def takeOverflow (s : State) : Host.Outcome State Fault Refusal := stickyOverflow (enterFault s)

/-! ## Procedures that may raise `BufferOverflow` (rule R13) -/

/-- How a procedure of the encoder ends: it returns, or it has raised `BufferOverflow`, with the state as
the refused write found it. -/
inductive Emit where
  | ok (s : State)
  | overflow (s : State)
  deriving DecidableEq, Repr

/-- Run `f` after a procedure that returned; after a raise, nothing more is executed (rule R13). -/
def Emit.bind (x : Emit) (f : State → Emit) : Emit :=
  match x with
  | .ok s => f s
  | .overflow s => .overflow s

/-- Finish the command after a procedure: go on, or take the fault. -/
def Emit.finish (x : Emit) (f : State → Host.Outcome State Fault Refusal) : Host.Outcome State Fault Refusal :=
  match x with
  | .ok s => f s
  | .overflow s => takeOverflow s

/-! ## Reset (rule R250) -/

/-- The reset input, asserted and released: both contexts as rule R55 says, memory untouched.  The responses
already given and the actions still to come are the host's. -/
def resetBlock (s : State) : State :=
  ((s.withEnc (freeEncoder s.freeCount s.enc)).withDec (freeDecoder s.freeCount)).nextFree

/-! ## The encodings of phases and responses (rules R33, R44, R86, R87) -/

/-- `IDLE = 0`, `ACTIVE = 1`, `DONE = 2`, `FAULT = 3` (rule R33). -/
def EncPhase.code : EncPhase → BitVec 2
  | .idle => 0
  | .active => 1
  | .done => 2
  | .fault => 3

/-- `IDLE = 0`, `ACTIVE = 1` (rule R44). -/
def DecPhase.code : DecPhase → BitVec 1
  | .idle => 0
  | .active => 1

/-- The status codes (rule R87). -/
def Status.code : Status → BitVec 3
  | .ok => 0
  | .bufferOverflow => 1
  | .sequenceError => 2
  | .illegalOp => 3
  | .illegalOperand => 4

/-- The response word `status ‖ exhausted ‖ data` (rule R86). -/
def Response.word (r : Response) : ResponseWord :=
  r.status.code ++ BitVec.ofBool r.exhausted ++ r.data

/-- The name of a status in the textual form of a response (rules R87, R89). -/
def Status.text : Status → String
  | .ok => "OK"
  | .bufferOverflow => "BUFFER_OVERFLOW"
  | .sequenceError => "SEQUENCE_ERROR"
  | .illegalOp => "ILLEGAL_OP"
  | .illegalOperand => "ILLEGAL_OPERAND"

/-- The textual form of a response, its data always written (rule R89). -/
def Response.text (r : Response) : String :=
  "-> " ++ r.status.text ++ ", " ++ toString r.data.toNat ++ (if r.exhausted then ", X" else "")

end Sys2Proof.Machine
end

