-- ==== Sys2Proof/Machine/Operands.lean ====
section
/-! DEFINITION. The values the datapaths derive from their registers and operands: `shift_for`, `split_of`,
the position of `range` in `low_value`, the threshold, the byte to finalize, the place of a refilled byte, the
read address (rules R67, R100 to R105, R122, R125, R162, R165). -/

namespace Sys2Proof.Machine

/-! ## Normalization and split (40_normalization.md) -/

/-- `shift_for(r)`: `7 - floor(log2 r)` for `r` in `[1,255]`, undefined for 0 (rules R100, R103). -/
def shiftFor (r : Byte) : Option Nat :=
  if r = 0 then none else some (7 - Nat.log2 r.toNat)

/-- The shift a datapath renormalizes `r` by; for the 0 that no run produces, a free value (rule R103,
log entry 5). -/
def shiftOf (r : Byte) : Nat := (shiftFor r).getD Config.shiftForZero

/-- `split_of(r, p) = 1 + (((r - 1) * p) >> 8)` for `r` in `[1,255]` (rule R104); for the 0 that no run
produces, a free value (log entry 5). -/
def splitOf (r p : Byte) : Byte :=
  if r = 0 then Config.splitOfZero p
  else BitVec.ofNat 8 (1 + (((r.toNat - 1) * p.toNat) >>> 8))

/-! ## The encoder's operands -/

/-- `pos = -enc.bit_count`: the bit of `low_value` that bit 0 of `range` is aligned with (rule R122).
In an `ACTIVE` context it is in `[1,24]`; for the counts of 0 and more that no run leaves between commands it
is 0 here (log entry 6). -/
def encPos (e : Encoder) : Nat := (-e.bitCount.toInt).toNat

/-- `low_value + (split << pos)`, exact (rules R108 (a), R123). -/
def encSum (e : Encoder) (split : Byte) : Nat := e.lowValue.toNat + split.toNat <<< encPos e

/-- `enc.low_value[31:24]`, the next byte of the stream (rule R125). -/
def topByte (e : Encoder) : Byte := e.lowValue.extractLsb' 24 8

/-- `enc.low_value[23:0] << 8` (rule R125). -/
def lowShifted (e : Encoder) : Word := (e.lowValue.extractLsb' 0 24).setWidth 32 <<< 8

/-! ## The decoder's operands -/

/-- The threshold `split << 24` (rule R162). -/
def thresholdOf (split : Byte) : Word := split.setWidth 32 <<< 24

/-- `(dec.input_base + dec.input_cursor) mod 2^32` (rule R67). -/
def readAddress (d : Decoder) : Word := d.inputBase + d.inputCursor

/-- `byte << (16 - dec.bit_count)`: the byte directly below the valid bits (rule R165). -/
def placeByte (d : Decoder) (byte : Byte) : Word := byte.setWidth 32 <<< (16 - d.bitCount.toInt).toNat

end Sys2Proof.Machine
end

