-- ==== Sys2Proof/Machine/Flags.lean ====
section
/-! DEFINITION. The flags and the conditions the commands test: the carry out of `low_value`, a byte that is
due, a refill that is needed, the end of a buffer (rules R26, R43, R67, R123, R130, R131, R165). -/

namespace Sys2Proof.Machine

/-- `enc.pending_carry` after step 2 of `ENCODE_BOOL`: set where bit 32 of the sum is 1, else as it was
(rules R26, R123). -/
def carryAfter (e : Encoder) (sum : Nat) : Bool := e.pendingCarry || sum.testBit 32

/-- `enc.bit_count >= 0`: a byte is due (rule R123 step 4). -/
def byteDue (e : Encoder) : Bool := 0 ≤ e.bitCount.toInt

/-- `enc.output_cursor >= enc.output_end`, unsigned: the write is refused (rule R131). -/
def outputFull (e : Encoder) : Bool := e.outputEnd ≤ e.outputCursor

/-- `enc.run_of_0xFF = 2^32 - 1`: the run counter can count no further (rule R130). -/
def runFull (e : Encoder) : Bool := e.run == BitVec.allOnes 32

/-- `dec.bit_count < 0`: fewer than 8 valid bits are loaded (rules R42, R165). -/
def refillDue (d : Decoder) : Bool := d.bitCount.toInt < 0

/-- `dec.input_cursor < dec.input_end`, unsigned: a byte is left to read (rules R67, R165). -/
def inputLeft (d : Decoder) : Bool := d.inputCursor < d.inputEnd

end Sys2Proof.Machine
end

