-- ==== Sys2Proof/Machine/Decoder.lean ====
section
/-! DEFINITION. The decoder's commands: `START_DECODE`, `DECODE_BOOL`, and the procedure `REFILL`
(rules R161 to R165). -/

namespace Sys2Proof.Machine

/-- The decoder context `START_DECODE` creates (rules R56, R161). -/
def startedDecoder (buffer length : Word) : Decoder where
  range := Config.initRange
  value := 0
  bitCount := Config.decPrime
  exhausted := false
  phase := .active
  inputBase := buffer
  inputCursor := 0
  inputEnd := length

/-- `START_DECODE buffer, length`: accepted in every phase (rule R161). -/
def execStartDecode (buffer length : Word) (s : State) : Host.Outcome State Fault Refusal :=
  respond .ok 0 (s.withDec (startedDecoder buffer length))

/-- The window with `byte` placed directly below its valid bits (rule R165). -/
def loadByte (d : Decoder) (byte : Byte) : Decoder :=
  { d with value := d.value ||| placeByte d byte, bitCount := d.bitCount + 8 }

/-- `REFILL()`, whose loop runs at most once (rules R165, R166): the next byte of the input, or a zero byte
and `exhausted` where none is left. -/
def refill (m : Memory) (d : Decoder) : Decoder :=
  if refillDue d then
    if inputLeft d then
      { loadByte d (readMem m (readAddress d).toNat) with inputCursor := d.inputCursor + 1 }
    else { loadByte d 0x00 with exhausted := true }
  else d

/-- Step 3 of `DECODE_BOOL`: the bit, the context with the threshold subtracted for a 1 bit, and `range'`
(rule R163). -/
def decSelect (split : Byte) (d : Decoder) : Bool × Decoder × Byte :=
  if thresholdOf split ≤ d.value then
    (true, { d with value := d.value - thresholdOf split }, d.range - split)
  else (false, d, split)

/-- Step 4 of `DECODE_BOOL` before its `REFILL`: the renormalization (rule R163). -/
def decRenormalize (d : Decoder) (range' : Byte) : Decoder :=
  { d with
    range := range' <<< shiftOf range'
    value := d.value <<< shiftOf range'
    bitCount := d.bitCount - BitVec.ofNat 5 (shiftOf range') }

/-- Steps 1 to 4 of `DECODE_BOOL` over the memory `m`: the decoded bit and the context (rule R163). -/
def decodeBit (m : Memory) (probability : Byte) (d : Decoder) : Bool × Decoder :=
  let loaded := refill m d
  let selected := decSelect (splitOf loaded.range probability) loaded
  (selected.1, refill m (decRenormalize selected.2.1 selected.2.2))

/-- `DECODE_BOOL probability` (rule R163). -/
def execDecodeBool (probability : Byte) (s : State) : Host.Outcome State Fault Refusal :=
  match s.dec.phase with
  | .idle => refuseCommand .sequenceError s
  | .active =>
    respond .ok (if (decodeBit s.mem probability s.dec).1 then 1 else 0)
      (s.withDec (decodeBit s.mem probability s.dec).2)

end Sys2Proof.Machine
end

