-- ==== Sys2Proof/Machine/Carry.lean ====
section
/-! DEFINITION. The carry-propagation logic: `WRITE_BYTE`, `FINALIZE`, `DRAIN` (rules R126, R130 to R132). -/

namespace Sys2Proof.Machine

/-- `WRITE_BYTE(v)`: the bound is checked before the write (rule R131).  The phase that a raise sets is
written by `enterFault`. -/
def writeByte (v : Byte) (s : State) : Emit :=
  if outputFull s.enc then .overflow s
  else .ok ((memWrite s s.enc.outputCursor v).withEnc { s.enc with outputCursor := s.enc.outputCursor + 1 })

/-- `repeat n times: WRITE_BYTE(v)` (rule R130). -/
def writeRun (v : Byte) : Nat → State → Emit
  | 0, s => .ok s
  | n + 1, s => (writeByte v s).bind (writeRun v n)

/-- `WRITE_BYTE(v)`, then `enc.run_of_0xFF` times `WRITE_BYTE(r)`: the held bytes leave the block
(rules R130, R132). -/
def writeHeld (v r : Byte) (s : State) : Emit :=
  (writeByte v s).bind (writeRun r s.enc.run.toNat)

/-- `b` becomes the pending byte, with no run after it and no carry pending. -/
def holdByte (b : Byte) (s : State) : State :=
  s.withEnc { s.enc with pendingByte := b, run := 0, pendingCarry := false }

/-- `FINALIZE(b)`, cases (A) to (D) in the order they are tested (rule R130). -/
def finalize (b : Byte) (s : State) : Emit :=
  if !s.enc.pendingValid then
    .ok (s.withEnc { s.enc with pendingByte := b, pendingValid := true, pendingCarry := false })
  else if s.enc.pendingCarry then
    (writeHeld (s.enc.pendingByte + 1) 0x00 s).bind fun t => .ok (holdByte b t)
  else if b = 0xFF then
    if runFull s.enc then .overflow s
    else .ok (s.withEnc { s.enc with run := s.enc.run + 1 })
  else
    (writeHeld s.enc.pendingByte 0xFF s).bind fun t => .ok (holdByte b t)

/-- `DRAIN()` (rule R132). -/
def drain (s : State) : Emit :=
  if s.enc.pendingValid then
    (writeHeld s.enc.pendingByte 0xFF s).bind fun t =>
      .ok (t.withEnc { t.enc with pendingValid := false, run := 0 })
  else .ok s

/-- `FINALIZE(enc.low_value[31:24])`, then `enc.low_value <- enc.low_value[23:0] << 8` (rules R123, R125,
R133). -/
def emitTopByte (s : State) : Emit :=
  (finalize (topByte s.enc) s).bind fun t => .ok (t.withEnc { t.enc with lowValue := lowShifted t.enc })

/-- `repeat n times` the emission of the top byte (rule R133 step 1). -/
def emitTopBytes : Nat → State → Emit
  | 0, s => .ok s
  | n + 1, s => (emitTopByte s).bind (emitTopBytes n)

end Sys2Proof.Machine
end

