-- ==== Sys2Proof/Machine/Encoder.lean ====
section
/-! DEFINITION. The encoder's commands: `START_ENCODE`, `ENCODE_BOOL`, `STOP_ENCODE` (rules R121, R123, R133). -/

namespace Sys2Proof.Machine

/-- The encoder context `START_ENCODE` creates (rules R56, R121). -/
def startedEncoder (bufferStart bufferEnd : Word) : Encoder where
  range := Config.initRange
  lowValue := 0
  bitCount := Config.encPrime
  pendingCarry := false
  pendingValid := false
  pendingByte := 0
  run := 0
  outputCursor := bufferStart
  outputEnd := bufferEnd
  phase := .active

/-- `START_ENCODE buffer_start, buffer_end`: accepted in every phase (rule R121).  Where the host's buffer begins
is noted beside the block (log entry 14). -/
def execStartEncode (bufferStart bufferEnd : Word) (s : State) : Host.Outcome State Fault Refusal :=
  respond .ok 0 ((s.withEnc (startedEncoder bufferStart bufferEnd)).withStreamStart bufferStart)

/-- Step 0 of `ENCODE_BOOL` and `STOP_ENCODE`: the sticky answer in `FAULT`, a sequence error outside
`ACTIVE`, else the command's own steps (rules R123, R133, R228). -/
def whenEncActive (s : State) (body : Host.Outcome State Fault Refusal) : Host.Outcome State Fault Refusal :=
  match s.enc.phase with
  | .fault => stickyOverflow s
  | .idle => refuseCommand .sequenceError s
  | .done => refuseCommand .sequenceError s
  | .active => body

/-- Step 2 of `ENCODE_BOOL`: the context with `split` added to `low_value` for a 1 bit, and `range'`
(rule R123). -/
def encSelect (bit : Bool) (split : Byte) (e : Encoder) : Encoder × Byte :=
  if bit then
    ({ e with pendingCarry := carryAfter e (encSum e split), lowValue := BitVec.ofNat 32 (encSum e split) },
      e.range - split)
  else (e, split)

/-- Step 3 of `ENCODE_BOOL`: the renormalization (rule R123). -/
def encRenormalize (e : Encoder) (range' : Byte) : Encoder :=
  { e with range := range' <<< shiftOf range', bitCount := e.bitCount + BitVec.ofNat 6 (shiftOf range') }

/-- Steps 1 to 3 of `ENCODE_BOOL` (rule R123). -/
def encodeInterval (bit : Bool) (probability : Byte) (e : Encoder) : Encoder :=
  let selected := encSelect bit (splitOf e.range probability) e
  encRenormalize selected.1 selected.2

/-- Step 4 of `ENCODE_BOOL`, which runs at most once (rules R123, R124). -/
def emitDueByte (s : State) : Emit :=
  if byteDue s.enc then
    (emitTopByte s).bind fun t => .ok (t.withEnc { t.enc with bitCount := t.enc.bitCount - 8 })
  else .ok s

/-- `ENCODE_BOOL bit, probability` (rule R123). -/
def execEncodeBool (bit : Bool) (probability : Byte) (s : State) : Host.Outcome State Fault Refusal :=
  whenEncActive s
    ((emitDueByte (s.withEnc (encodeInterval bit probability s.enc))).finish (respond .ok 0))

/-- `STOP_ENCODE` (rule R133). -/
def execStopEncode (s : State) : Host.Outcome State Fault Refusal :=
  whenEncActive s
    (((emitTopBytes Config.flushBytes s).bind drain).finish fun t =>
      respond .ok t.enc.outputCursor (t.withEnc { t.enc with phase := .done }))

end Sys2Proof.Machine
end

