-- ==== Sys2Proof/Machine/Normalize.lean ====
section
/-! DEFINITION. The normalization table as a command: `NORM` (rule R107). -/

namespace Sys2Proof.Machine

/-- `NORM r` (rule R107): `shift_for(r)`, or `ILLEGAL_OPERAND` for 0. -/
def execNorm (r : Byte) (s : State) : Host.Outcome State Fault Refusal :=
  match shiftFor r with
  | none => refuseCommand .illegalOperand s
  | some k => respond .ok (BitVec.ofNat 32 k) s

end Sys2Proof.Machine
end

