-- ==== Sys2Proof/Machine/Dispatch.lean ====
section
/-! DEFINITION. One arm per command (rule R84). -/

namespace Sys2Proof.Machine

def exec (i : Instr) (s : State) : Host.Outcome State Fault Refusal :=
  match i with
  | .startEncode bufferStart bufferEnd => Sys2Proof.Machine.execStartEncode bufferStart bufferEnd s
  | .encodeBool bit probability => Sys2Proof.Machine.execEncodeBool bit probability s
  | .stopEncode => Sys2Proof.Machine.execStopEncode s
  | .startDecode buffer length => Sys2Proof.Machine.execStartDecode buffer length s
  | .decodeBool probability => Sys2Proof.Machine.execDecodeBool probability s
  | .norm r => Sys2Proof.Machine.execNorm r s

end Sys2Proof.Machine
end

