-- ==== Sys2Proof/Machine/Port.lean ====
section
/-! DEFINITION. The command port and the other things the outside world does to the block: a command word,
an access to memory, the reset input (rules R14, R69, R85, R225, R250, R260). -/

namespace Sys2Proof.Machine

/-- A reserved `op`: `ILLEGAL_OP`, nothing else happens (rules R85, R225). -/
def execIllegalOp (s : State) : Host.Outcome State Fault Refusal := refuseCommand .illegalOp s

/-- A command word: the command it decodes to, or the answer to a reserved `op`, checked before everything
else (rules R85, R228). -/
def runCommand (w : CommandWord) (s : State) : Host.Outcome State Fault Refusal :=
  match decode w with
  | .ok i => exec i s
  | .error (.reservedOp _) => execIllegalOp s

/-- How many bytes a command word that led from `s` to `t` has written: they lie at `s.enc.output_cursor`
and upwards (rules R60, R64, R131). -/
def bytesWritten (w : CommandWord) (s t : State) : Nat :=
  match decode w with
  | .ok (.encodeBool _ _) => (t.enc.outputCursor - s.enc.outputCursor).toNat
  | .ok .stopEncode => (t.enc.outputCursor - s.enc.outputCursor).toNat
  | _ => 0

/-- How many bytes a command word that led from `s` to `t` has read: they lie at the indices
`s.dec.input_cursor` and upwards (rules R60, R64, R165). -/
def bytesRead (w : CommandWord) (s t : State) : Nat :=
  match decode w with
  | .ok (.decodeBool _) => (t.dec.inputCursor - s.dec.inputCursor).toNat
  | _ => 0

/-- `a` is one of the `n` addresses from `start` upwards, modulo `2^32`. -/
def inWindow (start : Word) (n : Nat) (a : Word) : Bool := (a - start).toNat < n

/-- The command word that led from `s` to `t` reads or writes address `a`. -/
def touches (w : CommandWord) (s t : State) (a : Word) : Bool :=
  inWindow s.enc.outputCursor (bytesWritten w s t) a || inWindow (readAddress s.dec) (bytesRead w s t) a

/-- `a` lies in the output buffer, `buffer_start <= a < buffer_end` (rule R121). -/
def inOutputBuffer (s : State) (a : Word) : Bool := s.streamStart ≤ a && a < s.enc.outputEnd

/-- `a` lies in the input buffer: one of its `length` bytes, modulo `2^32` (rules R47, R67, R161). -/
def inInputBuffer (d : Decoder) (a : Word) : Bool := inWindow d.inputBase d.inputEnd.toNat a

/-- `a` lies in a live buffer: the output buffer of a stream in progress, or the input buffer of a decoding in
progress (rules R232, R252, R257; D25, U4; log entry 14). -/
def inLiveBuffer (s : State) (a : Word) : Bool :=
  (s.enc.phase == .active && inOutputBuffer s a) || (s.dec.phase == .active && inInputBuffer s.dec a)

/-- An access of the host to `a` during the command word that led from `s` to `t` has no outcome: the command
touches `a`, or `a` lies in a buffer that is live before or after it (rule R69, D25, U4). -/
def races (w : CommandWord) (s t : State) (a : Word) : Bool :=
  touches w s t a || inLiveBuffer s a || inLiveBuffer t a

/-- The memory `m` with the `n` bytes from address `a` upwards as `src` has them. -/
def copyBytes (src : Memory) : Nat → Nat → Memory → Memory
  | 0, _, m => m
  | n + 1, a, m => copyBytes src n (a + 1) (writeMem m a (readMem src a))

/-- An access of the host to the memory: a read changes nothing, a write lands (rules R65, R69, U5). -/
def hostAccess (a : HostAccess) (s : State) : State :=
  match a with
  | .read _ => s
  | .write addr v => memWrite s addr v

/-- The address of an access of the host. -/
def HostAccess.addr : HostAccess → Word
  | .read addr => addr
  | .write addr _ => addr

/-- Reset while the command `w` is in flight: the first `k` of its memory writes have been performed, no
response is produced (rule R250).  DESIGN CHOICE (log entry 8), unsafe: every other byte is as before the command,
where U6 lets a model give any value to the bytes of the output buffer at and above the last cursor the host
knew. -/
def resetDuringCommand (w : CommandWord) (k : Nat) (s : State) : Host.Outcome State Fault Refusal :=
  match runCommand w s with
  | .next t =>
    .next (resetBlock (s.withMem
      (copyBytes t.mem (min k (bytesWritten w s t)) s.enc.outputCursor.toNat s.mem)))
  | .fault r => .fault r
  | .refused r => .refused r

/-- A command during which the host accesses `M`: a race where the command touches the address or the address
lies in a live buffer (rule R69, D25, U4), plain memory elsewhere (rule R65). -/
def commandWithHostAccess (w : CommandWord) (a : HostAccess) (s : State) : Host.Outcome State Fault Refusal :=
  match runCommand w s with
  | .next t => if races w s t a.addr then .fault (.hostAccessRace a.addr) else .next (hostAccess a t)
  | .fault r => .fault r
  | .refused r => .refused r

/-- One action of the outside world (rules R14, R69, R250). -/
def runAction (a : HostAction) (s : State) : Host.Outcome State Fault Refusal :=
  match a with
  | .command w => runCommand w s
  | .access x => .next (hostAccess x s)
  | .reset => .next (resetBlock s)
  | .resetDuring w k => resetDuringCommand w k s
  | .commandWithAccess w x => commandWithHostAccess w x s

end Sys2Proof.Machine
end

