-- ==== Sys2Proof/Machine/Step.lean ====
section
/-! DEFINITION. One step: the next action of the outside world.  A command is one step (rule R14). -/

namespace Sys2Proof.Machine

/-- One step.  The block never acts on its own (rule R227): with no action to come it is idle and keeps all
its state (rule R234). -/
def step (s : State) : Host.Outcome State Fault Refusal :=
  match s.host with
  | [] => .next s
  | a :: rest => runAction a (s.withHost rest)

/-- `s` with the table word as the next command the host issues, so that the very next step runs it (log
entry 1: there is no program in memory; commands come from the host, rule R22). -/
def State.withFetchWord (s : State) (nbits w : Nat) : State :=
  s.withHost (.command (tableWord nbits w) :: s.host)

end Sys2Proof.Machine
end

