-- ==== Sys2Proof/Safety.lean ====
section
/-! DEFINITION. The terms claims are stated in: the invariants of the two contexts, runs of the machine, the
bytes a command releases to memory, and the two reference encoders of 41_encoder.md and 43_contract.md. -/

namespace Sys2Proof.Machine

/-! ## The invariants between commands (rules R193 to R198, R162, R165) -/

/-- What holds of an `ACTIVE` encoder context between commands. -/
structure EncInv (e : Encoder) : Prop where
  /-- `range` is in `[128,255]` (rules R23, R193). -/
  range_ge : 128 ≤ e.range.toNat
  /-- `bit_count` is in `[-24,-1]` (rule R195). -/
  count_ge : -24 ≤ e.bitCount.toInt
  count_neg : e.bitCount.toInt < 0
  /-- The bits of `low_value` below `pos` are zero (rule R196). -/
  low_aligned : e.lowValue.toNat % 2 ^ encPos e = 0
  /-- Before the first byte: no carry, no run, and the interval below the top of the initial one
  (rule R197 (a), (b)). -/
  first : e.pendingValid = false →
    e.pendingCarry = false ∧ e.run = 0 ∧ e.lowValue.toNat + e.range.toNat * 2 ^ encPos e ≤ 255 * 2 ^ 24
  /-- After it: the pending byte is not `0xFF` (rule R198), and the interval, the pending carry counted as
  bit 32, ends below `2^32 + 2^16` (rule R197 (c)). -/
  later : e.pendingValid = true →
    e.pendingByte ≠ 0xFF ∧
      e.pendingCarry.toNat * 2 ^ 32 + e.lowValue.toNat + e.range.toNat * 2 ^ encPos e < 2 ^ 32 + 2 ^ 16

/-- What holds of a `DONE` encoder context (rule R133). -/
structure EncDone (e : Encoder) : Prop where
  low_zero : e.lowValue = 0
  no_carry : e.pendingCarry = false
  drained : e.pendingValid = false
  no_run : e.run = 0

/-- What holds of an `ACTIVE` decoder context between commands. -/
structure DecInv (d : Decoder) : Prop where
  /-- `range` is in `[128,255]` (rules R40, R193). -/
  range_ge : 128 ≤ d.range.toNat
  /-- `bit_count` is `-8` before the first `DECODE_BOOL` and in `[0,7]` after it (rule R42). -/
  count_ok : d.bitCount.toInt = -8 ∨ (0 ≤ d.bitCount.toInt ∧ d.bitCount.toInt ≤ 7)
  /-- Every bit of `value` below the `8 + bit_count` valid ones is zero (rules R41, R162). -/
  value_aligned : d.value.toNat % 2 ^ (24 - d.bitCount.toInt).toNat = 0
  /-- `input_cursor <= input_end` (rule R46). -/
  cursor_le : d.inputCursor ≤ d.inputEnd
  /-- `exhausted` is set only at the end of the input (rules R43, R166). -/
  exhausted_end : d.exhausted = true → d.inputCursor = d.inputEnd

/-- The invariant of the machine: it holds at reset and every step keeps it. -/
structure State.Inv (s : State) : Prop where
  mem_wf : Memory.wf s.mem = true
  enc_active : s.enc.phase = .active → EncInv s.enc
  enc_done : s.enc.phase = .done → EncDone s.enc
  dec_active : s.dec.phase = .active → DecInv s.dec
  dec_idle : s.dec.phase = .idle → s.dec.exhausted = false
  /-- The cursor starts at `buffer_start`, and once it has moved it is at most `output_end` (rules R30, R67). -/
  stream : s.enc.phase = .active → s.enc.outputCursor = s.streamStart ∨
    (s.streamStart ≤ s.enc.outputCursor ∧ s.enc.outputCursor ≤ s.enc.outputEnd)

/-! ## Runs -/

/-- `n` steps, stopping at the first fault or refusal. -/
def runSteps : Nat → State → Host.Outcome State Fault Refusal
  | 0, s => .next s
  | n + 1, s =>
    match step s with
    | .next t => runSteps n t
    | .fault r => .fault r
    | .refused r => .refused r

/-- The state in which the host is about to issue these commands, one after the other. -/
def State.issue (s : State) (is : List Instr) : State := s.withHost (is.map fun i => .command (encode i))

/-- `START_ENCODE a, b`, one `ENCODE_BOOL` for each pair of a bit and a probability, `STOP_ENCODE` (rule R252). -/
def encodeProgram (a b : Word) (bits : List (Bool × Byte)) : List Instr :=
  .startEncode a b :: bits.map (fun x => .encodeBool x.1 x.2) ++ [.stopEncode]

/-- `START_DECODE a, n`, one `DECODE_BOOL` for each probability (rule R252). -/
def decodeProgram (a n : Word) (probabilities : List Byte) : List Instr :=
  .startDecode a n :: probabilities.map .decodeBool

/-! ## Bytes in memory -/

/-- The bytes of memory at `a, a + 1, …, a + n - 1`. -/
def bytesAt (m : Memory) (a : Nat) : Nat → List Byte
  | 0 => []
  | n + 1 => readMem m a :: bytesAt m (a + 1) n

/-- The memory with these bytes stored from address `a` upwards. -/
def storeBytes (m : Memory) (a : Nat) : List Byte → Memory
  | [] => m
  | v :: vs => storeBytes (writeMem m a v) (a + 1) vs

/-- The number of bytes the encoder may still write (rules R31, R67). -/
def room (e : Encoder) : Nat := e.outputEnd.toNat - e.outputCursor.toNat

/-! ## The bytes a command releases to memory (rules R54, R130, R133) -/

/-- The bytes held back, as they will be written: with the pending carry added in where there is one
(rule R54). -/
def heldBytes (e : Encoder) : List Byte :=
  if e.pendingValid then
    if e.pendingCarry then (e.pendingByte + 1) :: List.replicate e.run.toNat 0x00
    else e.pendingByte :: List.replicate e.run.toNat 0xFF
  else []

/-- The bytes `FINALIZE(b)` releases: the held ones in the cases (B) and (D), none in (A) and (C) (rule R130). -/
def releasedBy (b : Byte) (e : Encoder) : List Byte :=
  if e.pendingCarry || b != 0xFF then heldBytes e else []

/-- The bytes `ENCODE_BOOL bit, p` releases in an `ACTIVE` context (rules R64, R123). -/
def encodeReleases (bit : Bool) (p : Byte) (e : Encoder) : List Byte :=
  if byteDue (encodeInterval bit p e) then releasedBy (topByte (encodeInterval bit p e)) (encodeInterval bit p e)
  else []

/-- The four bytes of `low_value`, most significant first (rule R133). -/
def lowBytes (e : Encoder) : List Byte :=
  [e.lowValue.extractLsb' 24 8, e.lowValue.extractLsb' 16 8, e.lowValue.extractLsb' 8 8, e.lowValue.extractLsb' 0 8]

/-- The bytes `STOP_ENCODE` releases in an `ACTIVE` context: the held ones, then those of `low_value`
(rule R133). -/
def stopReleases (e : Encoder) : List Byte := heldBytes e ++ lowBytes e

/-- The run counter is asked to count past `2^32 - 1` by the bytes of `low_value` (rules R130 (C), R133): they
begin with too many `0xFF`, and no carry is pending. -/
def stopOverflowsRun (e : Encoder) : Bool :=
  e.pendingValid && !e.pendingCarry && 2 ^ 32 ≤ e.run.toNat + ((lowBytes e).takeWhile (· == 0xFF)).length

/-- `enc.pending_byte` after a `STOP_ENCODE` that completes: the last byte that was pending (rule R133).  A
byte `0xFF` becomes pending only where it comes first or with a carry (rule R130). -/
def lastPending (e : Encoder) : Byte :=
  (lowBytes e).tail.foldl (fun held b => if b = 0xFF then held else b)
    (if e.pendingValid && !e.pendingCarry && topByte e == 0xFF then e.pendingByte else topByte e)

/-! ## `ENCODE_BOOL` and `DECODE_BOOL` in exact integers (rules R104, R123, R163) -/

/-- `split_of` on integers (rule R104). -/
def exactSplit (r p : Nat) : Nat := 1 + (r - 1) * p / 256

/-- `range'`: `range - split` for a 1 bit, `split` for a 0 bit (rules R123, R163). -/
def selectedRange (bit : Bool) (r p : Nat) : Nat := if bit then r - exactSplit r p else exactSplit r p

/-- `k` is the shift that normalizes `r`: `(r << k)` is in `[128,255]` (rule R100). -/
def Normalizes (r k : Nat) : Prop := 128 ≤ r * 2 ^ k ∧ r * 2 ^ k ≤ 255

/-- `low_value` and the carry out of it after step 2 of `ENCODE_BOOL`, as one number of 33 bits (rule R123). -/
def exactSum (bit : Bool) (p : Byte) (e : Encoder) : Nat :=
  if bit then e.lowValue.toNat + exactSplit e.range.toNat p.toNat * 2 ^ (-e.bitCount.toInt).toNat
  else e.lowValue.toNat

/-- The encoder context after steps 1 to 3 of `ENCODE_BOOL`, `k` being the shift (rule R123). -/
def encodedInterval (bit : Bool) (p : Byte) (k : Nat) (e : Encoder) : Encoder :=
  { e with
    range := BitVec.ofNat 8 (selectedRange bit e.range.toNat p.toNat * 2 ^ k)
    lowValue := BitVec.ofNat 32 (exactSum bit p e)
    pendingCarry := e.pendingCarry || decide (2 ^ 32 ≤ exactSum bit p e)
    bitCount := BitVec.ofInt 6 (e.bitCount.toInt + k) }

/-- The encoder context after the top byte has left `low_value` and `bit_count` has gone down by 8
(rule R123 step 4). -/
def byteRemoved (e : Encoder) : Encoder :=
  { e with
    lowValue := BitVec.ofNat 32 (e.lowValue.toNat % 2 ^ 24 * 2 ^ 8)
    bitCount := BitVec.ofInt 6 (e.bitCount.toInt - 8) }

/-- The bit `DECODE_BOOL p` decodes from a window whose top 8 bits are valid (rules R162, R163). -/
def decodedBit (p : Byte) (d : Decoder) : Bool :=
  decide (exactSplit d.range.toNat p.toNat * 2 ^ 24 ≤ d.value.toNat)

/-- The window after the subtraction and the shift by `k`, modulo `2^32` (rule R163 steps 3, 4). -/
def decodedValue (p : Byte) (k : Nat) (d : Decoder) : Word :=
  BitVec.ofNat 32
    ((if decodedBit p d then d.value.toNat - exactSplit d.range.toNat p.toNat * 2 ^ 24 else d.value.toNat) * 2 ^ k)

/-- The range after `DECODE_BOOL p`, `k` being the shift (rule R163 step 4). -/
def decodedRange (p : Byte) (k : Nat) (d : Decoder) : Byte :=
  BitVec.ofNat 8 (selectedRange (decodedBit p d) d.range.toNat p.toNat * 2 ^ k)

/-- The byte a refill takes: the next byte of the input, or zero where none is left (rules R165, R166). -/
def inputByte (m : Memory) (d : Decoder) : Byte :=
  if d.inputCursor.toNat < d.inputEnd.toNat then
    readMem m ((d.inputBase.toNat + d.inputCursor.toNat) % 2 ^ 32)
  else 0x00

/-- The decoder context after the cursor has moved past a byte, or the end of the input has been noted
(rules R165, R166). -/
def inputTaken (d : Decoder) : Decoder :=
  if d.inputCursor.toNat < d.inputEnd.toNat then { d with inputCursor := d.inputCursor + 1 }
  else { d with exhausted := true }

/-- The command addresses the encoder context (rule R84). -/
def forEncoder : Instr → Bool
  | .startEncode _ _ => true
  | .encodeBool _ _ => true
  | .stopEncode => true
  | .startDecode _ _ => false
  | .decodeBool _ => false
  | .norm _ => false

/-- The command addresses the decoder context (rule R84). -/
def forDecoder : Instr → Bool
  | .startEncode _ _ => false
  | .encodeBool _ _ => false
  | .stopEncode => false
  | .startDecode _ _ => true
  | .decodeBool _ => true
  | .norm _ => false

/-! ## The exact interval (rules R122, R203, R205) -/

/-- The interval `[low, low + range)` in units of `2^-(8+shifts)`, in exact integers. -/
structure Interval where
  low : Nat
  range : Nat
  shifts : Nat
  deriving DecidableEq, Repr

/-- The initial interval (rule R121). -/
def Interval.initial : Interval := ⟨0, 255, 0⟩

/-- The number of leading zero bits of `r` written as an 8-bit number (rule R100). -/
def exactShift (r : Nat) : Nat := 7 - Nat.log2 r

/-- The interval after one bit: the lower part for a 0, the upper part for a 1, renormalized (rule R203). -/
def Interval.encode (i : Interval) (x : Bool × Byte) : Interval :=
  let split := exactSplit i.range x.2.toNat
  let low := if x.1 then i.low + split else i.low
  let range := if x.1 then i.range - split else split
  let k := exactShift range
  ⟨low * 2 ^ k, range * 2 ^ k, i.shifts + k⟩

/-- The final interval of a sequence of bits (rule R205). -/
def finalInterval (bits : List (Bool × Byte)) : Interval := bits.foldl Interval.encode Interval.initial

/-- The length of the stream of a sequence whose shifts sum to `n` (rule R135). -/
def streamLength (n : Nat) : Nat := 4 + (n - 16) / 8

/-- The number whose base-256 digits are the bytes, the most significant first (rule R62). -/
def bigEndian (bytes : List Byte) : Nat := bytes.foldl (fun n b => n * 256 + b.toNat) 0

/-! ## The encoder that patches memory backward (rule R134) -/

/-- Add 1 to the byte written last, and while that byte was `0xFF` go one address down and add 1 there;
the bytes written so far are listed last one first. -/
def patchCarry : List Byte → List Byte
  | [] => []
  | b :: bs => if b = 0xFF then 0x00 :: patchCarry bs else (b + 1) :: bs

/-- Write a finalized byte at once, after patching where a carry is pending. -/
def patchFinalize (b : Byte) (carry : Bool) (out : List Byte) : List Byte :=
  b :: (if carry then patchCarry out else out)

/-- Finalize the top byte of `low_value` the patching way. -/
def patchEmit (x : Encoder × List Byte) : Encoder × List Byte :=
  ({ x.1 with pendingCarry := false, lowValue := lowShifted x.1 }, patchFinalize (topByte x.1) x.1.pendingCarry x.2)

/-- `ENCODE_BOOL` the patching way, with no bound on the output. -/
def patchEncode (x : Encoder × List Byte) (b : Bool × Byte) : Encoder × List Byte :=
  let e := encodeInterval b.1 b.2 x.1
  if byteDue e then
    let y := patchEmit (e, x.2)
    ({ y.1 with bitCount := y.1.bitCount - 8 }, y.2)
  else (e, x.2)

/-- The whole stream of a sequence of bits the patching way, first byte first. -/
def patchStream (bits : List (Bool × Byte)) : List Byte :=
  (patchEmit (patchEmit (patchEmit (patchEmit (bits.foldl patchEncode (startedEncoder 0 0, [])))))).2.reverse

end Sys2Proof.Machine
end

