-- ==== Sys2Proof/Certificates/Slice0/Obligations.lean ====
section
/-! DEFINITION. The statements about the block, for the provers. -/

open Sys2Proof Sys2Proof.Machine

/-! ## Encoding (30_encoding.md) -/

/-- Rule R90: the worked encodings of commands and responses. -/
def Obligations.WorkedEncodings : Prop :=
  encode (.startEncode 0x1000 0x1010) = 0x0000000100000001010#76 ∧
  encode (.encodeBool true 128) = 0x3800000000000000000#76 ∧
  encode (.encodeBool false 128) = 0x2800000000000000000#76 ∧
  encode .stopEncode = 0x4000000000000000000#76 ∧
  encode (.startDecode 0x1000 4) = 0x6000000100000000004#76 ∧
  encode (.decodeBool 128) = 0x8800000000000000000#76 ∧
  encode (.norm 200) = 0xAC80000000000000000#76 ∧
  decode 0x0000000100000001010#76 = .ok (.startEncode 0x1000 0x1010) ∧
  decode 0x3800000000000000000#76 = .ok (.encodeBool true 128) ∧
  decode 0x2800000000000000000#76 = .ok (.encodeBool false 128) ∧
  decode 0x4000000000000000000#76 = .ok .stopEncode ∧
  decode 0x6000000100000000004#76 = .ok (.startDecode 0x1000 4) ∧
  decode 0x8800000000000000000#76 = .ok (.decodeBool 128) ∧
  decode 0xAC80000000000000000#76 = .ok (.norm 200) ∧
  (Response.mk .ok false 1).word = 0x000000001#36 ∧
  (Response.mk .ok true 0).word = 0x100000000#36 ∧
  (Response.mk .bufferOverflow false 0x1002).word = 0x200001002#36

/-- Rules R81, R84, R89: no bit of an operand is lost between the word and the command. -/
def Obligations.DecodeOfEncodeIsIdentity : Prop :=
  ∀ i : Instr, decode (encode i) = .ok i

/-- Rule R84 and spec/opcode_table.json: a word is the command of a row exactly when `w AND mask = match`; rule
R81: the operands are the fields, as numbers. -/
def Obligations.WordMatchesRowExactlyWhenDecoded : Prop :=
  ∀ w : CommandWord,
    (∀ i, decode w = .ok i → w &&& (opcodeRow i).mask = (opcodeRow i).pattern) ∧
    (w &&& 0xE000000000000000000#76 = 0x0000000000000000000#76 →
      decode w = .ok (.startEncode (BitVec.ofNat 32 (w.toNat / 2 ^ 32)) (BitVec.ofNat 32 w.toNat))) ∧
    (w &&& 0xE000000000000000000#76 = 0x2000000000000000000#76 →
      decode w = .ok (.encodeBool (w.toNat / 2 ^ 72 % 2 == 1) (BitVec.ofNat 8 (w.toNat / 2 ^ 64)))) ∧
    (w &&& 0xE000000000000000000#76 = 0x4000000000000000000#76 → decode w = .ok .stopEncode) ∧
    (w &&& 0xE000000000000000000#76 = 0x6000000000000000000#76 →
      decode w = .ok (.startDecode (BitVec.ofNat 32 (w.toNat / 2 ^ 32)) (BitVec.ofNat 32 w.toNat))) ∧
    (w &&& 0xE000000000000000000#76 = 0x8000000000000000000#76 →
      decode w = .ok (.decodeBool (BitVec.ofNat 8 (w.toNat / 2 ^ 64)))) ∧
    (w &&& 0xE000000000000000000#76 = 0xA000000000000000000#76 →
      decode w = .ok (.norm (BitVec.ofNat 8 (w.toNat / 2 ^ 64))))

/-- Rule R83: a field the command does not use has no effect; two words that agree on `op` and on the used
fields are the same command, and do the same. -/
def Obligations.UnusedFieldsHaveNoEffect : Prop :=
  ∀ (w w' : CommandWord) (i : Instr), decode w = .ok i →
    w &&& (opcodeRow i).used = w' &&& (opcodeRow i).used →
    decode w' = .ok i ∧ ∀ s, runCommand w s = runCommand w' s

/-- Rule R85: the decoder is total, and refuses exactly the words whose `op` is `0b110` or `0b111`; such a word
changes no state, makes no memory access and is answered `ILLEGAL_OP` with `data = 0`. -/
def Obligations.ReservedOpcodesAreAnsweredIllegalOp : Prop :=
  ∀ (w : CommandWord) (s : State),
    ((∃ i, decode w = .ok i) ↔ w.toNat / 2 ^ 73 < 6) ∧
    (6 ≤ w.toNat / 2 ^ 73 → runCommand w s =
      .next { s with responses := s.responses ++ [⟨.illegalOp, s.dec.exhausted, 0⟩] })

/-- Rules R82, R223: a call becomes a command exactly when each operand fits its field, and then the operands
are the numbers as they stand; nothing out of range is reduced. -/
def Obligations.OutOfRangeOperandsAreRefused : Prop :=
  (∀ c : Call, c.wf = false → c.toInstr = none) ∧
  (∀ c : Call, c.wf = true → ∃ i : Instr, c.toInstr = some i ∧ i.toCall = c) ∧
  (∀ b p : Nat, (Call.encodeBool b p).wf = true ↔ b ≤ 1 ∧ p ≤ 255) ∧
  (∀ p : Nat, (Call.decodeBool p).wf = true ↔ p ≤ 255) ∧
  (∀ r : Nat, (Call.norm r).wf = true ↔ r ≤ 255)

/-- Rule R86: every command is answered by one response, and its word is
`status ‖ exhausted ‖ data`, `exhausted` being `dec.exhausted` after the command. -/
def Obligations.EveryCommandIsAnsweredByOneResponse : Prop :=
  (∀ (w : CommandWord) (rest : List HostAction) (s : State), s.host = .command w :: rest →
    ∃ t r, step s = .next t ∧ t.responses = s.responses ++ [r] ∧ r.exhausted = t.dec.exhausted ∧ t.host = rest) ∧
  (∀ r : Response,
    r.word.toNat / 2 ^ 33 = r.status.code.toNat ∧
    r.word.toNat / 2 ^ 32 % 2 = r.exhausted.toNat ∧
    r.word.toNat % 2 ^ 32 = r.data.toNat)

/-! ## A step (00_scope.md R14, 20_memory.md R69, 70_reset_and_hazards.md R250) -/

/-- Rules R14, R22: a step whose action is a command word runs exactly the command the word decodes to, once
the action has left the script. -/
def Obligations.StepRunsTheDecodedCommand : Prop :=
  (∀ (w : CommandWord) (i : Instr) (rest : List HostAction) (s : State),
    s.host = .command w :: rest → decode w = .ok i → step s = exec i { s with host := rest }) ∧
  (∀ (nbits w : Nat) (i : Instr) (s : State),
    decodeTableWord nbits w = some i → step (s.withFetchWord nbits w) = exec i s)

/-- Rules R227, R234: with nothing issued the block is idle and keeps all its state. -/
def Obligations.IdleBlockKeepsItsState : Prop :=
  ∀ s : State, s.host = [] → step s = .next s

/-- Rules R65, R69 (d), U5: a host write between commands lands, and nothing else changes; a host read changes
nothing. -/
def Obligations.HostAccessBetweenCommandsIsPlainMemory : Prop :=
  (∀ (a : Word) (v : Byte) (rest : List HostAction) (s : State), Memory.wf s.mem = true →
    s.host = .access (.write a v) :: rest →
    ∃ t, step s = .next t ∧ t = { s with host := rest, mem := t.mem } ∧ memRead t a = v ∧
      ∀ b : Nat, b ≠ a.toNat → readMem t.mem b = readMem s.mem b) ∧
  (∀ (a : Word) (rest : List HostAction) (s : State), s.host = .access (.read a) :: rest →
    step s = .next { s with host := rest })

/-- Rule R250: after a reset between two commands both phases are `IDLE`, `dec.exhausted = 0`, memory is
untouched and no response is produced; nothing is said of the other registers. -/
def Obligations.ResetLeavesPhasesIdleAndMemoryUntouched : Prop :=
  (∀ (rest : List HostAction) (s : State), s.host = .reset :: rest →
    ∃ t, step s = .next t ∧ t.enc.phase = .idle ∧ t.dec.phase = .idle ∧ t.dec.exhausted = false ∧
      t.mem = s.mem ∧ t.responses = s.responses ∧ t.host = rest) ∧
  State.reset.enc.phase = .idle ∧ State.reset.dec.phase = .idle ∧ State.reset.dec.exhausted = false

/-- Rule R250: a command in flight at reset is abandoned: a prefix of its memory writes has been performed, every
other byte is as before the command, no response is produced, and the phases are as after any reset.  That the
bytes beyond the prefix are as before is the model's choice (log entry 8): U6 lets a model give any value to the
bytes of the output buffer at and above the last cursor the host knew. -/
def Obligations.ResetInFlightKeepsAPrefixOfTheWrites : Prop :=
  ∀ (w : CommandWord) (k : Nat) (rest : List HostAction) (s : State), Memory.wf s.mem = true →
    s.host = .resetDuring w k :: rest →
    ∃ t u n, step s = .next t ∧ runCommand w { s with host := rest } = .next u ∧
      n = min k (bytesWritten w s u) ∧
      t.enc.phase = .idle ∧ t.dec.phase = .idle ∧ t.dec.exhausted = false ∧
      t.responses = s.responses ∧ t.host = rest ∧
      (∀ a : Nat, s.enc.outputCursor.toNat ≤ a → a < s.enc.outputCursor.toNat + n →
        readMem t.mem a = readMem u.mem a) ∧
      (∀ a : Nat, a < s.enc.outputCursor.toNat ∨ s.enc.outputCursor.toNat + n ≤ a →
        readMem t.mem a = readMem s.mem a)

/-- Rule R69, D25, U4: a host access made while a command executes has no outcome where the command reads or
writes the address, or where the address lies in a live buffer: the output buffer of a stream in progress, or
the input buffer of a decoding in progress, before or after the command; an access to any other address is an
access to plain memory.  That the model stops there with a fault is the model's choice (log entry 7), and so is
when a buffer counts as live (log entry 14). -/
def Obligations.HostAccessRaceHasNoOutcome : Prop :=
  ∀ (w : CommandWord) (x : HostAccess) (rest : List HostAction) (s u : State),
    s.host = .commandWithAccess w x :: rest → runCommand w { s with host := rest } = .next u →
    (touches w s u x.addr = true → step s = .fault (.hostAccessRace x.addr)) ∧
    (∀ v : State, v = s ∨ v = u →
      (v.enc.phase = .active → v.streamStart.toNat ≤ x.addr.toNat → x.addr.toNat < v.enc.outputEnd.toNat →
        step s = .fault (.hostAccessRace x.addr)) ∧
      (∀ j : Nat, v.dec.phase = .active → j < v.dec.inputEnd.toNat →
        x.addr.toNat = (v.dec.inputBase.toNat + j) % 2 ^ 32 → step s = .fault (.hostAccessRace x.addr))) ∧
    (touches w s u x.addr = false →
      (∀ v : State, v = s ∨ v = u →
        (v.enc.phase = .active → v.streamStart.toNat ≤ x.addr.toNat → v.enc.outputEnd.toNat ≤ x.addr.toNat) ∧
        (v.dec.phase = .active → ∀ j : Nat, j < v.dec.inputEnd.toNat →
          x.addr.toNat ≠ (v.dec.inputBase.toNat + j) % 2 ^ 32)) →
      step s = .next (hostAccess x u))

/-! ## Normalization and split (40_normalization.md) -/

/-- Rules R100, R107: `NORM r` answers the unique `k` with `(r << k)` in `[128,255]`, or `ILLEGAL_OPERAND` for 0,
and changes no register and no byte. -/
def Obligations.NormAnswersTheNormalizingShift : Prop :=
  (∀ (r : Byte) (k : Nat) (s : State), Normalizes r.toNat k →
    exec (.norm r) s =
      .next { s with responses := s.responses ++ [⟨.ok, s.dec.exhausted, BitVec.ofNat 32 k⟩] }) ∧
  (∀ r : Byte, r ≠ 0 → ∃ k, k ≤ 7 ∧ Normalizes r.toNat k) ∧
  (∀ s : State, exec (.norm 0) s =
    .next { s with responses := s.responses ++ [⟨.illegalOperand, s.dec.exhausted, 0⟩] })

/-- Rules R104, R105, R106: the value of `split_of` and its bounds, under which neither part of the interval is
empty, and its values at the probabilities 0, 255 and 128. -/
def Obligations.SplitLeavesNeitherPartEmpty : Prop :=
  ∀ r p : Byte, 2 ≤ r.toNat →
    (splitOf r p).toNat = 1 + (r.toNat - 1) * p.toNat / 2 ^ 8 ∧
    1 ≤ (splitOf r p).toNat ∧ (splitOf r p).toNat ≤ r.toNat - 1 ∧
    splitOf r 0 = 1 ∧ splitOf r 255 = r - 1 ∧ (splitOf r 128).toNat = 1 + (r.toNat - 1) / 2

/-! ## The encoder (41_encoder.md) -/

/-- Rule R121: `START_ENCODE` creates the encoder context in every phase; the decoder and memory are
untouched.  That `buffer_start` is noted beside the block is the model's choice (log entry 14). -/
def Obligations.StartEncodeCreatesTheEncoderContext : Prop :=
  ∀ (a b : Word) (s : State),
    exec (.startEncode a b) s = .next
      { s with
        enc := { range := 255, lowValue := 0, bitCount := BitVec.ofInt 6 (-24), pendingCarry := false,
                 pendingValid := false, pendingByte := 0, run := 0, outputCursor := a, outputEnd := b,
                 phase := .active }
        streamStart := a
        responses := s.responses ++ [⟨.ok, s.dec.exhausted, 0⟩] }

/-- Rule R123: an `ENCODE_BOOL` after whose shift `bit_count` is still negative narrows the interval and does
nothing else. -/
def Obligations.EncodeBoolWithoutByteNarrowsTheInterval : Prop :=
  ∀ (bit : Bool) (p : Byte) (k : Nat) (s : State), s.enc.phase = .active → 2 ≤ s.enc.range.toNat →
    -24 ≤ s.enc.bitCount.toInt → Normalizes (selectedRange bit s.enc.range.toNat p.toNat) k →
    s.enc.bitCount.toInt + k < 0 →
    exec (.encodeBool bit p) s = .next
      { s with
        enc := encodedInterval bit p k s.enc
        responses := s.responses ++ [⟨.ok, s.dec.exhausted, 0⟩] }

/-- Rules R123, R130 (A) and (C): a byte that becomes due and starts or extends the held bytes. -/
def Obligations.EncodeBoolHoldsAByteThatACarryCanReach : Prop :=
  ∀ (bit : Bool) (p : Byte) (k : Nat) (s : State) (e : Encoder), s.enc.phase = .active → 2 ≤ s.enc.range.toNat →
    -24 ≤ s.enc.bitCount.toInt → s.enc.bitCount.toInt < 0 →
    Normalizes (selectedRange bit s.enc.range.toNat p.toNat) k → 0 ≤ s.enc.bitCount.toInt + k →
    e = encodedInterval bit p k s.enc →
    (e.pendingValid = false →
      exec (.encodeBool bit p) s = .next
        { s with
          enc := { byteRemoved e with
            pendingByte := BitVec.ofNat 8 (e.lowValue.toNat / 2 ^ 24), pendingValid := true, pendingCarry := false }
          responses := s.responses ++ [⟨.ok, s.dec.exhausted, 0⟩] }) ∧
    (e.pendingValid = true → e.pendingCarry = false → e.lowValue.toNat / 2 ^ 24 = 255 → e.run.toNat < 2 ^ 32 - 1 →
      exec (.encodeBool bit p) s = .next
        { s with
          enc := { byteRemoved e with run := e.run + 1 }
          responses := s.responses ++ [⟨.ok, s.dec.exhausted, 0⟩] })

/-- Rules R123, R130 (B) and (D), R131: a byte that becomes due and lets the held ones go, where they fit the
buffer: the pending byte and the run are stored from the cursor upwards, a pending carry added in. -/
def Obligations.EncodeBoolReleasesTheHeldBytes : Prop :=
  ∀ (bit : Bool) (p : Byte) (k : Nat) (s : State) (e : Encoder), s.enc.phase = .active → 2 ≤ s.enc.range.toNat →
    -24 ≤ s.enc.bitCount.toInt → s.enc.bitCount.toInt < 0 →
    Normalizes (selectedRange bit s.enc.range.toNat p.toNat) k → 0 ≤ s.enc.bitCount.toInt + k →
    e = encodedInterval bit p k s.enc → e.pendingValid = true →
    (e.pendingCarry = true ∨ e.lowValue.toNat / 2 ^ 24 ≠ 255) → 1 + e.run.toNat ≤ room s.enc →
    exec (.encodeBool bit p) s = .next
      { s with
        enc := { byteRemoved e with
          pendingByte := BitVec.ofNat 8 (e.lowValue.toNat / 2 ^ 24), pendingCarry := false, run := 0,
          outputCursor := s.enc.outputCursor + 1 + e.run }
        mem := storeBytes s.mem s.enc.outputCursor.toNat
          (if e.pendingCarry then (e.pendingByte + 1) :: List.replicate e.run.toNat 0x00
           else e.pendingByte :: List.replicate e.run.toNat 0xFF)
        responses := s.responses ++ [⟨.ok, s.dec.exhausted, 0⟩] }

/-- Rules R131, R136, R221: where the held bytes do not fit, those that fit are stored, the command stops at
the refused write and is answered with its address, and the encoder is in `FAULT`; nothing is said of the
registers that rule R136 leaves unspecified. -/
def Obligations.EncodeBoolOverflowStopsAtTheRefusedWrite : Prop :=
  ∀ (bit : Bool) (p : Byte) (k : Nat) (s : State) (e : Encoder), s.enc.phase = .active → 2 ≤ s.enc.range.toNat →
    -24 ≤ s.enc.bitCount.toInt → s.enc.bitCount.toInt < 0 →
    Normalizes (selectedRange bit s.enc.range.toNat p.toNat) k → 0 ≤ s.enc.bitCount.toInt + k →
    e = encodedInterval bit p k s.enc → e.pendingValid = true →
    (e.pendingCarry = true ∨ e.lowValue.toNat / 2 ^ 24 ≠ 255) → room s.enc < 1 + e.run.toNat →
    ∃ t, exec (.encodeBool bit p) s = .next t ∧ t.enc.phase = .fault ∧
      t.enc.outputCursor = s.enc.outputCursor + BitVec.ofNat 32 (room s.enc) ∧
      t.enc.outputEnd = s.enc.outputEnd ∧
      t.mem = storeBytes s.mem s.enc.outputCursor.toNat ((heldBytes e).take (room s.enc)) ∧
      t.dec = s.dec ∧ t.host = s.host ∧
      t.responses = s.responses ++ [⟨.bufferOverflow, s.dec.exhausted, t.enc.outputCursor⟩]

/-- Rules R130 (C), R221: a run that the counter cannot count further overflows instead of wrapping, in
`ENCODE_BOOL` and in `STOP_ENCODE`, and nothing is written.  That the cursor stays where it is and is answered as
it is, although R88 and R136 say that it equals `output_end`, is the model's choice (log entry 13). -/
def Obligations.RunCounterOverflowsInsteadOfWrapping : Prop :=
  (∀ (bit : Bool) (p : Byte) (k : Nat) (s : State) (e : Encoder), s.enc.phase = .active → 2 ≤ s.enc.range.toNat →
    -24 ≤ s.enc.bitCount.toInt → s.enc.bitCount.toInt < 0 →
    Normalizes (selectedRange bit s.enc.range.toNat p.toNat) k → 0 ≤ s.enc.bitCount.toInt + k →
    e = encodedInterval bit p k s.enc → e.pendingValid = true → e.pendingCarry = false →
    e.lowValue.toNat / 2 ^ 24 = 255 → e.run.toNat = 2 ^ 32 - 1 →
    ∃ t, exec (.encodeBool bit p) s = .next t ∧ t.enc.phase = .fault ∧
      t.enc.outputCursor = s.enc.outputCursor ∧ t.enc.outputEnd = s.enc.outputEnd ∧ t.mem = s.mem ∧
      t.dec = s.dec ∧ t.host = s.host ∧
      t.responses = s.responses ++ [⟨.bufferOverflow, s.dec.exhausted, s.enc.outputCursor⟩]) ∧
  (∀ s : State, s.enc.phase = .active → stopOverflowsRun s.enc = true →
    ∃ t, exec .stopEncode s = .next t ∧ t.enc.phase = .fault ∧
      t.enc.outputCursor = s.enc.outputCursor ∧ t.enc.outputEnd = s.enc.outputEnd ∧ t.mem = s.mem ∧
      t.dec = s.dec ∧ t.host = s.host ∧
      t.responses = s.responses ++ [⟨.bufferOverflow, s.dec.exhausted, s.enc.outputCursor⟩])

/-- Rules R132, R133: a `STOP_ENCODE` whose bytes fit the buffer stores the held bytes, a pending carry added
in, and the four bytes of `low_value`, and answers with the address one past the stream. -/
def Obligations.StopEncodeStoresTheRestOfTheStream : Prop :=
  ∀ s : State, s.enc.phase = .active → (s.enc.pendingValid = false → s.enc.run = 0) →
    (stopReleases s.enc).length ≤ room s.enc →
    exec .stopEncode s = .next
      { s with
        enc := { s.enc with
          lowValue := 0, pendingCarry := false, pendingValid := false, run := 0,
          pendingByte := lastPending s.enc,
          outputCursor := s.enc.outputCursor + BitVec.ofNat 32 (stopReleases s.enc).length
          phase := .done }
        mem := storeBytes s.mem s.enc.outputCursor.toNat (stopReleases s.enc)
        responses := s.responses ++
          [⟨.ok, s.dec.exhausted, s.enc.outputCursor + BitVec.ofNat 32 (stopReleases s.enc).length⟩] }

/-- Rules R131, R133, R136: a `STOP_ENCODE` whose bytes do not fit stores those that fit and stops at the
refused write. -/
def Obligations.StopEncodeOverflowStopsAtTheRefusedWrite : Prop :=
  ∀ s : State, s.enc.phase = .active → (s.enc.pendingValid = false → s.enc.run = 0) →
    stopOverflowsRun s.enc = false → room s.enc < (stopReleases s.enc).length →
    ∃ t, exec .stopEncode s = .next t ∧ t.enc.phase = .fault ∧
      t.enc.outputCursor = s.enc.outputCursor + BitVec.ofNat 32 (room s.enc) ∧
      t.enc.outputEnd = s.enc.outputEnd ∧
      t.mem = storeBytes s.mem s.enc.outputCursor.toNat ((stopReleases s.enc).take (room s.enc)) ∧
      t.dec = s.dec ∧ t.host = s.host ∧
      t.responses = s.responses ++ [⟨.bufferOverflow, s.dec.exhausted, t.enc.outputCursor⟩]

/-! ## The decoder (42_decoder.md) -/

/-- Rule R161: `START_DECODE` creates the decoder context in every phase; the encoder and memory are
untouched. -/
def Obligations.StartDecodeCreatesTheDecoderContext : Prop :=
  ∀ (a n : Word) (s : State),
    exec (.startDecode a n) s = .next
      { s with
        dec := { range := 255, value := 0, bitCount := BitVec.ofInt 5 (-8), exhausted := false, phase := .active,
                 inputBase := a, inputCursor := 0, inputEnd := n }
        responses := s.responses ++ [⟨.ok, false, 0⟩] }

/-- Rules R162, R163: `DECODE_BOOL` where 8 valid bits are left after the shift: the bit, the range and the
window, and no byte is read. -/
def Obligations.DecodeBoolWithoutRefill : Prop :=
  ∀ (p : Byte) (k : Nat) (s : State), s.dec.phase = .active → 2 ≤ s.dec.range.toNat →
    (k : Int) ≤ s.dec.bitCount.toInt → s.dec.bitCount.toInt ≤ 7 →
    Normalizes (selectedRange (decodedBit p s.dec) s.dec.range.toNat p.toNat) k →
    exec (.decodeBool p) s = .next
      { s with
        dec := { s.dec with
          range := decodedRange p k s.dec, value := decodedValue p k s.dec,
          bitCount := BitVec.ofInt 5 (s.dec.bitCount.toInt - k) }
        responses := s.responses ++ [⟨.ok, s.dec.exhausted, if decodedBit p s.dec then 1 else 0⟩] }

/-- Rules R163, R165, R166: `DECODE_BOOL` that leaves fewer than 8 valid bits takes one byte, the next of the
input or a zero byte at its end, and puts it directly below the valid bits. -/
def Obligations.DecodeBoolRefillsBelowTheValidBits : Prop :=
  ∀ (p : Byte) (k : Nat) (s : State), s.dec.phase = .active → 2 ≤ s.dec.range.toNat →
    0 ≤ s.dec.bitCount.toInt → s.dec.bitCount.toInt < k → s.dec.bitCount.toInt ≤ 7 →
    Normalizes (selectedRange (decodedBit p s.dec) s.dec.range.toNat p.toNat) k →
    exec (.decodeBool p) s = .next
      { s with
        dec := { inputTaken s.dec with
          range := decodedRange p k s.dec
          value := decodedValue p k s.dec |||
            BitVec.ofNat 32 ((inputByte s.mem s.dec).toNat * 2 ^ (16 + k - s.dec.bitCount.toInt).toNat)
          bitCount := BitVec.ofInt 5 (s.dec.bitCount.toInt - k + 8) }
        responses := s.responses ++
          [⟨.ok, (inputTaken s.dec).exhausted, if decodedBit p s.dec then 1 else 0⟩] }

/-- Rules R163 step 1, R165: the first `DECODE_BOOL` after `START_DECODE` loads one byte and then decodes as any
later one. -/
def Obligations.FirstDecodeBoolLoadsOneByteFirst : Prop :=
  ∀ (p : Byte) (s : State), s.dec.phase = .active → s.dec.bitCount.toInt = -8 → s.dec.value = 0 →
    exec (.decodeBool p) s = exec (.decodeBool p)
      { s with
        dec := { inputTaken s.dec with
          value := BitVec.ofNat 32 ((inputByte s.mem s.dec).toNat * 2 ^ 24), bitCount := 0 } }

/-- Rule R167: the decoder is total: for every content of memory, every length and every probability, a
`DECODE_BOOL` in `ACTIVE` completes with `OK` and a bit, and leaves `range` in `[128,255]` and `bit_count` in
`[0,7]`; so it does in every later state of the decoding. -/
def Obligations.EveryDecodeBoolCompletes : Prop :=
  ∀ (p : Byte) (s : State), s.dec.phase = .active → DecInv s.dec →
    ∃ t bit, exec (.decodeBool p) s = .next t ∧ (bit = 0 ∨ bit = 1) ∧
      t.responses = s.responses ++ [⟨.ok, t.dec.exhausted, bit⟩] ∧ t.dec.phase = .active ∧ DecInv t.dec ∧
      128 ≤ t.dec.range.toNat ∧ 0 ≤ t.dec.bitCount.toInt ∧ t.dec.bitCount.toInt ≤ 7

/-- Rules R64, R65, R67, R166, R270: a `DECODE_BOOL` reads the bytes its cursor passes and no others: at most two,
at most one but for the first after `START_DECODE`, none at or beyond index `input_end`. -/
def Obligations.DecodeBoolReadsTheBytesItsCursorPasses : Prop :=
  ∀ (p : Byte) (s t : State), s.dec.phase = .active → DecInv s.dec → exec (.decodeBool p) s = .next t →
    s.dec.inputCursor.toNat ≤ t.dec.inputCursor.toNat ∧
    t.dec.inputCursor.toNat ≤ s.dec.inputCursor.toNat + 2 ∧
    (0 ≤ s.dec.bitCount.toInt → t.dec.inputCursor.toNat ≤ s.dec.inputCursor.toNat + 1) ∧
    t.dec.inputCursor.toNat ≤ s.dec.inputEnd.toNat ∧
    (t.dec.inputBase = s.dec.inputBase ∧ t.dec.inputEnd = s.dec.inputEnd) ∧
    ∀ s' : State, s'.dec = s.dec →
      (∀ j : Nat, s.dec.inputCursor.toNat ≤ j → j < t.dec.inputCursor.toNat →
        readMem s'.mem ((s.dec.inputBase.toNat + j) % 2 ^ 32) =
          readMem s.mem ((s.dec.inputBase.toNat + j) % 2 ^ 32)) →
      ∃ t' r, exec (.decodeBool p) s' = .next t' ∧ t'.dec = t.dec ∧
        t.responses = s.responses ++ [r] ∧ t'.responses = s'.responses ++ [r]

/-! ## Faults and phases (60_exceptions.md) -/

/-- Rule R224: out of sequence, `ENCODE_BOOL`, `STOP_ENCODE` and `DECODE_BOOL` are answered `SEQUENCE_ERROR`, with
no register changed and no memory access. -/
def Obligations.OutOfSequenceCommandsAreRefused : Prop :=
  ∀ s : State,
    (s.enc.phase = .idle ∨ s.enc.phase = .done → ∀ (bit : Bool) (p : Byte),
      exec (.encodeBool bit p) s =
        .next { s with responses := s.responses ++ [⟨.sequenceError, s.dec.exhausted, 0⟩] } ∧
      exec .stopEncode s =
        .next { s with responses := s.responses ++ [⟨.sequenceError, s.dec.exhausted, 0⟩] }) ∧
    (s.dec.phase = .idle → ∀ p : Byte,
      exec (.decodeBool p) s =
        .next { s with responses := s.responses ++ [⟨.sequenceError, s.dec.exhausted, 0⟩] })

/-- Rules R221, R230: in `FAULT` every later `ENCODE_BOOL` or `STOP_ENCODE` answers `BUFFER_OVERFLOW` with the
cursor again and changes nothing, and a step leaves `FAULT` only by `START_ENCODE` or reset. -/
def Obligations.FaultPhaseIsSticky : Prop :=
  (∀ (bit : Bool) (p : Byte) (s : State), s.enc.phase = .fault →
    exec (.encodeBool bit p) s =
      .next { s with responses := s.responses ++ [⟨.bufferOverflow, s.dec.exhausted, s.enc.outputCursor⟩] } ∧
    exec .stopEncode s =
      .next { s with responses := s.responses ++ [⟨.bufferOverflow, s.dec.exhausted, s.enc.outputCursor⟩] }) ∧
  (∀ s t : State, s.enc.phase = .fault → step s = .next t → t.enc.phase ≠ .fault →
    (∃ rest, s.host = .reset :: rest) ∨ (∃ w k rest, s.host = .resetDuring w k :: rest) ∨
    (∃ w a b rest, decode w = .ok (.startEncode a b) ∧
      (s.host = .command w :: rest ∨ ∃ x, s.host = .commandWithAccess w x :: rest)))

/-- Rule R233: the phase transitions of both contexts, with the status answered, and reset. -/
def Obligations.PhaseTransitions : Prop :=
  (∀ (w : CommandWord) (s : State), ∃ t r, runCommand w s = .next t ∧ t.responses = s.responses ++ [r] ∧
    match decode w with
    | .ok (.startEncode _ _) => r.status = .ok ∧ t.enc.phase = .active ∧ t.dec.phase = s.dec.phase
    | .ok (.encodeBool _ _) => t.dec.phase = s.dec.phase ∧
      match s.enc.phase with
      | .idle => r.status = .sequenceError ∧ t.enc.phase = .idle
      | .active => (r.status = .ok ∧ t.enc.phase = .active) ∨ (r.status = .bufferOverflow ∧ t.enc.phase = .fault)
      | .done => r.status = .sequenceError ∧ t.enc.phase = .done
      | .fault => r.status = .bufferOverflow ∧ t.enc.phase = .fault
    | .ok .stopEncode => t.dec.phase = s.dec.phase ∧
      match s.enc.phase with
      | .idle => r.status = .sequenceError ∧ t.enc.phase = .idle
      | .active => (r.status = .ok ∧ t.enc.phase = .done) ∨ (r.status = .bufferOverflow ∧ t.enc.phase = .fault)
      | .done => r.status = .sequenceError ∧ t.enc.phase = .done
      | .fault => r.status = .bufferOverflow ∧ t.enc.phase = .fault
    | .ok (.startDecode _ _) => r.status = .ok ∧ t.dec.phase = .active ∧ t.enc.phase = s.enc.phase
    | .ok (.decodeBool _) => t.enc.phase = s.enc.phase ∧
      match s.dec.phase with
      | .idle => r.status = .sequenceError ∧ t.dec.phase = .idle
      | .active => r.status = .ok ∧ t.dec.phase = .active
    | .ok (.norm _) => t.enc.phase = s.enc.phase ∧ t.dec.phase = s.dec.phase
    | .error _ => t.enc.phase = s.enc.phase ∧ t.dec.phase = s.dec.phase) ∧
  (∀ s : State, (resetBlock s).enc.phase = .idle ∧ (resetBlock s).dec.phase = .idle)

/-- Rule R228: a command reports exactly one status, and the first check that applies decides it. -/
def Obligations.FirstApplicableCheckDecidesTheStatus : Prop :=
  ∀ (w : CommandWord) (s t : State), runCommand w s = .next t →
    ∃ r, t.responses = s.responses ++ [r] ∧
      match decode w with
      | .error _ => r.status = .illegalOp
      | .ok i =>
        if (i = .stopEncode ∨ ∃ b p, i = .encodeBool b p) ∧ s.enc.phase = .fault then r.status = .bufferOverflow
        else if (i = .stopEncode ∨ ∃ b p, i = .encodeBool b p) ∧ s.enc.phase ≠ .active then
          r.status = .sequenceError
        else if (∃ p, i = .decodeBool p) ∧ s.dec.phase ≠ .active then r.status = .sequenceError
        else if i = .norm 0 then r.status = .illegalOperand
        else if i = .stopEncode ∨ ∃ b p, i = .encodeBool b p then r.status = .ok ∨ r.status = .bufferOverflow
        else r.status = .ok

/-- Rule R88: the `data` field of every response. -/
def Obligations.DataFieldOfEveryResponse : Prop :=
  ∀ (w : CommandWord) (s t : State), runCommand w s = .next t →
    ∃ r, t.responses = s.responses ++ [r] ∧
      (r.status = .bufferOverflow → r.data = t.enc.outputCursor) ∧
      (r.status ≠ .ok → r.status ≠ .bufferOverflow → r.data = 0) ∧
      (r.status = .ok →
        match decode w with
        | .ok (.startEncode _ _) => r.data = 0
        | .ok (.encodeBool _ _) => r.data = 0
        | .ok .stopEncode => r.data = t.enc.outputCursor
        | .ok (.startDecode _ _) => r.data = 0
        | .ok (.decodeBool _) => r.data = 0 ∨ r.data = 1
        | .ok (.norm x) => Normalizes x.toNat r.data.toNat
        | .error _ => False)

/-- Rules R43, R166: `dec.exhausted` stays 1 until `START_DECODE` or reset. -/
def Obligations.ExhaustedFlagIsSticky : Prop :=
  ∀ s t : State, s.dec.exhausted = true → step s = .next t → t.dec.exhausted = false →
    (∃ rest, s.host = .reset :: rest) ∨ (∃ w k rest, s.host = .resetDuring w k :: rest) ∨
    (∃ w a n rest, decode w = .ok (.startDecode a n) ∧
      (s.host = .command w :: rest ∨ ∃ x, s.host = .commandWithAccess w x :: rest))

/-! ## Frames (00_scope.md R12, 20_memory.md R60, R64, R65, R71, 43_contract.md R204) -/

/-- Rules R20, R60, R204: no encoder command changes a decoder register; no decoder command and no `NORM` changes
an encoder register or a byte of memory; and what a decoder command answers depends on the decoder registers and
the bytes it reads alone. -/
def Obligations.ContextsAreIndependent : Prop :=
  (∀ (i : Instr) (s t : State), exec i s = .next t →
    t.host = s.host ∧
    (forEncoder i = true → t.dec = s.dec) ∧
    (forDecoder i = true → t.enc = s.enc ∧ t.mem = s.mem ∧ t.streamStart = s.streamStart ∧ t.freeCount = s.freeCount) ∧
    (forEncoder i = false → forDecoder i = false → t = { s with responses := t.responses })) ∧
  (∀ (i : Instr) (s s' t t' : State), forDecoder i = true → s.dec = s'.dec →
    (∀ j : Nat, j < 2 → readMem s.mem (readAddress s.dec + BitVec.ofNat 32 j).toNat =
      readMem s'.mem (readAddress s.dec + BitVec.ofNat 32 j).toNat) →
    exec i s = .next t → exec i s' = .next t' →
    t.dec = t'.dec ∧ ∃ r, t.responses = s.responses ++ [r] ∧ t'.responses = s'.responses ++ [r])

/-- Rules R192, R204: what an encoder command does is a function of the encoder registers and the command (and,
for the registers rule R136 leaves unspecified, of the model's counter of free values): the registers, the answer
and the bytes written are the same whatever the decoder and the memory hold. -/
def Obligations.EncoderDependsOnItsOwnRegistersAlone : Prop :=
  ∀ (i : Instr) (s s' t t' : State), forEncoder i = true → s.enc = s'.enc → s.freeCount = s'.freeCount →
    Memory.wf s.mem = true → Memory.wf s'.mem = true →
    exec i s = .next t → exec i s' = .next t' →
    t.enc = t'.enc ∧
    (∃ r r', t.responses = s.responses ++ [r] ∧ t'.responses = s'.responses ++ [r'] ∧
      r.status = r'.status ∧ r.data = r'.data) ∧
    ∀ a : Nat, readMem t.mem a = readMem t'.mem a ∨
      (readMem t.mem a = readMem s.mem a ∧ readMem t'.mem a = readMem s'.mem a)

/-- Rules R64, R130, R131: `ENCODE_BOOL` in `ACTIVE` stores the bytes it releases, as many as fit, from the cursor
upwards, and no other byte of memory changes. -/
def Obligations.EncodeBoolStoresOnlyTheReleasedBytes : Prop :=
  ∀ (bit : Bool) (p : Byte) (s t : State) (n : Nat), s.enc.phase = .active →
    exec (.encodeBool bit p) s = .next t → n = min (encodeReleases bit p s.enc).length (room s.enc) →
    t.enc.outputCursor.toNat = s.enc.outputCursor.toNat + n ∧ t.enc.outputEnd = s.enc.outputEnd ∧
    (∀ a : Nat, a < s.enc.outputCursor.toNat ∨ s.enc.outputCursor.toNat + n ≤ a →
      readMem t.mem a = readMem s.mem a) ∧
    (Memory.wf s.mem = true →
      bytesAt t.mem s.enc.outputCursor.toNat n = (encodeReleases bit p s.enc).take n)

/-- Rules R64, R131, R133: `STOP_ENCODE` in `ACTIVE` stores the bytes it releases, as many as fit, from the cursor
upwards, and no other byte of memory changes. -/
def Obligations.StopEncodeStoresOnlyTheReleasedBytes : Prop :=
  ∀ (s t : State) (n : Nat), s.enc.phase = .active → (s.enc.pendingValid = false → s.enc.run = 0) →
    stopOverflowsRun s.enc = false → exec .stopEncode s = .next t →
    n = min (stopReleases s.enc).length (room s.enc) →
    t.enc.outputCursor.toNat = s.enc.outputCursor.toNat + n ∧ t.enc.outputEnd = s.enc.outputEnd ∧
    (∀ a : Nat, a < s.enc.outputCursor.toNat ∨ s.enc.outputCursor.toNat + n ≤ a →
      readMem t.mem a = readMem s.mem a) ∧
    (Memory.wf s.mem = true → bytesAt t.mem s.enc.outputCursor.toNat n = (stopReleases s.enc).take n)

/-- Rules R65, R71, R131: in every state, no command stores a byte at `enc.output_end` or above, or below
`enc.output_cursor`, or anywhere else unless it is `ENCODE_BOOL` or `STOP_ENCODE` in `ACTIVE`. -/
def Obligations.NoByteOutsideTheBufferIsEverWritten : Prop :=
  ∀ (i : Instr) (s t : State) (a : Nat), exec i s = .next t →
    (s.enc.outputEnd.toNat ≤ a ∨ a < s.enc.outputCursor.toNat ∨ s.enc.phase ≠ .active ∨
      (i ≠ .stopEncode ∧ ∀ b p, i ≠ .encodeBool b p)) →
    readMem t.mem a = readMem s.mem a

/-! ## Invariants (43_contract.md R193, R195 to R198) -/

/-- Rule R193: `range` is in `[128,255]` after every encode and every decode step, in both components, and after
the two starts. -/
def Obligations.RangeIsNormalizedAfterEveryStep : Prop :=
  ∀ (i : Instr) (s t : State), exec i s = .next t →
    (s.enc.phase = .active → 128 ≤ s.enc.range.toNat) → (s.dec.phase = .active → 128 ≤ s.dec.range.toNat) →
    (t.enc.phase = .active → 128 ≤ t.enc.range.toNat) ∧ (t.dec.phase = .active → 128 ≤ t.dec.range.toNat)

/-- The state after reset meets the invariant of the machine (rules R55, R250). -/
def Obligations.ResetMeetsTheInvariant : Prop := State.reset.Inv

/-- Rules R193, R195 to R198, R42, R46, R162: every step, from every state that meets it, keeps the invariant: the
canonical form of memory, the ranges and counts, the zero bits of `low_value` and `value`, the carry invariant (a
second carry cannot come before the next byte, a pending byte is never `0xFF`), the cursors of both contexts. -/
def Obligations.EveryStepKeepsTheInvariant : Prop :=
  ∀ s t : State, s.Inv → step s = .next t → t.Inv

/-- Rules R197, R198: from a state that meets the invariant, an `ENCODE_BOOL` never carries while a carry is
pending or before the first byte, and a carry that meets a due byte meets the byte `0x00`. -/
def Obligations.ACarryNeverMeetsAnotherCarry : Prop :=
  ∀ (bit : Bool) (p : Byte) (e : Encoder), EncInv e →
    (2 ^ 32 ≤ exactSum bit p e → e.pendingCarry = false ∧ e.pendingValid = true) ∧
    ((encodeInterval bit p e).pendingCarry = true → topByte (encodeInterval bit p e) = 0 ∧
      (encodeInterval bit p e).lowValue.toNat < 2 ^ 16)

/-! ## The contract (43_contract.md, 41_encoder.md R134, R135) -/

/-- Rule R190: encoding then decoding, with the identical probabilities in the identical order, gives the bits
back, whatever the bits and the probabilities, 0 and 255 included; every response is `OK`, the input is never
exhausted (rule R166), and the decoder may run from any state whose memory holds the stream. -/
def Obligations.DecodingReproducesTheEncodedBits : Prop :=
  ∀ (bits : List (Bool × Byte)) (a b : Word) (s : State), Memory.wf s.mem = true → a.toNat ≤ b.toNat →
    4 + (7 * bits.length - 16) / 8 ≤ b.toNat - a.toNat →
    ∃ (t : State) (n : Word),
      runSteps (bits.length + 2) (s.issue (encodeProgram a b bits)) = .next t ∧
      t.responses = s.responses ++ List.replicate (bits.length + 1) ⟨.ok, s.dec.exhausted, 0⟩ ++
        [⟨.ok, s.dec.exhausted, a + n⟩] ∧
      n.toNat ≤ b.toNat - a.toNat ∧
      ∀ u : State, bytesAt u.mem a.toNat n.toNat = bytesAt t.mem a.toNat n.toNat →
        ∃ v : State,
          runSteps (bits.length + 1) (u.issue (decodeProgram a n (bits.map Prod.snd))) = .next v ∧
          v.responses = u.responses ++ ⟨.ok, false, 0⟩ ::
            bits.map fun x => ⟨.ok, false, if x.1 then 1 else 0⟩

/-- Rules R135, R205: after a `STOP_ENCODE` that answered `OK` the stream has `4 + max(0, floor((S - 16) / 8))`
bytes and is the exact binary expansion of the lower end of the final interval, its lowest bits zero. -/
def Obligations.StreamIsTheLowerEndOfTheFinalInterval : Prop :=
  ∀ (bits : List (Bool × Byte)) (a b : Word) (s t : State) (m pos : Nat), Memory.wf s.mem = true →
    runSteps (bits.length + 2) (s.issue (encodeProgram a b bits)) = .next t → t.enc.phase = .done →
    m = streamLength (finalInterval bits).shifts → pos = (-t.enc.bitCount.toInt).toNat →
    t.enc.outputCursor.toNat = a.toNat + m ∧ 1 ≤ pos ∧ pos ≤ 24 ∧ 8 * m = 8 + (finalInterval bits).shifts + pos ∧
    bigEndian (bytesAt t.mem a.toNat m) = (finalInterval bits).low * 2 ^ pos

/-- Rule R134: after a `STOP_ENCODE` that answered `OK`, the bytes in memory are exactly those of the encoder that
writes every finalized byte at once and patches carries backward. -/
def Obligations.DeferredWritesEqualBackwardPatching : Prop :=
  ∀ (bits : List (Bool × Byte)) (a b : Word) (s t : State), Memory.wf s.mem = true →
    runSteps (bits.length + 2) (s.issue (encodeProgram a b bits)) = .next t → t.enc.phase = .done →
    bytesAt t.mem a.toNat (t.enc.outputCursor - a).toNat = patchStream bits

/-- Rules R190, R204, R262: decoder commands and `NORM` commands interleaved anywhere among the commands of a
stream leave the encoder, the memory and the encoder's answers as they are without them. -/
def Obligations.InterleavedCommandsLeaveTheEncodingAlone : Prop :=
  ∀ (is : List Instr) (s t t' : State),
    runSteps is.length (s.issue is) = .next t →
    runSteps (is.filter forEncoder).length (s.issue (is.filter forEncoder)) = .next t' →
    t.enc = t'.enc ∧ t.mem = t'.mem ∧ t.streamStart = t'.streamStart ∧ t.freeCount = t'.freeCount ∧
    ((is.zip (t.responses.drop s.responses.length)).filter fun x => forEncoder x.1).map
        (fun x => (x.2.status, x.2.data)) =
      (t'.responses.drop s.responses.length).map fun r => (r.status, r.data)

/-! ## Live buffers (20_memory.md R69, R71) -/

/-- Rules R65, R69, R71: from a state that meets the invariant, every address a command reads or writes lies in a
buffer that is live when the command starts: the bytes written in the output buffer of the stream, at or above
the cursor; the bytes read in the input buffer of the decoding. -/
def Obligations.CommandsTouchLiveBuffersAlone : Prop :=
  ∀ (w : CommandWord) (s t : State) (a : Word), s.Inv → runCommand w s = .next t → touches w s t a = true →
    (s.enc.phase = .active ∧ s.streamStart.toNat ≤ s.enc.outputCursor.toNat ∧
      s.enc.outputCursor.toNat ≤ a.toNat ∧ a.toNat < s.enc.outputEnd.toNat) ∨
    (s.dec.phase = .active ∧ ∃ j : Nat, s.dec.inputCursor.toNat ≤ j ∧ j < s.dec.inputEnd.toNat ∧
      a.toNat = (s.dec.inputBase.toNat + j) % 2 ^ 32)
end

