-- ==== Sys2Proof/Laws/Memory.lean ====
section
/-! SUPPORT. The laws of memory: what a read after a write gives, and that every memory operation keeps the
canonical form, in which equal memories are equal lists (rules R60, R65). -/

namespace Sys2Proof.Machine

/-! ## Reading one byte -/

@[simp] theorem readMem_nil (a : Nat) : readMem [] a = Config.unlistedByte := rfl

theorem readMem_cons (b : Nat) (v : Byte) (m : Memory) (a : Nat) :
    readMem ((b, v) :: m) a = if a = b then v else readMem m a := rfl

/-- A memory all of whose addresses are above `a` reads as an unlisted byte at `a`. -/
theorem readMem_below {m : Memory} {lo a : Nat} (h : Memory.wfFrom lo m = true) (ha : a < lo) :
    readMem m a = Config.unlistedByte := by
  induction m generalizing lo with
  | nil => rfl
  | cons c m ih =>
    obtain ⟨b, v⟩ := c
    simp only [Memory.wfFrom, Bool.and_eq_true, decide_eq_true_eq] at h
    rw [readMem_cons, if_neg (by omega), ih h.2 (by omega)]

theorem readMem_consCell_other {a b : Nat} (v : Byte) (m : Memory) (h : b ≠ a) :
    readMem (consCell a v m) b = readMem m b := by
  unfold consCell
  split
  · rfl
  · rw [readMem_cons, if_neg h]

theorem readMem_consCell_same {a : Nat} {v : Byte} {m : Memory} (h : Memory.wfFrom (a + 1) m = true) :
    readMem (consCell a v m) a = v := by
  unfold consCell
  split
  · next hv => rw [readMem_below h (by omega), hv]
  · rw [readMem_cons, if_pos rfl]

/-! ## Read after write -/

/-- A write leaves every other byte alone, in every memory. -/
theorem readMem_writeMem_other {a b : Nat} (v : Byte) (m : Memory) (h : b ≠ a) :
    readMem (writeMem m a v) b = readMem m b := by
  induction m with
  | nil => exact readMem_consCell_other v [] h
  | cons c m ih =>
    obtain ⟨d, w⟩ := c
    simp only [writeMem]
    split
    · exact readMem_consCell_other v _ h
    · split
      · next had => rw [readMem_consCell_other v _ h, readMem_cons, if_neg (by omega)]
      · simp only [readMem_cons, ih]

theorem readMem_writeMem_same_from {m : Memory} {lo a : Nat} (v : Byte) (h : Memory.wfFrom lo m = true) :
    readMem (writeMem m a v) a = v := by
  induction m generalizing lo with
  | nil => exact readMem_consCell_same (m := []) rfl
  | cons c m ih =>
    obtain ⟨d, w⟩ := c
    simp only [Memory.wfFrom, Bool.and_eq_true, decide_eq_true_eq] at h
    simp only [writeMem]
    split
    · apply readMem_consCell_same
      simp only [Memory.wfFrom, Bool.and_eq_true, decide_eq_true_eq]
      exact ⟨⟨⟨by omega, h.1.1.2⟩, h.1.2⟩, h.2⟩
    · split
      · next had => subst had; exact readMem_consCell_same h.2
      · next had => rw [readMem_cons, if_neg had]; exact ih h.2

/-- A read after a write to the same address gives the value written. -/
theorem readMem_writeMem_same {m : Memory} (a : Nat) (v : Byte) (h : Memory.wf m = true) :
    readMem (writeMem m a v) a = v := readMem_writeMem_same_from v h

/-! ## The canonical form is kept -/

theorem wfFrom_mono {m : Memory} {lo lo' : Nat} (h : Memory.wfFrom lo m = true) (hlo : lo' ≤ lo) :
    Memory.wfFrom lo' m = true := by
  cases m with
  | nil => rfl
  | cons c m =>
    obtain ⟨b, v⟩ := c
    simp only [Memory.wfFrom, Bool.and_eq_true, decide_eq_true_eq] at h ⊢
    exact ⟨⟨⟨by omega, h.1.1.2⟩, h.1.2⟩, h.2⟩

theorem wfFrom_consCell {m : Memory} {lo a : Nat} (v : Byte) (h : Memory.wfFrom (a + 1) m = true) (hlo : lo ≤ a)
    (ha : a < 2 ^ 32) : Memory.wfFrom lo (consCell a v m) = true := by
  unfold consCell
  split
  · exact wfFrom_mono h (by omega)
  · next hv =>
    simp only [Memory.wfFrom, Bool.and_eq_true, decide_eq_true_eq, bne_iff_ne]
    exact ⟨⟨⟨hlo, ha⟩, hv⟩, h⟩

theorem wfFrom_writeMem {m : Memory} {lo a : Nat} (v : Byte) (h : Memory.wfFrom lo m = true) (hlo : lo ≤ a)
    (ha : a < 2 ^ 32) : Memory.wfFrom lo (writeMem m a v) = true := by
  induction m generalizing lo with
  | nil => exact wfFrom_consCell v rfl hlo ha
  | cons c m ih =>
    obtain ⟨b, w⟩ := c
    have h' := h
    simp only [Memory.wfFrom, Bool.and_eq_true, decide_eq_true_eq] at h
    simp only [writeMem]
    split
    · refine wfFrom_consCell v ?_ hlo ha
      simp only [Memory.wfFrom, Bool.and_eq_true, decide_eq_true_eq]
      exact ⟨⟨⟨by omega, h.1.1.2⟩, h.1.2⟩, h.2⟩
    · split
      · next hab => subst hab; exact wfFrom_consCell v h.2 hlo ha
      · simp only [Memory.wfFrom, Bool.and_eq_true, decide_eq_true_eq]
        exact ⟨h.1, ih h.2 (by omega)⟩

/-- A write keeps the canonical form. -/
theorem writeMem_wf {m : Memory} {a : Nat} (v : Byte) (h : Memory.wf m = true) (ha : a < 2 ^ 32) :
    Memory.wf (writeMem m a v) = true := wfFrom_writeMem v h (by omega) ha

/-- `MemWrite` keeps the canonical form: its address is a 32-bit word. -/
theorem memWrite_wf {s : State} (a : Word) (v : Byte) (h : Memory.wf s.mem = true) :
    Memory.wf (memWrite s a v).mem = true := writeMem_wf v h a.isLt

/-- Two memories in canonical form that read alike at every address are equal. -/
theorem mem_eq_of_reads {m m' : Memory} {lo : Nat} (h : Memory.wfFrom lo m = true) (h' : Memory.wfFrom lo m' = true)
    (hr : ∀ a, readMem m a = readMem m' a) : m = m' := by
  induction m generalizing m' lo with
  | nil =>
    cases m' with
    | nil => rfl
    | cons c m' =>
      obtain ⟨b, v⟩ := c
      simp only [Memory.wfFrom, Bool.and_eq_true, decide_eq_true_eq, bne_iff_ne] at h'
      have := hr b
      rw [readMem_cons, if_pos rfl] at this
      exact absurd this.symm h'.1.2
  | cons c m ih =>
    obtain ⟨b, v⟩ := c
    simp only [Memory.wfFrom, Bool.and_eq_true, decide_eq_true_eq, bne_iff_ne] at h
    cases m' with
    | nil =>
      have := hr b
      rw [readMem_cons, if_pos rfl] at this
      exact absurd this h.1.2
    | cons c' m' =>
      obtain ⟨b', v'⟩ := c'
      simp only [Memory.wfFrom, Bool.and_eq_true, decide_eq_true_eq, bne_iff_ne] at h'
      have hb : b = b' := by
        rcases Nat.lt_trichotomy b b' with hlt | heq | hgt
        · have := hr b
          rw [readMem_cons, if_pos rfl, readMem_cons, if_neg (by omega), readMem_below h'.2 (by omega)] at this
          exact absurd this h.1.2
        · exact heq
        · have := hr b'
          rw [readMem_cons b', if_pos rfl, readMem_cons, if_neg (by omega), readMem_below h.2 (by omega)] at this
          exact absurd this.symm h'.1.2
      subst hb
      have hv : v = v' := by simpa [readMem_cons] using hr b
      subst hv
      congr 1
      refine ih h.2 h'.2 fun a => ?_
      by_cases hab : a = b
      · subst hab; rw [readMem_below h.2 (by omega), readMem_below h'.2 (by omega)]
      · simpa [readMem_cons, hab] using hr a

/-! ## Storing several bytes -/

@[simp] theorem storeBytes_nil (m : Memory) (a : Nat) : storeBytes m a [] = m := rfl

theorem storeBytes_append (m : Memory) (a : Nat) (vs ws : List Byte) :
    storeBytes m a (vs ++ ws) = storeBytes (storeBytes m a vs) (a + vs.length) ws := by
  induction vs generalizing m a with
  | nil => rfl
  | cons v vs ih =>
    simp only [List.cons_append, storeBytes, ih, List.length_cons]
    rw [show a + 1 + vs.length = a + (vs.length + 1) by omega]

theorem storeBytes_wf {m : Memory} {a : Nat} {vs : List Byte} (h : Memory.wf m = true) (ha : a + vs.length ≤ 2 ^ 32) :
    Memory.wf (storeBytes m a vs) = true := by
  induction vs generalizing m a with
  | nil => exact h
  | cons v vs ih =>
    simp only [List.length_cons] at ha
    exact ih (writeMem_wf v h (by omega)) (by omega)

/-- Storing bytes leaves every byte outside their window alone, in every memory. -/
theorem readMem_storeBytes_other {m : Memory} {a b : Nat} {vs : List Byte} (h : b < a ∨ a + vs.length ≤ b) :
    readMem (storeBytes m a vs) b = readMem m b := by
  induction vs generalizing m a with
  | nil => rfl
  | cons v vs ih =>
    simp only [List.length_cons] at h
    rw [storeBytes, ih (by omega), readMem_writeMem_other v m (by omega)]

/-- The bytes stored are the bytes read back. -/
theorem bytesAt_storeBytes {m : Memory} {a : Nat} {vs : List Byte} (h : Memory.wf m = true)
    (ha : a + vs.length ≤ 2 ^ 32) : bytesAt (storeBytes m a vs) a vs.length = vs := by
  induction vs generalizing m a with
  | nil => rfl
  | cons v vs ih =>
    simp only [List.length_cons] at ha
    simp only [List.length_cons, bytesAt, storeBytes]
    rw [readMem_storeBytes_other (by omega), readMem_writeMem_same a v h,
      ih (writeMem_wf v h (by omega)) (by omega)]

/-! ## Copying bytes -/

theorem copyBytes_wf {src m : Memory} {n a : Nat} (h : Memory.wf m = true) (ha : a + n ≤ 2 ^ 32) :
    Memory.wf (copyBytes src n a m) = true := by
  induction n generalizing m a with
  | zero => exact h
  | succ n ih => exact ih (writeMem_wf _ h (by omega)) (by omega)

theorem readMem_copyBytes_other {src m : Memory} {n a b : Nat} (h : b < a ∨ a + n ≤ b) :
    readMem (copyBytes src n a m) b = readMem m b := by
  induction n generalizing m a with
  | zero => rfl
  | succ n ih => rw [copyBytes, ih (by omega), readMem_writeMem_other _ m (by omega)]

theorem readMem_copyBytes_inside {src m : Memory} {n a b : Nat} (hm : Memory.wf m = true) (ha : a + n ≤ 2 ^ 32)
    (h : a ≤ b) (h' : b < a + n) : readMem (copyBytes src n a m) b = readMem src b := by
  induction n generalizing m a with
  | zero => omega
  | succ n ih =>
    rw [copyBytes]
    by_cases hab : b = a
    · subst hab
      rw [readMem_copyBytes_other (by omega), readMem_writeMem_same b _ hm]
    · exact ih (writeMem_wf _ hm (by omega)) (by omega) (by omega) (by omega)

end Sys2Proof.Machine
end

