-- ==== Sys2Proof/Laws/State.lean ====
section
/-! SUPPORT. One lemma per field per update of the state: what an update writes and what it keeps. -/

namespace Sys2Proof.Machine

@[simp] theorem State.withEnc_enc (s : State) (e : Encoder) : (s.withEnc e).enc = e := rfl
@[simp] theorem State.withEnc_dec (s : State) (e : Encoder) : (s.withEnc e).dec = s.dec := rfl
@[simp] theorem State.withEnc_mem (s : State) (e : Encoder) : (s.withEnc e).mem = s.mem := rfl
@[simp] theorem State.withEnc_host (s : State) (e : Encoder) : (s.withEnc e).host = s.host := rfl
@[simp] theorem State.withEnc_responses (s : State) (e : Encoder) : (s.withEnc e).responses = s.responses := rfl
@[simp] theorem State.withEnc_freeCount (s : State) (e : Encoder) : (s.withEnc e).freeCount = s.freeCount := rfl
@[simp] theorem State.withEnc_streamStart (s : State) (e : Encoder) : (s.withEnc e).streamStart = s.streamStart := rfl

@[simp] theorem State.withDec_enc (s : State) (d : Decoder) : (s.withDec d).enc = s.enc := rfl
@[simp] theorem State.withDec_dec (s : State) (d : Decoder) : (s.withDec d).dec = d := rfl
@[simp] theorem State.withDec_mem (s : State) (d : Decoder) : (s.withDec d).mem = s.mem := rfl
@[simp] theorem State.withDec_host (s : State) (d : Decoder) : (s.withDec d).host = s.host := rfl
@[simp] theorem State.withDec_responses (s : State) (d : Decoder) : (s.withDec d).responses = s.responses := rfl
@[simp] theorem State.withDec_freeCount (s : State) (d : Decoder) : (s.withDec d).freeCount = s.freeCount := rfl
@[simp] theorem State.withDec_streamStart (s : State) (d : Decoder) : (s.withDec d).streamStart = s.streamStart := rfl

@[simp] theorem State.withMem_enc (s : State) (m : Memory) : (s.withMem m).enc = s.enc := rfl
@[simp] theorem State.withMem_dec (s : State) (m : Memory) : (s.withMem m).dec = s.dec := rfl
@[simp] theorem State.withMem_mem (s : State) (m : Memory) : (s.withMem m).mem = m := rfl
@[simp] theorem State.withMem_host (s : State) (m : Memory) : (s.withMem m).host = s.host := rfl
@[simp] theorem State.withMem_responses (s : State) (m : Memory) : (s.withMem m).responses = s.responses := rfl
@[simp] theorem State.withMem_freeCount (s : State) (m : Memory) : (s.withMem m).freeCount = s.freeCount := rfl
@[simp] theorem State.withMem_streamStart (s : State) (m : Memory) : (s.withMem m).streamStart = s.streamStart := rfl

@[simp] theorem State.withHost_enc (s : State) (h : List HostAction) : (s.withHost h).enc = s.enc := rfl
@[simp] theorem State.withHost_dec (s : State) (h : List HostAction) : (s.withHost h).dec = s.dec := rfl
@[simp] theorem State.withHost_mem (s : State) (h : List HostAction) : (s.withHost h).mem = s.mem := rfl
@[simp] theorem State.withHost_host (s : State) (h : List HostAction) : (s.withHost h).host = h := rfl
@[simp] theorem State.withHost_responses (s : State) (h : List HostAction) : (s.withHost h).responses = s.responses := rfl
@[simp] theorem State.withHost_freeCount (s : State) (h : List HostAction) : (s.withHost h).freeCount = s.freeCount := rfl
@[simp] theorem State.withHost_streamStart (s : State) (h : List HostAction) : (s.withHost h).streamStart = s.streamStart := rfl

@[simp] theorem State.withResponse_enc (s : State) (r : Response) : (s.withResponse r).enc = s.enc := rfl
@[simp] theorem State.withResponse_dec (s : State) (r : Response) : (s.withResponse r).dec = s.dec := rfl
@[simp] theorem State.withResponse_mem (s : State) (r : Response) : (s.withResponse r).mem = s.mem := rfl
@[simp] theorem State.withResponse_host (s : State) (r : Response) : (s.withResponse r).host = s.host := rfl
@[simp] theorem State.withResponse_responses (s : State) (r : Response) : (s.withResponse r).responses = s.responses ++ [r] := rfl
@[simp] theorem State.withResponse_freeCount (s : State) (r : Response) : (s.withResponse r).freeCount = s.freeCount := rfl
@[simp] theorem State.withResponse_streamStart (s : State) (r : Response) : (s.withResponse r).streamStart = s.streamStart := rfl

@[simp] theorem State.withStreamStart_enc (s : State) (a : Word) : (s.withStreamStart a).enc = s.enc := rfl
@[simp] theorem State.withStreamStart_dec (s : State) (a : Word) : (s.withStreamStart a).dec = s.dec := rfl
@[simp] theorem State.withStreamStart_mem (s : State) (a : Word) : (s.withStreamStart a).mem = s.mem := rfl
@[simp] theorem State.withStreamStart_host (s : State) (a : Word) : (s.withStreamStart a).host = s.host := rfl
@[simp] theorem State.withStreamStart_responses (s : State) (a : Word) : (s.withStreamStart a).responses = s.responses := rfl
@[simp] theorem State.withStreamStart_freeCount (s : State) (a : Word) : (s.withStreamStart a).freeCount = s.freeCount := rfl
@[simp] theorem State.withStreamStart_streamStart (s : State) (a : Word) : (s.withStreamStart a).streamStart = a := rfl

@[simp] theorem State.nextFree_enc (s : State) : (s.nextFree).enc = s.enc := rfl
@[simp] theorem State.nextFree_dec (s : State) : (s.nextFree).dec = s.dec := rfl
@[simp] theorem State.nextFree_mem (s : State) : (s.nextFree).mem = s.mem := rfl
@[simp] theorem State.nextFree_host (s : State) : (s.nextFree).host = s.host := rfl
@[simp] theorem State.nextFree_responses (s : State) : (s.nextFree).responses = s.responses := rfl
@[simp] theorem State.nextFree_freeCount (s : State) : (s.nextFree).freeCount = s.freeCount + 1 := rfl
@[simp] theorem State.nextFree_streamStart (s : State) : (s.nextFree).streamStart = s.streamStart := rfl

@[simp] theorem memWrite_enc (s : State) (a : Word) (v : Byte) : (memWrite s a v).enc = s.enc := rfl
@[simp] theorem memWrite_dec (s : State) (a : Word) (v : Byte) : (memWrite s a v).dec = s.dec := rfl
@[simp] theorem memWrite_mem (s : State) (a : Word) (v : Byte) : (memWrite s a v).mem = writeMem s.mem a.toNat v := rfl
@[simp] theorem memWrite_host (s : State) (a : Word) (v : Byte) : (memWrite s a v).host = s.host := rfl
@[simp] theorem memWrite_responses (s : State) (a : Word) (v : Byte) : (memWrite s a v).responses = s.responses := rfl
@[simp] theorem memWrite_freeCount (s : State) (a : Word) (v : Byte) : (memWrite s a v).freeCount = s.freeCount := rfl
@[simp] theorem memWrite_streamStart (s : State) (a : Word) (v : Byte) : (memWrite s a v).streamStart = s.streamStart := rfl

@[simp] theorem holdByte_enc (b : Byte) (s : State) : (holdByte b s).enc = { s.enc with pendingByte := b, run := 0, pendingCarry := false } := rfl
@[simp] theorem holdByte_dec (b : Byte) (s : State) : (holdByte b s).dec = s.dec := rfl
@[simp] theorem holdByte_mem (b : Byte) (s : State) : (holdByte b s).mem = s.mem := rfl
@[simp] theorem holdByte_host (b : Byte) (s : State) : (holdByte b s).host = s.host := rfl
@[simp] theorem holdByte_responses (b : Byte) (s : State) : (holdByte b s).responses = s.responses := rfl
@[simp] theorem holdByte_freeCount (b : Byte) (s : State) : (holdByte b s).freeCount = s.freeCount := rfl
@[simp] theorem holdByte_streamStart (b : Byte) (s : State) : (holdByte b s).streamStart = s.streamStart := rfl

@[simp] theorem enterFault_enc (s : State) : (enterFault s).enc = { freeEncDatapath s.freeCount s.enc with phase := .fault } := rfl
@[simp] theorem enterFault_dec (s : State) : (enterFault s).dec = s.dec := rfl
@[simp] theorem enterFault_mem (s : State) : (enterFault s).mem = s.mem := rfl
@[simp] theorem enterFault_host (s : State) : (enterFault s).host = s.host := rfl
@[simp] theorem enterFault_responses (s : State) : (enterFault s).responses = s.responses := rfl
@[simp] theorem enterFault_freeCount (s : State) : (enterFault s).freeCount = s.freeCount + 1 := rfl
@[simp] theorem enterFault_streamStart (s : State) : (enterFault s).streamStart = s.streamStart := rfl

@[simp] theorem resetBlock_enc (s : State) : (resetBlock s).enc = freeEncoder s.freeCount s.enc := rfl
@[simp] theorem resetBlock_dec (s : State) : (resetBlock s).dec = freeDecoder s.freeCount := rfl
@[simp] theorem resetBlock_mem (s : State) : (resetBlock s).mem = s.mem := rfl
@[simp] theorem resetBlock_host (s : State) : (resetBlock s).host = s.host := rfl
@[simp] theorem resetBlock_responses (s : State) : (resetBlock s).responses = s.responses := rfl
@[simp] theorem resetBlock_freeCount (s : State) : (resetBlock s).freeCount = s.freeCount + 1 := rfl
@[simp] theorem resetBlock_streamStart (s : State) : (resetBlock s).streamStart = s.streamStart := rfl

/-! ## The registers a fault or a reset keeps -/

@[simp] theorem freeEncDatapath_outputCursor (n : Nat) (e : Encoder) :
    (freeEncDatapath n e).outputCursor = e.outputCursor := rfl
@[simp] theorem freeEncDatapath_outputEnd (n : Nat) (e : Encoder) :
    (freeEncDatapath n e).outputEnd = e.outputEnd := rfl
@[simp] theorem freeEncDatapath_phase (n : Nat) (e : Encoder) : (freeEncDatapath n e).phase = e.phase := rfl
@[simp] theorem freeEncoder_phase (n : Nat) (e : Encoder) : (freeEncoder n e).phase = .idle := rfl
@[simp] theorem freeDecoder_phase (n : Nat) : (freeDecoder n).phase = .idle := rfl
@[simp] theorem freeDecoder_exhausted (n : Nat) : (freeDecoder n).exhausted = false := rfl

/-! ## Two states are equal when their parts are -/

theorem State.ext_parts {s t : State} (h₁ : s.enc = t.enc) (h₂ : s.dec = t.dec) (h₃ : s.mem = t.mem)
    (h₄ : s.host = t.host) (h₅ : s.responses = t.responses) (h₆ : s.freeCount = t.freeCount)
    (h₇ : s.streamStart = t.streamStart) : s = t := by
  cases s; cases t; simp_all

/-! ## Updates that change nothing -/

@[simp] theorem State.withEnc_self (s : State) : s.withEnc s.enc = s := rfl
@[simp] theorem State.withDec_self (s : State) : s.withDec s.dec = s := rfl
@[simp] theorem State.withMem_self (s : State) : s.withMem s.mem = s := rfl
@[simp] theorem State.withHost_self (s : State) : s.withHost s.host = s := rfl

end Sys2Proof.Machine
end

