-- ==== Sys2Proof/Laws/Carry.lean ====
section
/-! SUPPORT. What the procedures of the carry logic do, once and for all: each of them stores a list of bytes
from the cursor upwards, as many as fit (rules R130 to R133). -/

namespace Sys2Proof.Machine

/-! ## Procedures one after the other -/

@[simp] theorem Emit.bind_ok (s : State) (f : State → Emit) : (Emit.ok s).bind f = f s := rfl
@[simp] theorem Emit.bind_overflow (s : State) (f : State → Emit) : (Emit.overflow s).bind f = .overflow s := rfl
@[simp] theorem Emit.finish_ok (s : State) (f : State → Host.Outcome State Fault Refusal) :
    (Emit.ok s).finish f = f s := rfl
@[simp] theorem Emit.finish_overflow (s : State) (f : State → Host.Outcome State Fault Refusal) :
    (Emit.overflow s).finish f = takeOverflow s := rfl

theorem Emit.bind_assoc (x : Emit) (f g : State → Emit) : (x.bind f).bind g = x.bind fun s => (f s).bind g := by
  cases x <;> rfl

theorem Emit.bind_eq_ok {x : Emit} {f : State → Emit} {t : State} (h : x.bind f = .ok t) :
    ∃ s, x = .ok s ∧ f s = .ok t := by
  cases x with
  | ok s => exact ⟨s, rfl, h⟩
  | overflow s => simp at h

/-! ## Writing a list of bytes -/

/-- Write these bytes one after the other. -/
def writeAll : List Byte → State → Emit
  | [], s => .ok s
  | v :: vs, s => (writeByte v s).bind (writeAll vs)

/-- The state in which these bytes have been written from the cursor upwards. -/
def stored (vs : List Byte) (s : State) : State :=
  (s.withMem (storeBytes s.mem s.enc.outputCursor.toNat vs)).withEnc
    { s.enc with outputCursor := s.enc.outputCursor + BitVec.ofNat 32 vs.length }

@[simp] theorem stored_nil (s : State) : stored [] s = s := by
  cases s; simp [stored, State.withMem, State.withEnc]

@[simp] theorem stored_enc (vs : List Byte) (s : State) :
    (stored vs s).enc = { s.enc with outputCursor := s.enc.outputCursor + BitVec.ofNat 32 vs.length } := rfl
@[simp] theorem stored_dec (vs : List Byte) (s : State) : (stored vs s).dec = s.dec := rfl
@[simp] theorem stored_mem (vs : List Byte) (s : State) :
    (stored vs s).mem = storeBytes s.mem s.enc.outputCursor.toNat vs := rfl
@[simp] theorem stored_host (vs : List Byte) (s : State) : (stored vs s).host = s.host := rfl
@[simp] theorem stored_responses (vs : List Byte) (s : State) : (stored vs s).responses = s.responses := rfl
@[simp] theorem stored_freeCount (vs : List Byte) (s : State) : (stored vs s).freeCount = s.freeCount := rfl
@[simp] theorem stored_streamStart (vs : List Byte) (s : State) : (stored vs s).streamStart = s.streamStart := rfl

theorem room_eq_zero_iff (e : Encoder) : room e = 0 ↔ outputFull e = true := by
  simp only [room, outputFull, decide_eq_true_eq, BitVec.le_def]; omega

theorem room_lt (e : Encoder) : e.outputCursor.toNat + room e < 2 ^ 32 := by
  have := e.outputEnd.isLt; have := e.outputCursor.isLt; simp only [room]; omega

theorem toNat_cursor_add {e : Encoder} {n : Nat} (h : n ≤ room e) :
    (e.outputCursor + BitVec.ofNat 32 n).toNat = e.outputCursor.toNat + n := by
  have := room_lt e
  rw [BitVec.toNat_add, BitVec.toNat_ofNat]
  omega

theorem room_stored {s : State} {vs : List Byte} (h : vs.length ≤ room s.enc) :
    room (stored vs s).enc = room s.enc - vs.length := by
  have := toNat_cursor_add h
  simp only [room, stored_enc] at *
  omega

theorem writeByte_eq (v : Byte) (s : State) :
    writeByte v s = if room s.enc = 0 then .overflow s else .ok (stored [v] s) := by
  simp only [room_eq_zero_iff]
  rfl

theorem stored_append {s : State} {vs ws : List Byte} (h : vs.length ≤ room s.enc) :
    stored ws (stored vs s) = stored (vs ++ ws) s := by
  have hc := toNat_cursor_add h
  apply State.ext_parts <;> simp only [stored_enc, stored_dec, stored_mem, stored_host, stored_responses,
    stored_freeCount, stored_streamStart, hc, storeBytes_append, List.length_append]
  congr 1
  rw [BitVec.add_assoc, ← BitVec.ofNat_add]

/-- Writing a list of bytes: all of them where they fit, else those that fit, up to the refused write
(rule R131). -/
theorem writeAll_eq (vs : List Byte) (s : State) :
    writeAll vs s =
      if vs.length ≤ room s.enc then .ok (stored vs s) else .overflow (stored (vs.take (room s.enc)) s) := by
  induction vs generalizing s with
  | nil => simp [writeAll]
  | cons v vs ih =>
    rw [writeAll, writeByte_eq]
    by_cases h0 : room s.enc = 0
    · simp [h0]
    · have h1 : [v].length ≤ room s.enc := by simp; omega
      rw [if_neg h0, Emit.bind_ok, ih, room_stored h1, stored_append h1, stored_append h1]
      obtain ⟨n, hn⟩ := Nat.exists_eq_succ_of_ne_zero h0
      simp only [hn, List.length_cons, List.length_nil, List.cons_append, List.nil_append, Nat.succ_sub_one,
        List.take_succ_cons, Nat.zero_add, Nat.succ_le_succ_iff]

theorem writeAll_append (vs ws : List Byte) (s : State) :
    writeAll (vs ++ ws) s = (writeAll vs s).bind (writeAll ws) := by
  induction vs generalizing s with
  | nil => rfl
  | cons v vs ih =>
    simp only [List.cons_append, writeAll, Emit.bind_assoc]
    congr 1
    funext t
    exact ih t

theorem writeRun_eq (v : Byte) (n : Nat) (s : State) : writeRun v n s = writeAll (List.replicate n v) s := by
  induction n generalizing s with
  | zero => rfl
  | succ n ih =>
    simp only [writeRun, List.replicate_succ, writeAll]
    congr 1
    funext t
    exact ih t

/-- The held bytes leave as one list. -/
theorem writeHeld_eq (v r : Byte) (s : State) :
    writeHeld v r s = writeAll (v :: List.replicate s.enc.run.toNat r) s := by
  simp only [writeHeld, writeAll]
  congr 1
  funext t
  exact writeRun_eq _ _ t

/-! ## `FINALIZE` and `DRAIN` -/

/-- Case (A). -/
theorem finalize_first {b : Byte} {s : State} (h : s.enc.pendingValid = false) :
    finalize b s = .ok (s.withEnc { s.enc with pendingByte := b, pendingValid := true, pendingCarry := false }) := by
  simp [finalize, h]

/-- Cases (B) and (D): the held bytes are written, then `b` is held alone. -/
theorem finalize_release {b : Byte} {s : State} (h : s.enc.pendingValid = true)
    (hb : s.enc.pendingCarry = true ∨ b ≠ 0xFF) :
    finalize b s = (writeAll (heldBytes s.enc) s).bind fun t => .ok (holdByte b t) := by
  unfold finalize heldBytes
  rw [h]
  cases hc : s.enc.pendingCarry with
  | true => simp [writeHeld_eq]
  | false =>
    have : b ≠ 0xFF := by simpa [hc] using hb
    rw [if_neg this]
    simp [writeHeld_eq]

/-- Case (C): the run is extended, or its counter overflows. -/
theorem finalize_extend {s : State} (h : s.enc.pendingValid = true) (hc : s.enc.pendingCarry = false) :
    finalize 0xFF s =
      if runFull s.enc then .overflow s else .ok (s.withEnc { s.enc with run := s.enc.run + 1 }) := by
  simp [finalize, h, hc]

theorem drain_valid {s : State} (h : s.enc.pendingValid = true) (hc : s.enc.pendingCarry = false) :
    drain s = (writeAll (heldBytes s.enc) s).bind fun t =>
      .ok (t.withEnc { t.enc with pendingValid := false, run := 0 }) := by
  simp [drain, heldBytes, h, hc, writeHeld_eq]

theorem drain_empty {s : State} (h : s.enc.pendingValid = false) : drain s = .ok s := by simp [drain, h]

/-! ## What every procedure keeps -/

/-- `t` is `s` after some bytes have been written from the cursor upwards, inside the buffer, and after the
encoder's datapath has gone on; everything else is as in `s`. -/
structure Wrote (s t : State) : Prop where
  dec : t.dec = s.dec
  host : t.host = s.host
  responses : t.responses = s.responses
  freeCount : t.freeCount = s.freeCount
  streamStart : t.streamStart = s.streamStart
  outputEnd : t.enc.outputEnd = s.enc.outputEnd
  phase : t.enc.phase = s.enc.phase
  bytes : ∃ vs : List Byte, vs.length ≤ room s.enc ∧
    t.mem = storeBytes s.mem s.enc.outputCursor.toNat vs ∧
    t.enc.outputCursor.toNat = s.enc.outputCursor.toNat + vs.length

theorem Wrote.refl (s : State) : Wrote s s :=
  ⟨rfl, rfl, rfl, rfl, rfl, rfl, rfl, [], by simp, rfl, by simp⟩

theorem Wrote.trans {s t u : State} (h : Wrote s t) (h' : Wrote t u) : Wrote s u := by
  obtain ⟨vs, hl, hm, hc⟩ := h.bytes
  obtain ⟨ws, hl', hm', hc'⟩ := h'.bytes
  refine ⟨h'.dec.trans h.dec, h'.host.trans h.host, h'.responses.trans h.responses,
    h'.freeCount.trans h.freeCount, h'.streamStart.trans h.streamStart, h'.outputEnd.trans h.outputEnd, h'.phase.trans h.phase, vs ++ ws, ?_, ?_, ?_⟩
  · have := h.outputEnd
    simp only [room, this, hc, List.length_append] at *
    omega
  · rw [hm', hm, hc, storeBytes_append]
  · rw [hc', hc, List.length_append]; omega

theorem wrote_stored {s : State} {vs : List Byte} (h : vs.length ≤ room s.enc) : Wrote s (stored vs s) :=
  ⟨rfl, rfl, rfl, rfl, rfl, rfl, rfl, vs, h, rfl, toNat_cursor_add h⟩

/-- A change of the datapath registers alone. -/
theorem wrote_withEnc {s : State} {e : Encoder} (hc : e.outputCursor = s.enc.outputCursor)
    (he : e.outputEnd = s.enc.outputEnd) (hp : e.phase = s.enc.phase) : Wrote s (s.withEnc e) :=
  ⟨rfl, rfl, rfl, rfl, rfl, he, hp, [], by simp, rfl, by simp [hc]⟩

/-- The state a procedure ends in, whether it returns or has raised `BufferOverflow`. -/
def Emit.final : Emit → State
  | .ok s => s
  | .overflow s => s

/-- A procedure after a procedure. -/
theorem wrote_bind {s : State} {x : Emit} {f : State → Emit} (hx : Wrote s x.final)
    (hf : ∀ t, Wrote t (f t).final) : Wrote s (x.bind f).final := by
  cases x with
  | ok t => exact hx.trans (hf t)
  | overflow t => exact hx

theorem wrote_writeAll (vs : List Byte) (s : State) : Wrote s (writeAll vs s).final := by
  rw [writeAll_eq]
  split
  · next h => exact wrote_stored h
  · exact wrote_stored (by simp)

theorem wrote_finalize (b : Byte) (s : State) : Wrote s (finalize b s).final := by
  by_cases hv : s.enc.pendingValid = true
  · by_cases hb : s.enc.pendingCarry = true ∨ b ≠ 0xFF
    · rw [finalize_release hv hb]
      exact wrote_bind (wrote_writeAll _ s) fun _ => wrote_withEnc rfl rfl rfl
    · rw [not_or, Bool.not_eq_true, not_ne_iff] at hb
      rw [hb.2, finalize_extend hv hb.1]
      split
      · exact Wrote.refl s
      · exact wrote_withEnc rfl rfl rfl
  · rw [finalize_first (by simpa using hv)]
    exact wrote_withEnc rfl rfl rfl

theorem wrote_drain (s : State) : Wrote s (drain s).final := by
  unfold drain
  split
  · rw [writeHeld_eq]
    exact wrote_bind (wrote_writeAll _ s) fun _ => wrote_withEnc rfl rfl rfl
  · exact Wrote.refl s

theorem wrote_emitTopByte (s : State) : Wrote s (emitTopByte s).final :=
  wrote_bind (wrote_finalize _ s) fun _ => wrote_withEnc rfl rfl rfl

theorem wrote_emitTopBytes (n : Nat) (s : State) : Wrote s (emitTopBytes n s).final := by
  induction n generalizing s with
  | zero => exact Wrote.refl s
  | succ n ih => exact wrote_bind (wrote_emitTopByte s) ih

end Sys2Proof.Machine
end

