-- ==== Sys2Proof/Laws/Decode.lean ====
section
/-! SUPPORT. The command word as a number, and its fields as digits of that number (rules R81, R84). -/

namespace Sys2Proof

theorem toNat_opField (w : CommandWord) : (opField w).toNat = w.toNat / 2 ^ 73 := by
  have := w.isLt
  rw [opField, BitVec.extractLsb'_toNat, Nat.shiftRight_eq_div_pow]
  omega

theorem toNat_bitField (w : CommandWord) : (bitField w).toNat = w.toNat / 2 ^ 72 % 2 := by
  rw [bitField, BitVec.getLsbD, Nat.testBit_eq_decide_div_mod_eq]
  rcases Nat.mod_two_eq_zero_or_one (w.toNat / 2 ^ 72) with h | h <;> rw [h] <;> rfl

theorem toNat_probField (w : CommandWord) : (probField w).toNat = w.toNat / 2 ^ 64 % 2 ^ 8 := by
  rw [probField, BitVec.extractLsb'_toNat, Nat.shiftRight_eq_div_pow]

theorem toNat_arg0Field (w : CommandWord) : (arg0Field w).toNat = w.toNat / 2 ^ 32 % 2 ^ 32 := by
  rw [arg0Field, BitVec.extractLsb'_toNat, Nat.shiftRight_eq_div_pow]

theorem toNat_arg1Field (w : CommandWord) : (arg1Field w).toNat = w.toNat % 2 ^ 32 := by
  rw [arg1Field, BitVec.extractLsb'_toNat, Nat.shiftRight_zero]

theorem toNat_append_add {n m : Nat} (x : BitVec n) (y : BitVec m) :
    (x ++ y).toNat = x.toNat * 2 ^ m + y.toNat := by
  rw [BitVec.toNat_append, ← Nat.shiftLeft_add_eq_or_of_lt y.isLt, Nat.shiftLeft_eq]

/-- The word put together from its five fields (rule R81). -/
theorem toNat_assemble (op : BitVec 3) (b : Bool) (p : Byte) (a c : Word) :
    (assemble op b p a c).toNat =
      op.toNat * 2 ^ 73 + b.toNat * 2 ^ 72 + p.toNat * 2 ^ 64 + a.toNat * 2 ^ 32 + c.toNat := by
  show (op ++ BitVec.ofBool b ++ p ++ a ++ c).toNat = _
  simp only [toNat_append_add, BitVec.toNat_ofBool]
  omega

theorem toNat_bool_injective {a b : Bool} (h : a.toNat = b.toNat) : a = b := by
  cases a <;> cases b <;> simp_all

/-- The fields of a word put together are the fields it was put together from (rule R81). -/
theorem fields_assemble (op : BitVec 3) (b : Bool) (p : Byte) (a c : Word) :
    opField (assemble op b p a c) = op ∧ bitField (assemble op b p a c) = b ∧
      probField (assemble op b p a c) = p ∧ arg0Field (assemble op b p a c) = a ∧
      arg1Field (assemble op b p a c) = c := by
  have h0 := op.isLt; have h1 := b.toNat_lt; have h2 := p.isLt; have h3 := a.isLt; have h4 := c.isLt
  refine ⟨BitVec.eq_of_toNat_eq ?_, toNat_bool_injective ?_, BitVec.eq_of_toNat_eq ?_,
    BitVec.eq_of_toNat_eq ?_, BitVec.eq_of_toNat_eq ?_⟩
  · rw [toNat_opField, toNat_assemble]; omega
  · rw [toNat_bitField, toNat_assemble]; omega
  · rw [toNat_probField, toNat_assemble]; omega
  · rw [toNat_arg0Field, toNat_assemble]; omega
  · rw [toNat_arg1Field, toNat_assemble]; omega

/-- Every word is put together from its fields. -/
theorem assemble_fields (w : CommandWord) :
    assemble (opField w) (bitField w) (probField w) (arg0Field w) (arg1Field w) = w := by
  apply BitVec.eq_of_toNat_eq
  rw [toNat_assemble, toNat_opField, toNat_bitField, toNat_probField, toNat_arg0Field, toNat_arg1Field]
  omega

/-- The table's mask selects `op` (rule R84). -/
theorem and_mask_eq_iff (w : CommandWord) (op : BitVec 3) :
    w &&& 0xE000000000000000000#76 = assemble op false 0 0 0 ↔ opField w = op := by
  have hmask : w &&& 0xE000000000000000000#76 = assemble (opField w) false 0 0 0 := by
    have hw : w = opField w ++ w.extractLsb' 0 73 := by
      apply BitVec.eq_of_toNat_eq
      rw [toNat_append_add, toNat_opField, BitVec.extractLsb'_toNat, Nat.shiftRight_zero]
      omega
    have hm : 0xE000000000000000000#76 = 7#3 ++ 0#73 := by decide
    have hall : opField w &&& 7#3 = opField w := by generalize opField w = x; revert x; decide
    rw [hm]
    conv_lhs => rw [hw]
    rw [BitVec.and_append, hall, BitVec.and_zero]
    apply BitVec.eq_of_toNat_eq
    rw [toNat_append_add, toNat_assemble]
    simp
  rw [hmask]
  constructor
  · intro h
    have := congrArg opField h
    rwa [(fields_assemble _ _ _ _ _).1, (fields_assemble _ _ _ _ _).1] at this
  · rintro rfl; rfl

end Sys2Proof
end

