-- ==== Sys2Proof/Laws/Operands.lean ====
section
/-! SUPPORT. What `shift_for`, `split_of` and the other derived operands are on the values a run can meet, as
equations over integers (rules R100 to R105, R122, R125, R162, R165). -/

namespace Sys2Proof.Machine

/-! ## `shift_for` -/

@[simp] theorem shiftFor_zero : shiftFor 0 = none := rfl

theorem toNat_pos_of_ne_zero {r : Byte} (h : r ≠ 0) : 0 < r.toNat := by
  rcases Nat.eq_zero_or_pos r.toNat with h0 | h0
  · exact absurd (BitVec.eq_of_toNat_eq (by simpa using h0)) h
  · exact h0

theorem ne_zero_of_toNat_pos {r : Byte} (h : 0 < r.toNat) : r ≠ 0 := by
  rintro rfl; simp at h

theorem shiftFor_of_ne_zero {r : Byte} (h : r ≠ 0) : shiftFor r = some (7 - Nat.log2 r.toNat) := if_neg h

theorem shiftOf_of_ne_zero {r : Byte} (h : r ≠ 0) : shiftOf r = 7 - Nat.log2 r.toNat := by
  rw [shiftOf, shiftFor_of_ne_zero h]; rfl

/-- A positive number below 256 is normalized by exactly one shift (rule R100). -/
theorem exactShift_eq_iff {r k : Nat} (h0 : 0 < r) (h1 : r < 256) : exactShift r = k ↔ Normalizes r k := by
  have hlog : 2 ^ Nat.log2 r ≤ r ∧ r < 2 ^ (Nat.log2 r + 1) :=
    ⟨Nat.log2_self_le (by omega), Nat.lt_log2_self⟩
  have h8 : Nat.log2 r < 8 := by
    by_contra hc
    have : 2 ^ 8 ≤ 2 ^ Nat.log2 r := Nat.pow_le_pow_right (by omega) (by omega)
    omega
  have key : Normalizes r (7 - Nat.log2 r) := by
    unfold Normalizes
    generalize Nat.log2 r = l at *
    interval_cases l <;> simp_all <;> omega
  constructor
  · rintro rfl; exact key
  · intro hk
    unfold exactShift
    obtain ⟨ha, hb⟩ := key
    obtain ⟨hc, hd⟩ := hk
    have grow : ∀ {i j : Nat}, i < j → 2 * (r * 2 ^ i) ≤ r * 2 ^ j := fun {i j} hij => by
      have := Nat.mul_le_mul_left r (Nat.pow_le_pow_right (n := 2) (by omega) (show i + 1 ≤ j from hij))
      rw [pow_succ] at this
      linarith
    rcases Nat.lt_trichotomy (7 - Nat.log2 r) k with hlt | heq | hgt
    · have := grow hlt
      omega
    · exact heq
    · have := grow hgt
      omega

/-- The machine's shift of a nonzero range is the one that normalizes it (rule R100). -/
theorem shiftOf_eq_iff {r : Byte} {k : Nat} (h : r ≠ 0) : shiftOf r = k ↔ Normalizes r.toNat k := by
  rw [shiftOf_of_ne_zero h]
  exact exactShift_eq_iff (toNat_pos_of_ne_zero h) r.isLt

theorem normalizes_shiftOf {r : Byte} (h : r ≠ 0) : Normalizes r.toNat (shiftOf r) := (shiftOf_eq_iff h).1 rfl

theorem shiftOf_le {r : Byte} (h : r ≠ 0) : shiftOf r ≤ 7 := by rw [shiftOf_of_ne_zero h]; omega

theorem Normalizes.le {r k : Nat} (h : Normalizes r k) : k ≤ 7 := by
  obtain ⟨h1, h2⟩ := h
  rcases Nat.eq_zero_or_pos r with rfl | hr
  · omega
  · by_contra hc
    have : 2 ^ 8 ≤ 2 ^ k := Nat.pow_le_pow_right (by omega) (by omega)
    have := Nat.le_mul_of_pos_left (2 ^ k) hr
    omega

/-- The range after the renormalization of a nonzero `range'`, as a number: no bit is lost (rule R102). -/
theorem toNat_shiftLeft_shiftOf {r : Byte} (h : r ≠ 0) : (r <<< shiftOf r).toNat = r.toNat * 2 ^ shiftOf r := by
  have := (normalizes_shiftOf h).2
  rw [BitVec.toNat_shiftLeft, Nat.shiftLeft_eq, Nat.mod_eq_of_lt (by omega)]

/-! ## `split_of` -/

theorem exactSplit_bounds {r p : Nat} (hr : 2 ≤ r) (hp : p < 256) : 1 ≤ exactSplit r p ∧ exactSplit r p ≤ r - 1 := by
  unfold exactSplit
  have : (r - 1) * p / 256 < r - 1 := by
    rw [Nat.div_lt_iff_lt_mul (by omega)]
    exact Nat.mul_lt_mul_of_pos_left hp (by omega)
  omega

/-- The machine's split of a range it can meet is the split on integers (rule R104). -/
theorem toNat_splitOf {r : Byte} (p : Byte) (hr : 2 ≤ r.toNat) : (splitOf r p).toNat = exactSplit r.toNat p.toNat := by
  have hb := exactSplit_bounds hr p.isLt
  have := r.isLt
  rw [splitOf, if_neg (ne_zero_of_toNat_pos (by omega)), BitVec.toNat_ofNat, Nat.shiftRight_eq_div_pow]
  exact Nat.mod_eq_of_lt (by unfold exactSplit at hb; omega)

theorem selectedRange_bounds {r p : Nat} (bit : Bool) (hr : 2 ≤ r) (hp : p < 256) :
    1 ≤ selectedRange bit r p ∧ selectedRange bit r p ≤ r - 1 := by
  have := exactSplit_bounds hr hp
  unfold selectedRange
  split <;> omega

/-! ## The encoder's operands -/

theorem toNat_topByte (e : Encoder) : (topByte e).toNat = e.lowValue.toNat / 2 ^ 24 := by
  have := e.lowValue.isLt
  rw [topByte, BitVec.extractLsb'_toNat, Nat.shiftRight_eq_div_pow]
  exact Nat.mod_eq_of_lt (by omega)

theorem topByte_eq (e : Encoder) : topByte e = BitVec.ofNat 8 (e.lowValue.toNat / 2 ^ 24) := by
  apply BitVec.eq_of_toNat_eq
  rw [toNat_topByte, BitVec.toNat_ofNat, Nat.mod_eq_of_lt]
  have := e.lowValue.isLt
  omega

theorem toNat_lowShifted (e : Encoder) : (lowShifted e).toNat = e.lowValue.toNat % 2 ^ 24 * 2 ^ 8 := by
  rw [lowShifted, BitVec.toNat_shiftLeft, BitVec.toNat_setWidth, BitVec.extractLsb'_toNat, Nat.shiftLeft_eq,
    Nat.shiftRight_zero]
  have h1 : e.lowValue.toNat % 2 ^ 24 < 2 ^ 24 := Nat.mod_lt _ (by omega)
  generalize e.lowValue.toNat % 2 ^ 24 = x at h1
  omega

theorem lowShifted_eq (e : Encoder) : lowShifted e = BitVec.ofNat 32 (e.lowValue.toNat % 2 ^ 24 * 2 ^ 8) := by
  apply BitVec.eq_of_toNat_eq
  have h1 : e.lowValue.toNat % 2 ^ 24 < 2 ^ 24 := Nat.mod_lt _ (by omega)
  rw [toNat_lowShifted, BitVec.toNat_ofNat]
  generalize e.lowValue.toNat % 2 ^ 24 = x at h1
  omega

/-! ## The decoder's operands -/

theorem toNat_thresholdOf (b : Byte) : (thresholdOf b).toNat = b.toNat * 2 ^ 24 := by
  have := b.isLt
  rw [thresholdOf, BitVec.toNat_shiftLeft, BitVec.toNat_setWidth, Nat.shiftLeft_eq]
  omega

theorem placeByte_eq (d : Decoder) (b : Byte) :
    placeByte d b = BitVec.ofNat 32 (b.toNat * 2 ^ (16 - d.bitCount.toInt).toNat) := by
  apply BitVec.eq_of_toNat_eq
  have := b.isLt
  rw [placeByte, BitVec.toNat_shiftLeft, BitVec.toNat_setWidth, Nat.shiftLeft_eq, BitVec.toNat_ofNat,
    Nat.mod_eq_of_lt (a := b.toNat) (by omega)]

/-! ## The two signed counters -/

/-- `bit_count + shift` does not leave the 6 bits of the encoder's counter (rule R25). -/
theorem encCount_add {c : BitVec 6} {k : Nat} (hc : c.toInt < 0) (hk : k ≤ 7) :
    (c + BitVec.ofNat 6 k).toInt = c.toInt + k := by
  have := BitVec.le_toInt c
  interval_cases k <;> revert c <;> decide

/-- `bit_count - 8` does not leave the 6 bits of the encoder's counter. -/
theorem encCount_sub {c : BitVec 6} (hc : -24 ≤ c.toInt) : (c - 8).toInt = c.toInt - 8 := by
  revert c; decide

/-- `bit_count - shift` does not leave the 5 bits of the decoder's counter (rule R42). -/
theorem decCount_sub {c : BitVec 5} {k : Nat} (hc : 0 ≤ c.toInt) (hk : k ≤ 7) :
    (c - BitVec.ofNat 5 k).toInt = c.toInt - k := by
  interval_cases k <;> revert c <;> decide

/-- `bit_count + 8` does not leave the 5 bits of the decoder's counter. -/
theorem decCount_add {c : BitVec 5} (hc : c.toInt < 8) : (c + 8).toInt = c.toInt + 8 := by
  revert c; decide

end Sys2Proof.Machine
end

