-- ==== Sys2Proof/Laws/Decoder.lean ====
section
/-! SUPPORT. What the decoder's procedures can do, once and for all (rules R161 to R167). -/

namespace Sys2Proof.Machine

/-! ## `REFILL` -/

/-- With 8 valid bits loaded, `REFILL` does nothing (rule R165). -/
theorem refill_loaded {m : Memory} {d : Decoder} (h : 0 ≤ d.bitCount.toInt) : refill m d = d := by
  have : refillDue d = false := by simp [refillDue]; omega
  simp [refill, this]

/-- With fewer, it takes one byte and puts it directly below the valid bits (rules R165, R166). -/
theorem refill_due {m : Memory} {d : Decoder} (h : d.bitCount.toInt < 0) :
    refill m d = { inputTaken d with
      value := d.value ||| placeByte d (inputByte m d), bitCount := d.bitCount + 8 } := by
  have hd : refillDue d = true := by simp [refillDue, h]
  have hb : inputLeft d = decide (d.inputCursor.toNat < d.inputEnd.toNat) := rfl
  have ha : (readAddress d).toNat = (d.inputBase.toNat + d.inputCursor.toNat) % 2 ^ 32 := by
    rw [readAddress, BitVec.toNat_add]
  unfold refill inputTaken inputByte
  rw [if_pos hd, hb, ha]
  by_cases hl : d.inputCursor.toNat < d.inputEnd.toNat
  · simp only [hl, decide_true, if_true]; rfl
  · simp only [hl, decide_false, if_false, Bool.false_eq_true]; rfl

@[simp] theorem inputTaken_range (d : Decoder) : (inputTaken d).range = d.range := by
  unfold inputTaken; split <;> rfl
@[simp] theorem inputTaken_phase (d : Decoder) : (inputTaken d).phase = d.phase := by
  unfold inputTaken; split <;> rfl
@[simp] theorem inputTaken_inputBase (d : Decoder) : (inputTaken d).inputBase = d.inputBase := by
  unfold inputTaken; split <;> rfl
@[simp] theorem inputTaken_inputEnd (d : Decoder) : (inputTaken d).inputEnd = d.inputEnd := by
  unfold inputTaken; split <;> rfl

/-- What `REFILL` never changes. -/
theorem refill_keeps (m : Memory) (d : Decoder) :
    (refill m d).range = d.range ∧ (refill m d).phase = d.phase ∧ (refill m d).inputBase = d.inputBase ∧
      (refill m d).inputEnd = d.inputEnd ∧ (d.exhausted = true → (refill m d).exhausted = true) := by
  unfold refill
  split
  · split
    · exact ⟨rfl, rfl, rfl, rfl, id⟩
    · exact ⟨rfl, rfl, rfl, rfl, fun _ => rfl⟩
  · exact ⟨rfl, rfl, rfl, rfl, id⟩

/-! ## `DECODE_BOOL` -/

/-- Steps 2 to 4 of `DECODE_BOOL` before the last `REFILL`, in exact integers, on the contexts a run can meet
(rule R163). -/
theorem decoded_eq {d : Decoder} {p : Byte} {k : Nat} (hr : 2 ≤ d.range.toNat)
    (hk : Normalizes (selectedRange (decodedBit p d) d.range.toNat p.toNat) k) :
    (decSelect (splitOf d.range p) d).1 = decodedBit p d ∧
    decRenormalize (decSelect (splitOf d.range p) d).2.1 (decSelect (splitOf d.range p) d).2.2 =
      { d with range := decodedRange p k d, value := decodedValue p k d, bitCount := d.bitCount - BitVec.ofNat 5 k } := by
  have hs := toNat_splitOf p hr
  have hb := exactSplit_bounds hr p.isLt
  have ht : (thresholdOf (splitOf d.range p)).toNat = exactSplit d.range.toNat p.toNat * 2 ^ 24 := by
    rw [toNat_thresholdOf, hs]
  have hcond : decide (thresholdOf (splitOf d.range p) ≤ d.value) = decodedBit p d := by
    simp only [BitVec.le_def, ht, decodedBit]
  have hbounds := selectedRange_bounds (decodedBit p d) hr p.isLt
  have shl32 : ∀ x : Word, x <<< k = BitVec.ofNat 32 (x.toNat * 2 ^ k) := fun x => by
    apply BitVec.eq_of_toNat_eq
    rw [BitVec.toNat_shiftLeft, Nat.shiftLeft_eq, BitVec.toNat_ofNat]
  have shl8 : ∀ x : Byte, x <<< k = BitVec.ofNat 8 (x.toNat * 2 ^ k) := fun x => by
    apply BitVec.eq_of_toNat_eq
    rw [BitVec.toNat_shiftLeft, Nat.shiftLeft_eq, BitVec.toNat_ofNat]
  by_cases h : thresholdOf (splitOf d.range p) ≤ d.value
  · have hbit : decodedBit p d = true := by rw [← hcond]; simp only [h, decide_true]
    have hrange : (d.range - splitOf d.range p).toNat = selectedRange true d.range.toNat p.toNat := by
      rw [BitVec.toNat_sub_of_le (by rw [BitVec.le_def, hs]; omega), hs]; rfl
    rw [hbit] at hk hbounds
    have hshift : shiftOf (d.range - splitOf d.range p) = k :=
      (shiftOf_eq_iff (ne_zero_of_toNat_pos (by rw [hrange]; omega))).2 (by rw [hrange]; exact hk)
    have hv : (d.value - thresholdOf (splitOf d.range p)).toNat =
        d.value.toNat - exactSplit d.range.toNat p.toNat * 2 ^ 24 := by
      rw [BitVec.toNat_sub_of_le h, ht]
    simp only [decSelect, h, if_true, decRenormalize, hshift, decodedRange, decodedValue, hbit, shl8, shl32,
      hrange, hv, and_self]
  · have hbit : decodedBit p d = false := by rw [← hcond]; simp only [h, decide_false]
    have hrange : (splitOf d.range p).toNat = selectedRange false d.range.toNat p.toNat := by rw [hs]; rfl
    rw [hbit] at hk hbounds
    have hshift : shiftOf (splitOf d.range p) = k :=
      (shiftOf_eq_iff (ne_zero_of_toNat_pos (by rw [hrange]; omega))).2 (by rw [hrange]; exact hk)
    simp only [decSelect, h, if_false, decRenormalize, hshift, decodedRange, decodedValue, hbit, shl8, shl32,
      hrange, Bool.false_eq_true, and_self]

/-- `DECODE_BOOL` as its two halves; cite this and never unfold `decodeBit` (rule R163). -/
theorem decodeBit_eq (m : Memory) (p : Byte) (d : Decoder) :
    decodeBit m p d = ((decSelect (splitOf (refill m d).range p) (refill m d)).1,
      refill m (decRenormalize (decSelect (splitOf (refill m d).range p) (refill m d)).2.1
        (decSelect (splitOf (refill m d).range p) (refill m d)).2.2)) := rfl

theorem decodeBit_bit (m : Memory) (p : Byte) (d : Decoder) :
    (decodeBit m p d).1 = (decSelect (splitOf (refill m d).range p) (refill m d)).1 := by rw [decodeBit_eq]

theorem decodeBit_context (m : Memory) (p : Byte) (d : Decoder) :
    (decodeBit m p d).2 = refill m (decRenormalize (decSelect (splitOf (refill m d).range p) (refill m d)).2.1
      (decSelect (splitOf (refill m d).range p) (refill m d)).2.2) := by rw [decodeBit_eq]

/-- What `DECODE_BOOL` never changes of the decoder. -/
theorem decodeBit_keeps (m : Memory) (p : Byte) (d : Decoder) :
    (decodeBit m p d).2.phase = d.phase ∧ (decodeBit m p d).2.inputBase = d.inputBase ∧
      (decodeBit m p d).2.inputEnd = d.inputEnd ∧ (d.exhausted = true → (decodeBit m p d).2.exhausted = true) := by
  have h₁ := refill_keeps m d
  have h₂ := refill_keeps m (decRenormalize (decSelect (splitOf (refill m d).range p) (refill m d)).2.1
    (decSelect (splitOf (refill m d).range p) (refill m d)).2.2)
  have h₃ : ∀ (q : Byte) (c : Decoder) (r : Byte), (decRenormalize (decSelect q c).2.1 r).phase = c.phase ∧
      (decRenormalize (decSelect q c).2.1 r).inputBase = c.inputBase ∧
      (decRenormalize (decSelect q c).2.1 r).inputEnd = c.inputEnd ∧
      (decRenormalize (decSelect q c).2.1 r).exhausted = c.exhausted := fun q c r => by
    unfold decSelect; split <;> exact ⟨rfl, rfl, rfl, rfl⟩
  have h₃ := h₃ (splitOf (refill m d).range p) (refill m d)
    (decSelect (splitOf (refill m d).range p) (refill m d)).2.2
  exact ⟨h₂.2.1.trans (h₃.1.trans h₁.2.1), h₂.2.2.1.trans (h₃.2.1.trans h₁.2.2.1),
    h₂.2.2.2.1.trans (h₃.2.2.1.trans h₁.2.2.2.1), fun h => h₂.2.2.2.2 (by rw [h₃.2.2.2]; exact h₁.2.2.2.2 h)⟩

end Sys2Proof.Machine
end

