-- ==== Sys2Proof/Laws/Encoder.lean ====
section
/-! SUPPORT. What the encoder's commands can do, once and for all (rules R121, R123, R133, R136). -/

namespace Sys2Proof.Machine

/-! ## Steps 1 to 3 of `ENCODE_BOOL` -/

@[simp] theorem encodeInterval_outputCursor (bit : Bool) (p : Byte) (e : Encoder) :
    (encodeInterval bit p e).outputCursor = e.outputCursor := by cases bit <;> rfl
@[simp] theorem encodeInterval_outputEnd (bit : Bool) (p : Byte) (e : Encoder) :
    (encodeInterval bit p e).outputEnd = e.outputEnd := by cases bit <;> rfl
@[simp] theorem encodeInterval_phase (bit : Bool) (p : Byte) (e : Encoder) :
    (encodeInterval bit p e).phase = e.phase := by cases bit <;> rfl
@[simp] theorem encodeInterval_pendingValid (bit : Bool) (p : Byte) (e : Encoder) :
    (encodeInterval bit p e).pendingValid = e.pendingValid := by cases bit <;> rfl
@[simp] theorem encodeInterval_pendingByte (bit : Bool) (p : Byte) (e : Encoder) :
    (encodeInterval bit p e).pendingByte = e.pendingByte := by cases bit <;> rfl
@[simp] theorem encodeInterval_run (bit : Bool) (p : Byte) (e : Encoder) :
    (encodeInterval bit p e).run = e.run := by cases bit <;> rfl
@[simp] theorem room_encodeInterval (bit : Bool) (p : Byte) (e : Encoder) :
    room (encodeInterval bit p e) = room e := by simp [room]

/-- `range'` of `ENCODE_BOOL`, on the ranges a run can meet (rule R123). -/
theorem toNat_selected {r p : Byte} (bit : Bool) (hr : 2 ≤ r.toNat) :
    (if bit then r - splitOf r p else splitOf r p).toNat = selectedRange bit r.toNat p.toNat := by
  have hs := toNat_splitOf p hr
  have hb := exactSplit_bounds hr p.isLt
  unfold selectedRange
  cases bit with
  | true =>
    simp only [if_true]
    rw [BitVec.toNat_sub_of_le (by rw [BitVec.le_def, hs]; omega), hs]
  | false => simpa using hs

theorem encSum_lt {e : Encoder} {split : Byte} (hc : -24 ≤ e.bitCount.toInt) : encSum e split < 2 ^ 33 := by
  have h1 := e.lowValue.isLt
  have h2 := split.isLt
  have h3 : 2 ^ encPos e ≤ 2 ^ 24 := Nat.pow_le_pow_right (by omega) (by unfold encPos; omega)
  have h4 : split.toNat * 2 ^ encPos e ≤ 255 * 2 ^ 24 := Nat.mul_le_mul (by omega) h3
  rw [encSum, Nat.shiftLeft_eq]
  omega

theorem testBit_32_of_lt {n : Nat} (h : n < 2 ^ 33) : n.testBit 32 = decide (2 ^ 32 ≤ n) := by
  rw [Nat.testBit_eq_decide_div_mod_eq]
  congr 1
  rw [eq_iff_iff]
  omega

/-- Steps 1 to 3 of `ENCODE_BOOL` in exact integers, on the contexts a run can meet (rule R123). -/
theorem encodeInterval_eq {e : Encoder} {bit : Bool} {p : Byte} {k : Nat} (hr : 2 ≤ e.range.toNat)
    (hc : -24 ≤ e.bitCount.toInt) (hk : Normalizes (selectedRange bit e.range.toNat p.toNat) k) :
    encodeInterval bit p e = encodedInterval bit p k e := by
  have hsel := toNat_selected (p := p) bit hr
  have hb := selectedRange_bounds bit hr p.isLt
  have hne : (if bit then e.range - splitOf e.range p else splitOf e.range p) ≠ 0 :=
    ne_zero_of_toNat_pos (by rw [hsel]; omega)
  have hks : shiftOf (if bit then e.range - splitOf e.range p else splitOf e.range p) = k := by
    rw [shiftOf_eq_iff hne, hsel]; exact hk
  have hrange : (if bit then e.range - splitOf e.range p else splitOf e.range p) <<< k =
      BitVec.ofNat 8 (selectedRange bit e.range.toNat p.toNat * 2 ^ k) := by
    apply BitVec.eq_of_toNat_eq
    rw [BitVec.toNat_shiftLeft, hsel, Nat.shiftLeft_eq, BitVec.toNat_ofNat]
  have hcount : e.bitCount + BitVec.ofNat 6 k = BitVec.ofInt 6 (e.bitCount.toInt + k) := by
    rw [BitVec.ofInt_add, BitVec.ofInt_toInt, BitVec.ofInt_natCast]
  have hsum : encSum e (splitOf e.range p) = e.lowValue.toNat + exactSplit e.range.toNat p.toNat *
      2 ^ (-e.bitCount.toInt).toNat := by
    rw [encSum, Nat.shiftLeft_eq, toNat_splitOf p hr]; rfl
  cases bit with
  | true =>
    have hbit := testBit_32_of_lt (encSum_lt (split := splitOf e.range p) hc)
    rw [hsum] at hbit
    simp only [if_true] at hks hrange
    simp only [encodeInterval, encSelect, encRenormalize, if_true, hks, hrange, hcount, carryAfter,
      hbit, hsum, encodedInterval, exactSum]
  | false =>
    have hno : decide (2 ^ 32 ≤ e.lowValue.toNat) = false := by
      have := e.lowValue.isLt
      simp only [decide_eq_false_iff_not]
      omega
    simp only [Bool.false_eq_true, if_false] at hks hrange
    simp only [encodeInterval, encSelect, encRenormalize, Bool.false_eq_true, if_false, hks, hrange, hcount,
      encodedInterval, exactSum, hno, Bool.or_false, BitVec.ofNat_toNat, BitVec.setWidth_eq]

/-! ## Step 0 -/

theorem whenEncActive_active {s : State} {body : Host.Outcome State Fault Refusal} (h : s.enc.phase = .active) :
    whenEncActive s body = body := by simp [whenEncActive, h]

theorem whenEncActive_fault {s : State} {body : Host.Outcome State Fault Refusal} (h : s.enc.phase = .fault) :
    whenEncActive s body = stickyOverflow s := by simp [whenEncActive, h]

theorem whenEncActive_refused {s : State} {body : Host.Outcome State Fault Refusal}
    (h : s.enc.phase = .idle ∨ s.enc.phase = .done) :
    whenEncActive s body = refuseCommand .sequenceError s := by
  rcases h with h | h <;> simp [whenEncActive, h]

/-! ## Step 4 -/

theorem wrote_emitDueByte (s : State) : Wrote s (emitDueByte s).final := by
  unfold emitDueByte
  split
  · exact wrote_bind (wrote_emitTopByte s) fun _ => wrote_withEnc rfl rfl rfl
  · exact Wrote.refl s

theorem emitDueByte_none {s : State} (h : byteDue s.enc = false) : emitDueByte s = .ok s := by
  simp [emitDueByte, h]

theorem emitDueByte_some {s : State} (h : byteDue s.enc = true) :
    emitDueByte s = (finalize (topByte s.enc) s).bind fun t =>
      .ok (t.withEnc { t.enc with lowValue := lowShifted t.enc, bitCount := t.enc.bitCount - 8 }) := by
  rw [emitDueByte, if_pos h, emitTopByte, Emit.bind_assoc]
  rfl

/-! ## Everything a command of the encoder can do -/

/-- `ENCODE_BOOL` answers; what it does is one of four things. -/
theorem execEncodeBool_cases (bit : Bool) (p : Byte) (s : State) :
    (s.enc.phase = .fault ∧ execEncodeBool bit p s = stickyOverflow s) ∨
    ((s.enc.phase = .idle ∨ s.enc.phase = .done) ∧
      execEncodeBool bit p s = refuseCommand .sequenceError s) ∨
    (s.enc.phase = .active ∧ ∃ t, emitDueByte (s.withEnc (encodeInterval bit p s.enc)) = .ok t ∧
      execEncodeBool bit p s = respond .ok 0 t) ∨
    (s.enc.phase = .active ∧ ∃ t, emitDueByte (s.withEnc (encodeInterval bit p s.enc)) = .overflow t ∧
      execEncodeBool bit p s = takeOverflow t) := by
  cases h : s.enc.phase with
  | fault => exact .inl ⟨rfl, whenEncActive_fault h⟩
  | idle => exact .inr (.inl ⟨.inl rfl, whenEncActive_refused (.inl h)⟩)
  | done => exact .inr (.inl ⟨.inr rfl, whenEncActive_refused (.inr h)⟩)
  | active =>
    have := whenEncActive_active (body :=
      (emitDueByte (s.withEnc (encodeInterval bit p s.enc))).finish (respond .ok 0)) h
    cases hx : emitDueByte (s.withEnc (encodeInterval bit p s.enc)) with
    | ok t => exact .inr (.inr (.inl ⟨rfl, t, rfl, by rw [execEncodeBool, this, hx]; rfl⟩))
    | overflow t => exact .inr (.inr (.inr ⟨rfl, t, rfl, by rw [execEncodeBool, this, hx]; rfl⟩))

/-- `STOP_ENCODE` answers; what it does is one of four things. -/
theorem execStopEncode_cases (s : State) :
    (s.enc.phase = .fault ∧ execStopEncode s = stickyOverflow s) ∨
    ((s.enc.phase = .idle ∨ s.enc.phase = .done) ∧ execStopEncode s = refuseCommand .sequenceError s) ∨
    (s.enc.phase = .active ∧ ∃ t, (emitTopBytes Config.flushBytes s).bind drain = .ok t ∧
      execStopEncode s = respond .ok t.enc.outputCursor (t.withEnc { t.enc with phase := .done })) ∨
    (s.enc.phase = .active ∧ ∃ t, (emitTopBytes Config.flushBytes s).bind drain = .overflow t ∧
      execStopEncode s = takeOverflow t) := by
  cases h : s.enc.phase with
  | fault => exact .inl ⟨rfl, whenEncActive_fault h⟩
  | idle => exact .inr (.inl ⟨.inl rfl, whenEncActive_refused (.inl h)⟩)
  | done => exact .inr (.inl ⟨.inr rfl, whenEncActive_refused (.inr h)⟩)
  | active =>
    have := whenEncActive_active (body := ((emitTopBytes Config.flushBytes s).bind drain).finish fun t =>
      respond .ok t.enc.outputCursor (t.withEnc { t.enc with phase := .done })) h
    cases hx : (emitTopBytes Config.flushBytes s).bind drain with
    | ok t => exact .inr (.inr (.inl ⟨rfl, t, rfl, by rw [execStopEncode, this, hx]; rfl⟩))
    | overflow t => exact .inr (.inr (.inr ⟨rfl, t, rfl, by rw [execStopEncode, this, hx]; rfl⟩))

theorem wrote_stop (s : State) : Wrote s ((emitTopBytes Config.flushBytes s).bind drain).final :=
  wrote_bind (wrote_emitTopBytes _ s) wrote_drain

end Sys2Proof.Machine
end

