-- ==== Sys2Proof/Laws/PerInstr.lean ====
section
/-! SUPPORT. One fact about every command as syntax, command by command: its word lies in its row of the opcode
table, and the call it is written as has every operand in range (rules R82, R84, R89). -/

namespace Sys2Proof.Laws.EncodingMatchesRow

/-- The word of the command matches its row, and the command is written as a well-formed call. -/
def Statement (i : Instr) : Prop :=
  encode i &&& (opcodeRow i).mask = (opcodeRow i).pattern ∧ i.toCall.wf = true

theorem startEncode (a b : Word) : Statement (.startEncode a b) := by
  have ha := a.isLt
  have hb := b.isLt
  exact ⟨(and_mask_eq_iff _ 0).2 (fields_assemble 0 _ _ _ _).1,
    by simp only [Instr.toCall, Call.wf, Call.wordOk, Bool.and_eq_true, decide_eq_true_eq]; omega⟩

theorem encodeBool (bit : Bool) (p : Byte) : Statement (.encodeBool bit p) := by
  have hb := bit.toNat_lt
  have hp := p.isLt
  exact ⟨(and_mask_eq_iff _ 1).2 (fields_assemble 1 _ _ _ _).1,
    by simp only [Instr.toCall, Call.wf, Call.bitOk, Call.probOk, Bool.and_eq_true, decide_eq_true_eq]; omega⟩

theorem stopEncode : Statement .stopEncode :=
  ⟨(and_mask_eq_iff _ 2).2 (fields_assemble 2 _ _ _ _).1, rfl⟩

theorem startDecode (a n : Word) : Statement (.startDecode a n) := by
  have ha := a.isLt
  have hn := n.isLt
  exact ⟨(and_mask_eq_iff _ 3).2 (fields_assemble 3 _ _ _ _).1,
    by simp only [Instr.toCall, Call.wf, Call.wordOk, Bool.and_eq_true, decide_eq_true_eq]; omega⟩

theorem decodeBool (p : Byte) : Statement (.decodeBool p) := by
  have hp := p.isLt
  exact ⟨(and_mask_eq_iff _ 4).2 (fields_assemble 4 _ _ _ _).1,
    by simp only [Instr.toCall, Call.wf, Call.probOk, decide_eq_true_eq]; omega⟩

theorem norm (r : Byte) : Statement (.norm r) := by
  have hr := r.isLt
  exact ⟨(and_mask_eq_iff _ 5).2 (fields_assemble 5 _ _ _ _).1,
    by simp only [Instr.toCall, Call.wf, Call.probOk, decide_eq_true_eq]; omega⟩

end Sys2Proof.Laws.EncodingMatchesRow
end

