-- ==== Sys2Proof/Laws/Port.lean ====
section
/-! SUPPORT. What the port and the step do, by the action at the head of the host's script (rules R14, R69, R85,
R250). -/

namespace Sys2Proof.Machine

/-! ## A command word -/

theorem runCommand_decoded {w : CommandWord} {i : Instr} (s : State) (h : decode w = .ok i) :
    runCommand w s = exec i s := by rw [runCommand, h]

theorem runCommand_reserved {w : CommandWord} {e : DecodeError} (s : State) (h : decode w = .error e) :
    runCommand w s = refuseCommand .illegalOp s := by
  rw [runCommand, h]; cases e; rfl

/-! ## An access of the host: memory alone can change -/

@[simp] theorem hostAccess_enc (a : HostAccess) (s : State) : (hostAccess a s).enc = s.enc := by cases a <;> rfl
@[simp] theorem hostAccess_dec (a : HostAccess) (s : State) : (hostAccess a s).dec = s.dec := by cases a <;> rfl
@[simp] theorem hostAccess_host (a : HostAccess) (s : State) : (hostAccess a s).host = s.host := by cases a <;> rfl
@[simp] theorem hostAccess_responses (a : HostAccess) (s : State) :
    (hostAccess a s).responses = s.responses := by cases a <;> rfl
@[simp] theorem hostAccess_streamStart (a : HostAccess) (s : State) :
    (hostAccess a s).streamStart = s.streamStart := by cases a <;> rfl

/-! ## A reset during a command, an access during a command -/

theorem resetDuringCommand_next {w : CommandWord} {k : Nat} {s u : State} (h : runCommand w s = .next u) :
    resetDuringCommand w k s = .next (resetBlock (s.withMem
      (copyBytes u.mem (min k (bytesWritten w s u)) s.enc.outputCursor.toNat s.mem))) := by
  rw [resetDuringCommand, h]

theorem commandWithHostAccess_apart {w : CommandWord} {a : HostAccess} {s u : State}
    (h : runCommand w s = .next u) (ha : races w s u a.addr = false) :
    commandWithHostAccess w a s = .next (hostAccess a u) := by
  simp [commandWithHostAccess, h, ha]

theorem commandWithHostAccess_race {w : CommandWord} {a : HostAccess} {s u : State}
    (h : runCommand w s = .next u) (ha : races w s u a.addr = true) :
    commandWithHostAccess w a s = .fault (.hostAccessRace a.addr) := by
  simp [commandWithHostAccess, h, ha]

/-! ## A step -/

/-- A step that answers a next state did one of six things. -/
theorem step_next_cases {s t : State} (h : step s = .next t) :
    (s.host = [] ∧ t = s) ∨
    (∃ w rest, s.host = .command w :: rest ∧ runCommand w (s.withHost rest) = .next t) ∨
    (∃ a rest, s.host = .access a :: rest ∧ t = hostAccess a (s.withHost rest)) ∨
    (∃ rest, s.host = .reset :: rest ∧ t = resetBlock (s.withHost rest)) ∨
    (∃ w k rest u, s.host = .resetDuring w k :: rest ∧ runCommand w (s.withHost rest) = .next u ∧
      t = resetBlock ((s.withHost rest).withMem
        (copyBytes u.mem (min k (bytesWritten w (s.withHost rest) u)) s.enc.outputCursor.toNat s.mem))) ∨
    (∃ w a rest u, s.host = .commandWithAccess w a :: rest ∧ runCommand w (s.withHost rest) = .next u ∧
      races w (s.withHost rest) u a.addr = false ∧ t = hostAccess a u) := by
  unfold step at h
  cases hh : s.host with
  | nil => rw [hh] at h; cases h; exact .inl ⟨rfl, rfl⟩
  | cons a rest =>
    rw [hh] at h
    cases a with
    | command w => exact .inr (.inl ⟨w, rest, rfl, h⟩)
    | access x => cases h; exact .inr (.inr (.inl ⟨x, rest, rfl, rfl⟩))
    | reset => cases h; exact .inr (.inr (.inr (.inl ⟨rest, rfl, rfl⟩)))
    | resetDuring w k =>
      simp only [runAction, resetDuringCommand] at h
      split at h <;> cases h
      next u hu => exact .inr (.inr (.inr (.inr (.inl ⟨w, k, rest, u, rfl, hu, rfl⟩))))
    | commandWithAccess w x =>
      simp only [runAction, commandWithHostAccess] at h
      split at h
      next u hu =>
        split at h
        next ht => cases h
        next ht =>
          cases h
          exact .inr (.inr (.inr (.inr (.inr ⟨w, x, rest, u, rfl, hu, by simpa using ht, rfl⟩))))
      · cases h
      · cases h

end Sys2Proof.Machine
end

