-- ==== Sys2Proof/Tests/Slice0.lean ====
section
/-! SUPPORT. The model's own tests: ill-formed calls are refused, words written out from the spec's encoding
decode to their commands, one step of each command gives what 95_test_vectors.md says, and for each obligation
with hypotheses a concrete state and operands that meet them. -/

namespace Sys2Proof.Machine.Tests

/-! ## Small states -/

/-- An `ACTIVE` encoder context. -/
def encoderAt (range : Byte) (low : Word) (count : Int) (carry valid : Bool) (held : Byte) (run cursor last : Word) :
    Encoder where
  range := range
  lowValue := low
  bitCount := BitVec.ofInt 6 count
  pendingCarry := carry
  pendingValid := valid
  pendingByte := held
  run := run
  outputCursor := cursor
  outputEnd := last
  phase := .active

/-- An `ACTIVE` decoder context. -/
def decoderAt (range : Byte) (value : Word) (count : Int) (base cursor last : Word) : Decoder where
  range := range
  value := value
  bitCount := BitVec.ofInt 5 count
  exhausted := false
  phase := .active
  inputBase := base
  inputCursor := cursor
  inputEnd := last

/-- The state after reset with this encoder. -/
def withEncoder (e : Encoder) : State := State.reset.withEnc e

/-- The state after reset with this decoder and these bytes in memory. -/
def withDecoder (d : Decoder) (m : Memory) : State := (State.reset.withDec d).withMem m

/-- The next state of an outcome. -/
def nextState : Host.Outcome State Fault Refusal → Option State
  | .next t => some t
  | .fault _ => none
  | .refused _ => none

/-- The outcome is a next state with this property. -/
def nextWith (o : Host.Outcome State Fault Refusal) (p : State → Bool) : Bool := (nextState o).any p

theorem exists_next {o : Host.Outcome State Fault Refusal} {p : State → Bool} (h : nextWith o p = true) :
    ∃ t, o = .next t ∧ p t = true := by
  cases o with
  | next t => exact ⟨t, rfl, by simpa [nextWith, nextState] using h⟩
  | fault f => cases h
  | refused r => cases h

/-- What the obligations about a byte that becomes due assume of the state and the operands. -/
def Due (bit : Bool) (p : Byte) (k : Nat) (s : State) : Prop :=
  s.enc.phase = .active ∧ 2 ≤ s.enc.range.toNat ∧ -24 ≤ s.enc.bitCount.toInt ∧ s.enc.bitCount.toInt < 0 ∧
    Normalizes (selectedRange bit s.enc.range.toNat p.toNat) k ∧ 0 ≤ s.enc.bitCount.toInt + k

/-- What the obligations about `STOP_ENCODE` assume of the state. -/
def StopReady (s : State) : Prop := s.enc.phase = .active ∧ (s.enc.pendingValid = false → s.enc.run = 0)

/-- What the obligations about `DECODE_BOOL` with 8 valid bits assume of the state and the operands. -/
def Loaded (p : Byte) (k : Nat) (s : State) : Prop :=
  s.dec.phase = .active ∧ 2 ≤ s.dec.range.toNat ∧ 0 ≤ s.dec.bitCount.toInt ∧ s.dec.bitCount.toInt ≤ 7 ∧
    Normalizes (selectedRange (decodedBit p s.dec) s.dec.range.toNat p.toNat) k

/-- The last response is this one. -/
def answered (r : Response) (s : State) : Bool := s.responses.getLast? == some r

/-! ## Ill-formed calls (rules R82, R223) -/

theorem test_refuses_wide_buffer_start : (Call.startEncode (2 ^ 32) 0).toInstr = none := by decide
theorem test_refuses_wide_buffer_end : (Call.startEncode 0 (2 ^ 32)).toInstr = none := by decide
theorem test_refuses_bit_two : (Call.encodeBool 2 128).toInstr = none := by decide
theorem test_refuses_encode_probability_256 : (Call.encodeBool 1 256).toInstr = none := by decide
theorem test_refuses_wide_buffer : (Call.startDecode (2 ^ 32) 4).toInstr = none := by decide
theorem test_refuses_wide_length : (Call.startDecode 0 (2 ^ 32)).toInstr = none := by decide
theorem test_refuses_decode_probability_256 : (Call.decodeBool 256).toInstr = none := by decide
theorem test_refuses_norm_256 : (Call.norm 256).toInstr = none := by decide
theorem test_accepts_extremes :
    (Call.encodeBool 1 255).toInstr = some (.encodeBool true 255) ∧
    (Call.startDecode (2 ^ 32 - 1) 0).toInstr = some (.startDecode 0xFFFFFFFF 0) := by decide

/-! ## Words written out from 30_encoding.md: op, bit, prob, arg0, arg1 (rules R81, R84, R90) -/

theorem test_decode_start_encode :
    decode (0b000#3 ++ 0b0#1 ++ 0x00#8 ++ 0x00001000#32 ++ 0x00001010#32) = .ok (.startEncode 0x1000 0x1010) := by decide
theorem test_decode_start_encode_unused_fields :
    decode 0x1550000100000001010#76 = .ok (.startEncode 0x1000 0x1010) := by decide
theorem test_decode_encode_bool :
    decode (0b001#3 ++ 0b1#1 ++ 0x80#8 ++ 0x00000000#32 ++ 0x00000000#32) = .ok (.encodeBool true 128) := by decide
theorem test_decode_encode_bool_zero : decode 0x24D0000000000000000#76 = .ok (.encodeBool false 77) := by decide
theorem test_decode_stop_encode :
    decode (0b010#3 ++ 0b0#1 ++ 0x00#8 ++ 0x00000000#32 ++ 0x00000000#32) = .ok .stopEncode := by decide
theorem test_decode_start_decode :
    decode (0b011#3 ++ 0b0#1 ++ 0x00#8 ++ 0x00000300#32 ++ 0x00000003#32) = .ok (.startDecode 0x300 3) := by decide
theorem test_decode_decode_bool :
    decode (0b100#3 ++ 0b0#1 ++ 0xFF#8 ++ 0x00000000#32 ++ 0x00000000#32) = .ok (.decodeBool 255) := by decide
theorem test_decode_norm :
    decode (0b101#3 ++ 0b1#1 ++ 0x05#8 ++ 0xFFFFFFFF#32 ++ 0xFFFFFFFF#32) = .ok (.norm 5) := by decide
theorem test_decode_reserved :
    decode 0xC000000000000000000#76 = .error (.reservedOp 6) ∧
    decode 0xFFFFFFFFFFFFFFFFFFF#76 = .error (.reservedOp 7) := by decide
theorem test_table_words :
    decodeTableWord 80 0x28000000000000000000 = none ∧
    decodeTableWord 76 0x2800000000000000000 = some (.encodeBool false 128) ∧
    decodeTableWord 80 0xAC80000000000000000 = some (.norm 200) ∧
    decodeTableWord 76 0xE000000000000000000 = none := by decide

/-! ## Responses (rules R86, R87, R89, R90) -/

theorem test_response_words :
    (Response.mk .sequenceError true 0).word = 0x500000000#36 ∧
    (Response.mk .illegalOp false 0).word = 0x600000000#36 ∧
    (Response.mk .illegalOperand false 0).word = 0x800000000#36 := by decide

/-! ## One step of each command (95_test_vectors.md) -/

/-- V-X6: unused fields are ignored. -/
theorem test_start_encode :
    nextWith (runCommand 0x1550000100000001010#76 State.reset)
      (fun t => t.enc == encoderAt 255 0 (-24) false false 0 0 0x1000 0x1010 && answered ⟨.ok, false, 0⟩ t) := by decide

/-- V-E1f. -/
theorem test_encode_bool_interval :
    nextWith (exec (.encodeBool true 128) (withEncoder (encoderAt 255 0 (-24) false false 0 0 0 16)))
      (fun t => t.enc == encoderAt 254 0x80000000 (-23) false false 0 0 0 16 && answered ⟨.ok, false, 0⟩ t) := by decide

/-- V-E9, the fourth `ENCODE_BOOL 0, 128`: the carry ripples through a run and the held bytes are written. -/
theorem test_encode_bool_carry :
    nextWith (exec (.encodeBool false 128) (withEncoder (encoderAt 164 0x000015C0 (-1) true true 0x7F 1 0 64)))
      (fun t => t.enc == encoderAt 164 0x0015C000 (-8) false true 0x00 0 2 64 && bytesAt t.mem 0 2 == [0x80, 0x00]) := by
  decide

/-- V-E8: `STOP_ENCODE` with a carry pending. -/
theorem test_stop_encode_carry :
    nextWith (exec .stopEncode (withEncoder (encoderAt 164 0x000015C0 (-4) true true 0x7F 1 0 64)))
      (fun t => bytesAt t.mem 0 6 == [0x80, 0x00, 0x00, 0x00, 0x15, 0xC0] && answered ⟨.ok, false, 6⟩ t) := by decide

/-- V-E7: `STOP_ENCODE` with a run. -/
theorem test_stop_encode_run :
    nextWith (exec .stopEncode (withEncoder (encoderAt 128 0xFFFFE000 (-6) false true 0xFE 2 0 16)))
      (fun t => bytesAt t.mem 0 7 == [0xFE, 0xFF, 0xFF, 0xFF, 0xFF, 0xE0, 0x00] && answered ⟨.ok, false, 7⟩ t) := by decide

/-- The worked example of rule R161. -/
theorem test_start_decode :
    nextWith (runCommand 0x6000000100000000004#76 State.reset)
      (fun t => t.dec == decoderAt 255 0 (-8) 0x1000 0 4 && answered ⟨.ok, false, 0⟩ t) := by decide

/-- V-D8: two reads, the second at the wrapped address. -/
theorem test_decode_bool_wraps :
    nextWith (exec (.decodeBool 128)
        (withDecoder (decoderAt 255 0 (-8) 0xFFFFFFFF 0 2) [(0, 0xA0), (0xFFFFFFFF, 0xAF)]))
      (fun t => t.dec == decoderAt 254 0x5F400000 7 0xFFFFFFFF 2 2 && answered ⟨.ok, false, 1⟩ t) := by decide

/-- V-D7, call 3: the shift loses a bit. -/
theorem test_decode_bool_loses_a_bit :
    nextWith (exec (.decodeBool 255)
        (withDecoder (decoderAt 253 0xFEFE0000 7 0x300 2 3) [(0x300, 0xFF), (0x301, 0xFF), (0x302, 0xFF)]))
      (fun t => t.dec == decoderAt 128 0x7F000000 0 0x300 2 3 && answered ⟨.ok, false, 1⟩ t) := by decide

/-- V-N1. -/
theorem test_norm_one : nextWith (exec (.norm 1) State.reset) (answered ⟨.ok, false, 7⟩) := by decide
/-- V-N4. -/
theorem test_norm_zero : nextWith (exec (.norm 0) State.reset) (answered ⟨.illegalOperand, false, 0⟩) := by decide

/-- The canonical form of memory: a byte written as it reads already leaves no entry. -/
theorem test_memory_canonical :
    Memory.wf State.reset.mem = true ∧ writeMem [(3, 7)] 3 0 = [] ∧
    writeMem (writeMem [] 9 1) 2 5 = [(2, 5), (9, 1)] := by decide

/-! ## Witnesses: every hypothesis of every obligation can be met -/

/-- Each of the six rows of the opcode table has a word, and the words differ from one row to the next. -/
theorem witness_WordMatchesRowExactlyWhenDecoded :
    decode 0x0000000000000000000#76 = .ok (.startEncode 0 0) ∧
    (0x1FFFFFFFFFFFFFFFFFF#76 &&& 0xE000000000000000000#76 = 0x0000000000000000000#76) ∧
    (0x3FFFFFFFFFFFFFFFFFF#76 &&& 0xE000000000000000000#76 = 0x2000000000000000000#76) ∧
    (0x5FFFFFFFFFFFFFFFFFF#76 &&& 0xE000000000000000000#76 = 0x4000000000000000000#76) ∧
    (0x7FFFFFFFFFFFFFFFFFF#76 &&& 0xE000000000000000000#76 = 0x6000000000000000000#76) ∧
    (0x9FFFFFFFFFFFFFFFFFF#76 &&& 0xE000000000000000000#76 = 0x8000000000000000000#76) ∧
    (0xBFFFFFFFFFFFFFFFFFF#76 &&& 0xE000000000000000000#76 = 0xA000000000000000000#76) := by decide

theorem witness_UnusedFieldsHaveNoEffect :
    decode 0x4000000000000000000#76 = .ok .stopEncode ∧
    0x5FFFFFFFFFFFFFFFFFF#76 &&& (opcodeRow .stopEncode).used =
      0x4000000000000000000#76 &&& (opcodeRow .stopEncode).used := by decide

theorem witness_ReservedOpcodesAreAnsweredIllegalOp :
    (0xC000000000000000000#76 : CommandWord).toNat / 2 ^ 73 = 6 ∧
    (0xBFFFFFFFFFFFFFFFFFF#76 : CommandWord).toNat / 2 ^ 73 = 5 := by decide

theorem witness_OutOfRangeOperandsAreRefused :
    (Call.norm 256).wf = false ∧ (Call.norm 255).wf = true ∧ (Call.encodeBool 2 0).wf = false := by decide

theorem witness_EveryCommandIsAnsweredByOneResponse :
    (State.reset.withHost [.command 0xFFFFFFFFFFFFFFFFFFF#76]).host = [.command 0xFFFFFFFFFFFFFFFFFFF#76] := rfl

theorem witness_StepRunsTheDecodedCommand :
    (State.reset.withHost [.command 0xAC80000000000000000#76]).host = .command 0xAC80000000000000000#76 :: [] ∧
    decode 0xAC80000000000000000#76 = .ok (.norm 200) ∧
    decodeTableWord 80 0xAC80000000000000000 = some (.norm 200) := by decide

theorem witness_IdleBlockKeepsItsState : State.reset.host = [] := rfl

theorem witness_HostAccessBetweenCommandsIsPlainMemory :
    (State.reset.withHost [.access (.write 5 7)]).host = .access (.write 5 7) :: [] ∧
    Memory.wf (State.reset.withHost [.access (.write 5 7)]).mem = true ∧
    (State.reset.withHost [.access (.read 5)]).host = .access (.read 5) :: [] := by decide

theorem witness_ResetLeavesPhasesIdleAndMemoryUntouched :
    ((withEncoder (encoderAt 255 0 (-24) false false 0 0 0 16)).withHost [.reset]).host = .reset :: [] := rfl

/-- A `STOP_ENCODE` in flight, two of its seven writes done. -/
theorem witness_ResetInFlightKeepsAPrefixOfTheWrites :
    ((withEncoder (encoderAt 128 0xFFFFE000 (-6) false true 0xFE 2 0 16)).withHost
      [.resetDuring 0x4000000000000000000#76 2]).host = .resetDuring 0x4000000000000000000#76 2 :: [] ∧
    Memory.wf (withEncoder (encoderAt 128 0xFFFFE000 (-6) false true 0xFE 2 0 16)).mem = true ∧
    nextWith (runCommand 0x4000000000000000000#76 (withEncoder (encoderAt 128 0xFFFFE000 (-6) false true 0xFE 2 0 16)))
      (fun u => bytesWritten 0x4000000000000000000#76
        (withEncoder (encoderAt 128 0xFFFFE000 (-6) false true 0xFE 2 0 16)) u == 7) = true := by decide

/-- A decoding in progress beside a stream in progress whose buffer begins at 2 and ends at 16, its cursor at 5. -/
def liveState : State :=
  (((withEncoder (encoderAt 128 0xFFFFE000 (-6) false true 0xFE 2 5 16)).withStreamStart 2).withDec
    (decoderAt 254 0xFFFE0000 7 0xFFFFFFFF 1 2))

/-- The first and the last address of the two live buffers, the input wrapping around; the addresses just
outside them; and the buffer that the command itself makes live. -/
theorem witness_liveBuffers :
    (inLiveBuffer liveState 2 && inLiveBuffer liveState 15 && inLiveBuffer liveState 0xFFFFFFFF &&
      inLiveBuffer liveState 0 && !inLiveBuffer liveState 1 && !inLiveBuffer liveState 16 &&
      !inLiveBuffer liveState 0xFFFFFFFE && !inLiveBuffer State.reset 0) = true ∧
    nextWith (runCommand 0x0000000000400000008#76 State.reset)
      (fun u => inLiveBuffer u 4 && inLiveBuffer u 7 && !inLiveBuffer u 8) = true := by decide

/-- During a `NORM`: an access to a live address, and one to an address just outside. -/
theorem witness_HostAccessRaceHasNoOutcome :
    (liveState.withHost [.commandWithAccess 0xA050000000000000000#76 (.write 4 1)]).host =
        .commandWithAccess 0xA050000000000000000#76 (.write 4 1) :: [] ∧
    nextWith (runCommand 0xA050000000000000000#76 liveState)
      (fun u => !touches 0xA050000000000000000#76 liveState u 4 && races 0xA050000000000000000#76 liveState u 4 &&
        !races 0xA050000000000000000#76 liveState u 16) = true ∧
    nextWith (step (liveState.withHost [.commandWithAccess 0xA050000000000000000#76 (.write 16 1)]))
      (fun t => memRead t 16 == 1) = true ∧
    nextWith (step (liveState.withHost [.commandWithAccess 0xA050000000000000000#76 (.write 4 1)]))
      (fun _ => true) = false := by decide

/-- A `STOP_ENCODE` touches the bytes it writes, at or above the cursor. -/
theorem witness_CommandsTouchLiveBuffersAlone :
    liveState.Inv ∧
    nextWith (runCommand 0x4000000000000000000#76 liveState)
      (fun u => touches 0x4000000000000000000#76 liveState u 5 && touches 0x4000000000000000000#76 liveState u 11 &&
        !touches 0x4000000000000000000#76 liveState u 4 && !touches 0x4000000000000000000#76 liveState u 12) = true ∧
    nextWith (runCommand 0x8FF0000000000000000#76 (withDecoder (decoderAt 128 0x7F800000 1 0 2 7) []))
      (fun u => touches 0x8FF0000000000000000#76 (withDecoder (decoderAt 128 0x7F800000 1 0 2 7) []) u 2) = true :=
  ⟨⟨by decide, fun _ => ⟨by decide, by decide, by decide, by decide, by decide, by decide⟩,
      fun h => absurd h (by decide), fun _ => ⟨by decide, by decide, by decide, by decide, by decide⟩, by decide,
      by decide⟩, by decide, by decide⟩

theorem witness_NormAnswersTheNormalizingShift :
    Normalizes (1 : Byte).toNat 7 ∧ Normalizes (255 : Byte).toNat 0 ∧ Normalizes (127 : Byte).toNat 1 := by
  unfold Normalizes; decide

theorem witness_SplitLeavesNeitherPartEmpty : 2 ≤ (2 : Byte).toNat ∧ 2 ≤ (255 : Byte).toNat := by decide

/-- V-E1f. -/
theorem witness_EncodeBoolWithoutByteNarrowsTheInterval :
    Normalizes (selectedRange true 255 128) 1 ∧
    (withEncoder (encoderAt 255 0 (-24) false false 0 0 0 16)).enc.phase = .active ∧
    2 ≤ (encoderAt 255 0 (-24) false false 0 0 0 16).range.toNat ∧
    -24 ≤ (encoderAt 255 0 (-24) false false 0 0 0 16).bitCount.toInt ∧
    (encoderAt 255 0 (-24) false false 0 0 0 16).bitCount.toInt + (1 : Nat) < 0 := by
  unfold Normalizes; decide

/-- V-E7, steps 4 (the first byte) and 5 (a byte `0xFF`). -/
theorem witness_EncodeBoolHoldsAByteThatACarryCanReach :
    (Due true 255 7 (withEncoder (encoderAt 128 0xFEFFFC00 (-3) false false 0 0 0 16)) ∧
      (encodedInterval true 255 7 (encoderAt 128 0xFEFFFC00 (-3) false false 0 0 0 16)).pendingValid = false) ∧
    (Due true 255 7 (withEncoder (encoderAt 128 0xFFFFF800 (-4) false true 0xFE 0 0 16)) ∧
      (encodedInterval true 255 7 (encoderAt 128 0xFFFFF800 (-4) false true 0xFE 0 0 16)).pendingValid = true ∧
      (encodedInterval true 255 7 (encoderAt 128 0xFFFFF800 (-4) false true 0xFE 0 0 16)).pendingCarry = false ∧
      (encodedInterval true 255 7 (encoderAt 128 0xFFFFF800 (-4) false true 0xFE 0 0 16)).lowValue.toNat / 2 ^ 24 = 255 ∧
      (encodedInterval true 255 7 (encoderAt 128 0xFFFFF800 (-4) false true 0xFE 0 0 16)).run.toNat < 2 ^ 32 - 1) := by
  unfold Due Normalizes; decide

/-- V-E9 (a carry pending) and V-E3, step 5 (none), each with just enough room. -/
theorem witness_EncodeBoolReleasesTheHeldBytes :
    (Due false 128 1 (withEncoder (encoderAt 164 0x000015C0 (-1) true true 0x7F 1 0 2)) ∧
      (encodedInterval false 128 1 (encoderAt 164 0x000015C0 (-1) true true 0x7F 1 0 2)).pendingValid = true ∧
      (encodedInterval false 128 1 (encoderAt 164 0x000015C0 (-1) true true 0x7F 1 0 2)).pendingCarry = true ∧
      1 + (encodedInterval false 128 1 (encoderAt 164 0x000015C0 (-1) true true 0x7F 1 0 2)).run.toNat ≤
        room (withEncoder (encoderAt 164 0x000015C0 (-1) true true 0x7F 1 0 2)).enc) ∧
    (Due false 0 7 (withEncoder (encoderAt 128 0 (-4) false true 0x00 0 0 1)) ∧
      (encodedInterval false 0 7 (encoderAt 128 0 (-4) false true 0x00 0 0 1)).pendingValid = true ∧
      (encodedInterval false 0 7 (encoderAt 128 0 (-4) false true 0x00 0 0 1)).lowValue.toNat / 2 ^ 24 ≠ 255 ∧
      1 + (encodedInterval false 0 7 (encoderAt 128 0 (-4) false true 0x00 0 0 1)).run.toNat ≤
        room (withEncoder (encoderAt 128 0 (-4) false true 0x00 0 0 1)).enc) := by
  unfold Due Normalizes; decide

/-- V-E9 with one byte of room too few, and with none because the buffer's end lies below its start. -/
theorem witness_EncodeBoolOverflowStopsAtTheRefusedWrite :
    (Due false 128 1 (withEncoder (encoderAt 164 0x000015C0 (-1) true true 0x7F 1 0 1)) ∧
      (encodedInterval false 128 1 (encoderAt 164 0x000015C0 (-1) true true 0x7F 1 0 1)).pendingValid = true ∧
      (encodedInterval false 128 1 (encoderAt 164 0x000015C0 (-1) true true 0x7F 1 0 1)).pendingCarry = true ∧
      room (withEncoder (encoderAt 164 0x000015C0 (-1) true true 0x7F 1 0 1)).enc <
        1 + (encodedInterval false 128 1 (encoderAt 164 0x000015C0 (-1) true true 0x7F 1 0 1)).run.toNat) ∧
    (Due false 128 1 (withEncoder (encoderAt 164 0x000015C0 (-1) true true 0x7F 1 9 3)) ∧
      room (withEncoder (encoderAt 164 0x000015C0 (-1) true true 0x7F 1 9 3)).enc = 0) := by
  unfold Due Normalizes; decide

/-- V-E7, step 5, with the run counter at its end; and `STOP_ENCODE` with three bytes `0xFF` to come, at the
counts where the run is just too long and just not. -/
theorem witness_RunCounterOverflowsInsteadOfWrapping :
    (Due true 255 7 (withEncoder (encoderAt 128 0xFFFFF800 (-4) false true 0xFE 0xFFFFFFFF 0 16)) ∧
      (encodedInterval true 255 7 (encoderAt 128 0xFFFFF800 (-4) false true 0xFE 0xFFFFFFFF 0 16)).pendingValid = true ∧
      (encodedInterval true 255 7 (encoderAt 128 0xFFFFF800 (-4) false true 0xFE 0xFFFFFFFF 0 16)).pendingCarry = false ∧
      (encodedInterval true 255 7 (encoderAt 128 0xFFFFF800 (-4) false true 0xFE 0xFFFFFFFF 0 16)).lowValue.toNat /
        2 ^ 24 = 255 ∧
      (encodedInterval true 255 7 (encoderAt 128 0xFFFFF800 (-4) false true 0xFE 0xFFFFFFFF 0 16)).run.toNat =
        2 ^ 32 - 1) ∧
    (StopReady (withEncoder (encoderAt 128 0xFFFFE000 (-6) false true 0xFE 0xFFFFFFFE 0 16)) ∧
      stopOverflowsRun (encoderAt 128 0xFFFFE000 (-6) false true 0xFE 0xFFFFFFFE 0 16) = true ∧
      stopOverflowsRun (encoderAt 128 0xFFFFE000 (-6) false true 0xFE 0xFFFFFFFD 0 16) = false) := by
  unfold Due StopReady Normalizes; decide

/-- V-E7 with exactly the room it needs, and V-E2, a stream with nothing held. -/
theorem witness_StopEncodeStoresTheRestOfTheStream :
    (StopReady (withEncoder (encoderAt 128 0xFFFFE000 (-6) false true 0xFE 2 0 7)) ∧
      (stopReleases (encoderAt 128 0xFFFFE000 (-6) false true 0xFE 2 0 7)).length ≤
        room (withEncoder (encoderAt 128 0xFFFFE000 (-6) false true 0xFE 2 0 7)).enc) ∧
    (StopReady (withEncoder (encoderAt 255 0 (-24) false false 0 0 0 4)) ∧
      (stopReleases (encoderAt 255 0 (-24) false false 0 0 0 4)).length ≤
        room (withEncoder (encoderAt 255 0 (-24) false false 0 0 0 4)).enc) := by
  unfold StopReady; decide

theorem witness_StopEncodeOverflowStopsAtTheRefusedWrite :
    StopReady (withEncoder (encoderAt 128 0xFFFFE000 (-6) false true 0xFE 2 0 6)) ∧
    room (withEncoder (encoderAt 128 0xFFFFE000 (-6) false true 0xFE 2 0 6)).enc <
      (stopReleases (encoderAt 128 0xFFFFE000 (-6) false true 0xFE 2 0 6)).length ∧
    stopOverflowsRun (encoderAt 128 0xFFFFE000 (-6) false true 0xFE 2 0 6) = false := by
  unfold StopReady; decide

/-- V-D7, call 2, and the case where the last extra valid bits go. -/
theorem witness_DecodeBoolWithoutRefill :
    (Loaded 0 0 (withDecoder (decoderAt 254 0xFFFE0000 7 0x300 2 3) []) ∧
      ((0 : Nat) : Int) ≤ (decoderAt 254 0xFFFE0000 7 0x300 2 3).bitCount.toInt) ∧
    (Loaded 255 7 (withDecoder (decoderAt 253 0xFEFE0000 7 0x300 2 3) []) ∧
      ((7 : Nat) : Int) ≤ (decoderAt 253 0xFEFE0000 7 0x300 2 3).bitCount.toInt) := by
  unfold Loaded Normalizes; decide

/-- V-D2, call 2 (a byte is left), and the same at the end of the input. -/
theorem witness_DecodeBoolRefillsBelowTheValidBits :
    (Loaded 255 7 (withDecoder (decoderAt 128 0x7F800000 1 0 2 7) []) ∧
      (decoderAt 128 0x7F800000 1 0 2 7).bitCount.toInt < ((7 : Nat) : Int) ∧
      inputTaken (decoderAt 128 0x7F800000 1 0 2 7) = decoderAt 128 0x7F800000 1 0 3 7) ∧
    (Loaded 255 7 (withDecoder (decoderAt 128 0x7F800000 1 0 2 2) []) ∧
      (decoderAt 128 0x7F800000 1 0 2 2).bitCount.toInt < ((7 : Nat) : Int) ∧
      (inputTaken (decoderAt 128 0x7F800000 1 0 2 2)).exhausted = true) := by
  unfold Loaded Normalizes; decide

theorem witness_FirstDecodeBoolLoadsOneByteFirst :
    (decoderAt 255 0 (-8) 0 0 2).phase = .active ∧ (decoderAt 255 0 (-8) 0 0 2).bitCount.toInt = -8 ∧
    (decoderAt 255 0 (-8) 0 0 2).value = 0 := by decide

theorem decInv_started : DecInv (decoderAt 255 0 (-8) 0 0 2) :=
  ⟨by decide, by decide, by decide, by decide, by decide⟩

theorem decInv_running : DecInv (decoderAt 128 0x7F800000 1 0 2 7) :=
  ⟨by decide, by decide, by decide, by decide, by decide⟩

theorem witness_EveryDecodeBoolCompletes :
    ((withDecoder (decoderAt 255 0 (-8) 0 0 2) []).dec.phase = .active ∧ DecInv (decoderAt 255 0 (-8) 0 0 2)) ∧
    ((withDecoder (decoderAt 128 0x7F800000 1 0 2 7) []).dec.phase = .active ∧
      DecInv (decoderAt 128 0x7F800000 1 0 2 7)) :=
  ⟨⟨rfl, decInv_started⟩, rfl, decInv_running⟩

/-- The first call reads two bytes, a later one reads one. -/
theorem witness_DecodeBoolReadsTheBytesItsCursorPasses :
    DecInv (decoderAt 255 0 (-8) 0 0 2) ∧
    nextWith (exec (.decodeBool 128) (withDecoder (decoderAt 255 0 (-8) 0 0 2) [(0, 0xAF), (1, 0xA0)]))
      (fun t => t.dec.inputCursor == 2) = true ∧
    nextWith (exec (.decodeBool 255) (withDecoder (decoderAt 128 0x7F800000 1 0 2 7) [(2, 0xFF)]))
      (fun t => t.dec.inputCursor == 3) = true :=
  ⟨decInv_started, by decide, by decide⟩

theorem witness_OutOfSequenceCommandsAreRefused :
    State.reset.enc.phase = .idle ∧ State.reset.dec.phase = .idle ∧
    nextWith (exec .stopEncode (withEncoder (encoderAt 255 0 (-24) false false 0 0 0 4)))
      (fun t => t.enc.phase == .done) = true := by decide

/-- An overflow leads to `FAULT`; a reset and a `START_ENCODE` lead out of it. -/
theorem witness_FaultPhaseIsSticky :
    nextWith (exec .stopEncode (withEncoder (encoderAt 255 0 (-24) false false 0 0 0 3)))
      (fun t => t.enc.phase == .fault && nextWith (step (t.withHost [.reset])) (fun u => u.enc.phase != .fault) &&
        nextWith (step (t.withHost [.resetDuring 0x4000000000000000000#76 0])) (fun u => u.enc.phase != .fault) &&
        nextWith (step (t.withHost [.command 0x0000000000000000004#76])) (fun u => u.enc.phase != .fault) &&
        nextWith (step (t.withHost [.commandWithAccess 0x0000000000000000004#76 (.read 9)]))
          (fun u => u.enc.phase != .fault)) = true := by decide

/-- Every status is answered somewhere. -/
theorem witness_FirstApplicableCheckDecidesTheStatus :
    nextWith (runCommand 0xE000000000000000000#76 State.reset) (answered ⟨.illegalOp, false, 0⟩) = true ∧
    nextWith (runCommand 0x4000000000000000000#76 State.reset) (answered ⟨.sequenceError, false, 0⟩) = true ∧
    nextWith (runCommand 0xA000000000000000000#76 State.reset) (answered ⟨.illegalOperand, false, 0⟩) = true ∧
    nextWith (runCommand 0x4000000000000000000#76 (withEncoder (encoderAt 255 0 (-24) false false 0 0 0 3)))
      (answered ⟨.bufferOverflow, false, 3⟩) = true ∧
    nextWith (runCommand 0xAC80000000000000000#76 State.reset) (answered ⟨.ok, false, 0⟩) = true := by decide

/-- The same states answer each kind of `data`: the refused address, zero, the cursor, the bit, the shift. -/
theorem witness_DataFieldOfEveryResponse :
    nextWith (runCommand 0x4000000000000000000#76 (withEncoder (encoderAt 255 0 (-24) false false 0 0 0 3)))
      (answered ⟨.bufferOverflow, false, 3⟩) = true ∧
    nextWith (runCommand 0x4000000000000000000#76 (withEncoder (encoderAt 255 0 (-24) false false 0 0 0 4)))
      (answered ⟨.ok, false, 4⟩) = true ∧
    nextWith (runCommand 0x8800000000000000000#76 (withDecoder (decoderAt 255 0 (-8) 0 0 2) [(0, 0xAF), (1, 0xA0)]))
      (answered ⟨.ok, false, 1⟩) = true := by decide

/-- V-D3, call 6, sets the flag; a `START_DECODE` and a reset clear it. -/
theorem witness_ExhaustedFlagIsSticky :
    nextWith (exec (.decodeBool 255) (withDecoder (decoderAt 128 0x7F000000 5 0 6 6) []))
      (fun t => t.dec.exhausted && nextWith (step (t.withHost [.reset])) (fun u => !u.dec.exhausted) &&
        nextWith (step (t.withHost [.command 0x6000000000000000000#76])) (fun u => !u.dec.exhausted)) = true := by decide

/-- A command of each kind, and a decoder command over two memories that agree on the bytes it reads. -/
theorem witness_ContextsAreIndependent :
    nextWith (exec .stopEncode (withEncoder (encoderAt 255 0 (-24) false false 0 0 0 4))) (fun _ => true) = true ∧
    nextWith (exec (.norm 5) State.reset) (fun _ => true) = true ∧
    nextWith (exec (.decodeBool 128) (withDecoder (decoderAt 255 0 (-8) 0 0 2) [(0, 0xAF), (1, 0xA0)]))
      (fun _ => true) = true ∧
    nextWith (exec (.decodeBool 128) (withDecoder (decoderAt 255 0 (-8) 0 0 2) [(0, 0xAF), (1, 0xA0), (9, 1)]))
      (fun _ => true) = true ∧
    readMem [(0, 0xAF), (1, 0xA0)] 0 = readMem [(0, 0xAF), (1, 0xA0), (9, 1)] 0 ∧
    readMem [(0, 0xAF), (1, 0xA0)] 1 = readMem [(0, 0xAF), (1, 0xA0), (9, 1)] 1 := by decide

/-- Two states with one encoder and different memories. -/
theorem witness_EncoderDependsOnItsOwnRegistersAlone :
    Memory.wf [(2, 1)] = true ∧ Memory.wf [] = true ∧
    nextWith (exec .stopEncode (withEncoder (encoderAt 255 0 (-24) false false 0 0 0 4))) (fun _ => true) = true ∧
    nextWith (exec .stopEncode ((withEncoder (encoderAt 255 0 (-24) false false 0 0 0 4)).withMem [(2, 1)]))
      (fun _ => true) = true := by decide

/-- V-E9: two bytes are released, and none before the count runs out. -/
theorem witness_EncodeBoolStoresOnlyTheReleasedBytes :
    (encodeReleases false 128 (encoderAt 164 0x000015C0 (-1) true true 0x7F 1 0 64)).length = 2 ∧
    (encodeReleases false 128 (encoderAt 164 0x000015C0 (-2) true true 0x7F 1 0 64)).length = 0 ∧
    nextWith (exec (.encodeBool false 128) (withEncoder (encoderAt 164 0x000015C0 (-1) true true 0x7F 1 0 64)))
      (fun _ => true) = true := by decide

theorem witness_StopEncodeStoresOnlyTheReleasedBytes :
    StopReady (withEncoder (encoderAt 128 0xFFFFE000 (-6) false true 0xFE 2 0 6)) ∧
    stopOverflowsRun (encoderAt 128 0xFFFFE000 (-6) false true 0xFE 2 0 6) = false ∧
    min (stopReleases (encoderAt 128 0xFFFFE000 (-6) false true 0xFE 2 0 6)).length
      (room (encoderAt 128 0xFFFFE000 (-6) false true 0xFE 2 0 6)) = 6 ∧
    nextWith (exec .stopEncode (withEncoder (encoderAt 128 0xFFFFE000 (-6) false true 0xFE 2 0 6)))
      (fun _ => true) = true := by
  unfold StopReady; decide

/-- One address for each clause: at the end of the buffer, below the cursor, another phase, another command. -/
theorem witness_NoByteOutsideTheBufferIsEverWritten :
    ((encoderAt 128 0xFFFFE000 (-6) false true 0xFE 2 5 16).outputEnd.toNat ≤ 16 ∧
      4 < (encoderAt 128 0xFFFFE000 (-6) false true 0xFE 2 5 16).outputCursor.toNat ∧
      nextWith (exec .stopEncode (withEncoder (encoderAt 128 0xFFFFE000 (-6) false true 0xFE 2 5 16)))
        (fun _ => true) = true) ∧
    (State.reset.enc.phase ≠ .active ∧ nextWith (exec .stopEncode State.reset) (fun _ => true) = true) ∧
    nextWith (exec (.norm 5) State.reset) (fun _ => true) = true := by decide

theorem witness_RangeIsNormalizedAfterEveryStep :
    128 ≤ (encoderAt 164 0x000015C0 (-1) true true 0x7F 1 0 64).range.toNat ∧
    nextWith (exec (.encodeBool false 128) (withEncoder (encoderAt 164 0x000015C0 (-1) true true 0x7F 1 0 64)))
      (fun t => t.enc.phase == .active) = true ∧
    128 ≤ (decoderAt 255 0 (-8) 0 0 2).range.toNat ∧
    nextWith (exec (.decodeBool 128) (withDecoder (decoderAt 255 0 (-8) 0 0 2) []))
      (fun t => t.dec.phase == .active) = true := by decide

/-- The context after step 41 of V-E8: a carry is pending. -/
theorem encInv_carry : EncInv (encoderAt 164 0x000015C0 (-4) true true 0x7F 1 0 64) :=
  ⟨by decide, by decide, by decide, by decide, by decide, by decide⟩

/-- The context before step 41 of V-E8: the next bit 1 carries. -/
theorem encInv_before_carry : EncInv (encoderAt 188 0xFFFFF100 (-6) false true 0x7F 1 0 64) :=
  ⟨by decide, by decide, by decide, by decide, by decide, by decide⟩

/-- The context after `START_ENCODE`. -/
theorem encInv_started : EncInv (encoderAt 255 0 (-24) false false 0 0 0 64) :=
  ⟨by decide, by decide, by decide, by decide, by decide, by decide⟩

theorem witness_EveryStepKeepsTheInvariant :
    (((withEncoder (encoderAt 188 0xFFFFF100 (-6) false true 0x7F 1 0 64)).withDec (decoderAt 128 0x7F800000 1 0 2 7)).withHost
      [.command 0x3C80000000000000000#76]).Inv ∧
    nextWith (step (((withEncoder (encoderAt 188 0xFFFFF100 (-6) false true 0x7F 1 0 64)).withDec
      (decoderAt 128 0x7F800000 1 0 2 7)).withHost [.command 0x3C80000000000000000#76]))
      (fun t => t.enc == encoderAt 164 0x000015C0 (-4) true true 0x7F 1 0 64) = true :=
  ⟨⟨by decide, fun _ => encInv_before_carry, fun h => absurd h (by decide), fun _ => decInv_running, by decide, fun _ => .inl rfl⟩, by decide⟩

/-- V-E8, step 41 carries, and the carry is still pending after V-E9's next step. -/
theorem witness_ACarryNeverMeetsAnotherCarry :
    (EncInv (encoderAt 188 0xFFFFF100 (-6) false true 0x7F 1 0 64) ∧
      2 ^ 32 ≤ exactSum true 200 (encoderAt 188 0xFFFFF100 (-6) false true 0x7F 1 0 64)) ∧
    (EncInv (encoderAt 164 0x000015C0 (-4) true true 0x7F 1 0 64) ∧
      (encodeInterval false 128 (encoderAt 164 0x000015C0 (-4) true true 0x7F 1 0 64)).pendingCarry = true) :=
  ⟨⟨encInv_before_carry, by decide⟩, encInv_carry, by decide⟩

/-- The empty sequence in four bytes, and one bit. -/
theorem witness_DecodingReproducesTheEncodedBits :
    Memory.wf State.reset.mem = true ∧ (0x1000 : Word).toNat ≤ (0x1004 : Word).toNat ∧
    4 + (7 * ([] : List (Bool × Byte)).length - 16) / 8 ≤ (0x1004 : Word).toNat - (0x1000 : Word).toNat ∧
    4 + (7 * [(true, (128 : Byte))].length - 16) / 8 ≤ (0x1004 : Word).toNat - (0x1000 : Word).toNat := by decide

/-- V-E1f and `STOP_ENCODE`. -/
theorem witness_StreamIsTheLowerEndOfTheFinalInterval :
    ∃ t, runSteps 3 (State.reset.issue (encodeProgram 0 16 [(true, 128)])) = .next t ∧
      (t.enc.phase == .done && t.enc.outputCursor == 4 && bytesAt t.mem 0 4 == [0x80, 0, 0, 0]) = true :=
  exists_next (by decide)

theorem witness_DeferredWritesEqualBackwardPatching :
    ∃ t, runSteps 2 (State.reset.issue (encodeProgram 0 4 [])) = .next t ∧ (t.enc.phase == .done) = true :=
  exists_next (by decide)

theorem witness_InterleavedCommandsLeaveTheEncodingAlone :
    (∃ t, runSteps 3 (State.reset.issue [.startEncode 0 4, .norm 5, .stopEncode]) = .next t ∧
      (t.responses.length == 3) = true) ∧
    ∃ t, runSteps 2 (State.reset.issue ([.startEncode 0 4, .norm 5, .stopEncode].filter forEncoder)) = .next t ∧
      (t.responses.length == 2) = true :=
  ⟨exists_next (by decide), exists_next (by decide)⟩

end Sys2Proof.Machine.Tests
end

section
/-! PROOFS. A step at a command word, and at a table word issued as the next command (rules R14, R22). -/

namespace Sys2Proof.Machine

/-- The table's reading of a word adds only the bound of 76 bits to `decode`. -/
theorem decode_tableWord {nbits w : Nat} {i : Instr} (h : decodeTableWord nbits w = some i) :
    decode (tableWord nbits w) = .ok i := by
  unfold decodeTableWord at h
  split at h
  next =>
    cases hd : decode (tableWord nbits w) with
    | ok j => simpa [hd, Except.toOption] using h
    | error e => simp [hd, Except.toOption] at h
  next => cases h

theorem step_action {s : State} {a : HostAction} {rest : List HostAction} (h : s.host = a :: rest) :
    step s = runAction a (s.withHost rest) := by
  simp only [step, h]

/-- A command is one step (rule R14). -/
theorem step_decoded {s : State} {w : CommandWord} {i : Instr} {rest : List HostAction}
    (hs : s.host = .command w :: rest) (hw : decode w = .ok i) : step s = exec i (s.withHost rest) :=
  (step_action hs).trans (runCommand_decoded _ hw)

/-- Issuing a word only puts it before the script, and the step takes it off again (log entry 1, rule R22). -/
theorem step_withFetchWord {nbits w : Nat} {i : Instr} (s : State) (h : decodeTableWord nbits w = some i) :
    step (s.withFetchWord nbits w) = exec i s :=
  step_decoded (s := s.withFetchWord nbits w) (rest := s.host) rfl (decode_tableWord h)

/-- Settles O8: the step at a decoded command word, and its instance at an issued table word. -/
theorem stepRunsTheDecodedCommand : Obligations.StepRunsTheDecodedCommand :=
  ⟨fun _ _ _ _ hs hw => step_decoded hs hw, fun _ _ _ s h => step_withFetchWord s h⟩

end Sys2Proof.Machine
end

section
/-! PROOFS. The state after reset meets the machine's invariant (rules R55, R250). -/

namespace Sys2Proof.Machine

/-- With both contexts idle the invariant asks only for canonical memory and a clear flag; no other register
matters, so this serves `State.reset` and the reset input alike. -/
theorem inv_of_idle {s : State} (hm : Memory.wf s.mem = true) (he : s.enc.phase = .idle)
    (hd : s.dec.phase = .idle) (hx : s.dec.exhausted = false) : s.Inv where
  mem_wf := hm
  enc_active h := by rw [he] at h; cases h
  enc_done h := by rw [he] at h; cases h
  dec_active h := by rw [hd] at h; cases h
  dec_idle _ := hx
  stream h := by rw [he] at h; cases h

/-- Settles O42: the reset state is idle in both contexts, and its memory is empty. -/
theorem resetMeetsTheInvariant : Obligations.ResetMeetsTheInvariant :=
  inv_of_idle rfl rfl rfl rfl

end Sys2Proof.Machine
end

section
/-! PROOFS. `dec.exhausted`: the encoder's commands leave the decoder alone, `DECODE_BOOL` only sets the flag, and
so a step clears it only by `START_DECODE` or reset (rules R20, R43, R166). -/

namespace Sys2Proof.Machine

/-! ## What leaves the decoder context alone -/

/-- An answer, be it to a refused command, a sticky one or an overflow, changes no decoder register. -/
theorem respond_next_dec {status : Status} {data : Word} {s t : State} (h : respond status data s = .next t) :
    t.dec = s.dec := by
  cases h; rfl

/-- Finishing a command keeps the decoder as the procedure left it, where the continuation does. -/
theorem Emit.finish_next_dec {x : Emit} {f : State → Host.Outcome State Fault Refusal} {t : State}
    (h : x.finish f = .next t) (hf : ∀ u, f u = .next t → t.dec = u.dec) : t.dec = x.final.dec := by
  cases x with
  | ok u => exact hf u h
  | overflow u => exact respond_next_dec (s := enterFault u) h

/-- Outside `ACTIVE` an encoder command only answers, so its body alone could reach the decoder. -/
theorem whenEncActive_next_dec {s t : State} {body : Host.Outcome State Fault Refusal}
    (h : whenEncActive s body = .next t) (hb : body = .next t → t.dec = s.dec) : t.dec = s.dec := by
  cases hp : s.enc.phase with
  | active => rw [whenEncActive_active hp] at h; exact hb h
  | fault => rw [whenEncActive_fault hp] at h; exact respond_next_dec h
  | idle => rw [whenEncActive_refused (.inl hp)] at h; exact respond_next_dec h
  | done => rw [whenEncActive_refused (.inr hp)] at h; exact respond_next_dec h

theorem execEncodeBool_next_dec {bit : Bool} {p : Byte} {s t : State} (h : execEncodeBool bit p s = .next t) :
    t.dec = s.dec :=
  whenEncActive_next_dec h fun hb =>
    (Emit.finish_next_dec hb fun _ => respond_next_dec).trans (wrote_emitDueByte _).dec

theorem execStopEncode_next_dec {s t : State} (h : execStopEncode s = .next t) : t.dec = s.dec :=
  whenEncActive_next_dec h fun hb =>
    (Emit.finish_next_dec hb fun u hu =>
      respond_next_dec (s := u.withEnc { u.enc with phase := .done }) hu).trans (wrote_stop s).dec

theorem execNorm_next_dec {r : Byte} {s t : State} (h : execNorm r s = .next t) : t.dec = s.dec := by
  unfold execNorm at h
  split at h <;> exact respond_next_dec h

/-! ## What the flag can do -/

/-- `DECODE_BOOL` may set the flag and never clears it (rule R166). -/
theorem execDecodeBool_keeps_exhausted {p : Byte} {s t : State} (h : execDecodeBool p s = .next t)
    (hx : s.dec.exhausted = true) : t.dec.exhausted = true := by
  unfold execDecodeBool at h
  split at h
  · rw [respond_next_dec h]; exact hx
  · rw [respond_next_dec h]; exact (decodeBit_keeps s.mem p s.dec).2.2.2 hx

/-- A command that clears the flag is a `START_DECODE` (rule R43). -/
theorem exec_clears_exhausted {i : Instr} {s t : State} (h : exec i s = .next t) (hx : s.dec.exhausted = true)
    (ht : t.dec.exhausted = false) : ∃ a n, i = .startDecode a n := by
  have hne : t.dec ≠ s.dec := fun he => by rw [he, hx] at ht; cases ht
  cases i with
  | startEncode a b => exact absurd (respond_next_dec h) hne
  | encodeBool bit p => exact absurd (execEncodeBool_next_dec h) hne
  | stopEncode => exact absurd (execStopEncode_next_dec h) hne
  | startDecode a n => exact ⟨a, n, rfl⟩
  | decodeBool p => rw [execDecodeBool_keeps_exhausted h hx] at ht; cases ht
  | norm r => exact absurd (execNorm_next_dec h) hne

/-- A command word that clears the flag decodes to a `START_DECODE`; a reserved word changes nothing. -/
theorem runCommand_clears_exhausted {w : CommandWord} {s t : State} (h : runCommand w s = .next t)
    (hx : s.dec.exhausted = true) (ht : t.dec.exhausted = false) : ∃ a n, decode w = .ok (.startDecode a n) := by
  cases hw : decode w with
  | ok i =>
    rw [runCommand_decoded s hw] at h
    obtain ⟨a, n, rfl⟩ := exec_clears_exhausted h hx ht
    exact ⟨a, n, rfl⟩
  | error e =>
    rw [runCommand_reserved s hw] at h
    rw [respond_next_dec h, hx] at ht
    cases ht

/-- Settles O35, by the action of the outside world the step takes. -/
theorem exhaustedFlagIsSticky : Obligations.ExhaustedFlagIsSticky := by
  intro s t hx h ht
  obtain ⟨-, rfl⟩ | ⟨w, rest, hs, hr⟩ | ⟨a, rest, -, rfl⟩ | ⟨rest, hs, -⟩ | ⟨w, k, rest, -, hs, -, -⟩ |
    ⟨w, a, rest, u, hs, hr, -, rfl⟩ := step_next_cases h
  · rw [hx] at ht; cases ht
  · obtain ⟨b, n, hw⟩ := runCommand_clears_exhausted hr hx ht
    exact .inr (.inr ⟨w, b, n, rest, hw, .inl hs⟩)
  · rw [hostAccess_dec, State.withHost_dec, hx] at ht; cases ht
  · exact .inl ⟨rest, hs⟩
  · exact .inr (.inl ⟨w, k, rest, hs⟩)
  · rw [hostAccess_dec] at ht
    obtain ⟨b, n, hw⟩ := runCommand_clears_exhausted hr hx ht
    exact .inr (.inr ⟨w, b, n, rest, hw, .inr ⟨a, hs⟩⟩)

end Sys2Proof.Machine
end

section
/-! PROOFS. The host's accesses to memory: plain memory between commands, and during a command no outcome at an
address the command touches or in a live buffer (rules R65, R69, U4, U5). -/

namespace Sys2Proof.Machine

/-- Settles O10: the step is the access itself, and a write is read back where it landed and nowhere else. -/
theorem hostAccessBetweenCommandsIsPlainMemory : Obligations.HostAccessBetweenCommandsIsPlainMemory :=
  ⟨fun a v rest s hm hs => ⟨memWrite (s.withHost rest) a v, step_action hs, rfl,
      readMem_writeMem_same a.toNat v hm, fun _ hb => readMem_writeMem_other v s.mem hb⟩,
    fun _ _ _ hs => step_action hs⟩

/-! ## Windows of addresses and live buffers, in numbers -/

theorem inWindow_iff {start a : Word} {n : Nat} :
    inWindow start n a = true ↔ ∃ j : Nat, j < n ∧ a.toNat = (start.toNat + j) % 2 ^ 32 := by
  have hs := start.isLt
  have ha := a.isLt
  simp only [inWindow, decide_eq_true_eq, BitVec.toNat_sub]
  constructor
  · intro h
    exact ⟨_, h, by omega⟩
  · rintro ⟨j, hj, haj⟩
    omega

theorem inOutputBuffer_iff {s : State} {a : Word} :
    inOutputBuffer s a = true ↔ s.streamStart.toNat ≤ a.toNat ∧ a.toNat < s.enc.outputEnd.toNat := by
  simp only [inOutputBuffer, Bool.and_eq_true, decide_eq_true_eq, BitVec.le_def, BitVec.lt_def]

theorem inLiveBuffer_iff {s : State} {a : Word} :
    inLiveBuffer s a = true ↔
      (s.enc.phase = .active ∧ s.streamStart.toNat ≤ a.toNat ∧ a.toNat < s.enc.outputEnd.toNat) ∨
      (s.dec.phase = .active ∧
        ∃ j : Nat, j < s.dec.inputEnd.toNat ∧ a.toNat = (s.dec.inputBase.toNat + j) % 2 ^ 32) := by
  simp only [inLiveBuffer, inInputBuffer, Bool.or_eq_true, Bool.and_eq_true, beq_iff_eq, inOutputBuffer_iff,
    inWindow_iff]

theorem races_iff {w : CommandWord} {s u : State} {a : Word} :
    races w s u a = true ↔ touches w s u a = true ∨ ∃ v : State, (v = s ∨ v = u) ∧ inLiveBuffer v a = true := by
  simp only [races, Bool.or_eq_true, or_assoc, or_and_right, exists_or, exists_eq_left]

/-! ## The step at an access during a command -/

theorem step_race {s u : State} {w : CommandWord} {x : HostAccess} {rest : List HostAction}
    (hs : s.host = .commandWithAccess w x :: rest) (hu : runCommand w (s.withHost rest) = .next u)
    (hr : races w s u x.addr = true) : step s = .fault (.hostAccessRace x.addr) :=
  (step_action hs).trans (commandWithHostAccess_race hu hr)

theorem step_apart {s u : State} {w : CommandWord} {x : HostAccess} {rest : List HostAction}
    (hs : s.host = .commandWithAccess w x :: rest) (hu : runCommand w (s.withHost rest) = .next u)
    (hr : races w s u x.addr = false) : step s = .next (hostAccess x u) :=
  (step_action hs).trans (commandWithHostAccess_apart hu hr)

/-- Settles O13: each fault clause is one way to race, and outside all of them there is none. -/
theorem hostAccessRaceHasNoOutcome : Obligations.HostAccessRaceHasNoOutcome := by
  intro w x rest s u hs hu
  have hlive : ∀ v : State, v = s ∨ v = u → inLiveBuffer v x.addr = true →
      step s = .fault (.hostAccessRace x.addr) :=
    fun v hv hl => step_race hs hu (races_iff.2 (.inr ⟨v, hv, hl⟩))
  refine ⟨fun ht => step_race hs hu (races_iff.2 (.inl ht)), fun v hv => ⟨fun hp h₁ h₂ => ?_, fun j hp hj ha => ?_⟩,
    fun ht hout => step_apart hs hu ?_⟩
  · exact hlive v hv (inLiveBuffer_iff.2 (.inl ⟨hp, h₁, h₂⟩))
  · exact hlive v hv (inLiveBuffer_iff.2 (.inr ⟨hp, j, hj, ha⟩))
  · rw [← Bool.not_eq_true, races_iff, ht]
    rintro (h | ⟨v, hv, hl⟩)
    · cases h
    · obtain ⟨hout₁, hout₂⟩ := hout v hv
      obtain ⟨hp, h₁, h₂⟩ | ⟨hp, j, hj, ha⟩ := inLiveBuffer_iff.1 hl
      · exact absurd (hout₁ hp h₁) (by omega)
      · exact hout₂ hp j hj ha

end Sys2Proof.Machine
end

section
/-! PROOFS. The bytes `DECODE_BOOL` reads: each of its two `REFILL`s passes at most one byte and depends on that
byte alone (rules R64, R65, R67, R165, R166). -/

namespace Sys2Proof.Machine

/-! ## One `REFILL` -/

/-- The cursor does not wrap where a byte is left. -/
theorem toNat_inputCursor_succ {d : Decoder} (h : d.inputCursor.toNat < d.inputEnd.toNat) :
    (d.inputCursor + 1).toNat = d.inputCursor.toNat + 1 := by
  have := d.inputEnd.isLt
  rw [BitVec.toNat_add, show (1 : Word).toNat = 1 from rfl]
  omega

theorem refill_cursor_bounds (m : Memory) {d : Decoder} (h : d.inputCursor ≤ d.inputEnd) :
    d.inputCursor.toNat ≤ (refill m d).inputCursor.toNat ∧
      (refill m d).inputCursor.toNat ≤ d.inputCursor.toNat + 1 ∧ (refill m d).inputCursor ≤ d.inputEnd := by
  rw [BitVec.le_def] at h
  rw [BitVec.le_def]
  by_cases hd : d.bitCount.toInt < 0
  · rw [refill_due hd]
    unfold inputTaken
    split
    next hl =>
      simp only [toNat_inputCursor_succ hl]
      omega
    next => dsimp only; omega
  · rw [refill_loaded (by omega)]
    omega

/-- `REFILL` over another memory is the same, where the two agree on the byte the cursor passes, if any. -/
theorem refill_eq_of_agree {m m' : Memory} {d : Decoder}
    (hm : ∀ j : Nat, d.inputCursor.toNat ≤ j → j < (refill m d).inputCursor.toNat →
      readMem m' ((d.inputBase.toNat + j) % 2 ^ 32) = readMem m ((d.inputBase.toNat + j) % 2 ^ 32)) :
    refill m' d = refill m d := by
  rcases Int.lt_or_le d.bitCount.toInt 0 with hd | hd
  · have hbyte : inputByte m' d = inputByte m d := by
      unfold inputByte
      split
      next hl =>
        refine hm _ le_rfl ?_
        simp only [refill_due hd, inputTaken, if_pos hl, toNat_inputCursor_succ hl]
        omega
      next => rfl
    rw [refill_due hd, refill_due hd, hbyte]
  · rw [refill_loaded hd, refill_loaded hd]

/-! ## The whole command -/

/-- The subtraction and the shift, between the two `REFILL`s, leave the input alone. -/
theorem decRenormalize_decSelect_input (q : Byte) (d : Decoder) (r : Byte) :
    (decRenormalize (decSelect q d).2.1 r).inputBase = d.inputBase ∧
      (decRenormalize (decSelect q d).2.1 r).inputCursor = d.inputCursor ∧
      (decRenormalize (decSelect q d).2.1 r).inputEnd = d.inputEnd := by
  unfold decSelect
  split <;> exact ⟨rfl, rfl, rfl⟩

/-- `DECODE_BOOL` ends with a `REFILL` of a context `c` that has the input the first `REFILL` left; two memories
over which both `REFILL`s are the same decode the same. -/
theorem decodeBit_two_refills (m : Memory) (p : Byte) (d : Decoder) :
    ∃ c : Decoder, c.inputBase = d.inputBase ∧ c.inputCursor = (refill m d).inputCursor ∧ c.inputEnd = d.inputEnd ∧
      (decodeBit m p d).2 = refill m c ∧
      ∀ m', refill m' d = refill m d → refill m' c = refill m c → decodeBit m' p d = decodeBit m p d := by
  obtain ⟨-, -, hbase, hend, -⟩ := refill_keeps m d
  obtain ⟨hb, hc, he⟩ := decRenormalize_decSelect_input (splitOf (refill m d).range p) (refill m d)
    (decSelect (splitOf (refill m d).range p) (refill m d)).2.2
  refine ⟨_, hb.trans hbase, hc, he.trans hend, decodeBit_context m p d, fun m' h₁ h₂ => ?_⟩
  rw [decodeBit_eq, decodeBit_eq, h₁, h₂]

theorem exec_decodeBool_idle {s : State} (p : Byte) (h : s.dec.phase = .idle) :
    exec (.decodeBool p) s = refuseCommand .sequenceError s := by
  rw [exec, execDecodeBool, h]

theorem exec_decodeBool_active {s : State} (p : Byte) (h : s.dec.phase = .active) :
    exec (.decodeBool p) s = .next ((s.withDec (decodeBit s.mem p s.dec).2).withResponse
      ⟨.ok, (decodeBit s.mem p s.dec).2.exhausted, if (decodeBit s.mem p s.dec).1 then 1 else 0⟩) := by
  rw [exec, execDecodeBool, h]
  rfl

theorem decodeBit_cursor_bounds (m : Memory) (p : Byte) {d : Decoder} (h : d.inputCursor ≤ d.inputEnd) :
    d.inputCursor.toNat ≤ (decodeBit m p d).2.inputCursor.toNat ∧
      (decodeBit m p d).2.inputCursor.toNat ≤ d.inputCursor.toNat + 2 ∧
      (0 ≤ d.bitCount.toInt → (decodeBit m p d).2.inputCursor.toNat ≤ d.inputCursor.toNat + 1) ∧
      (decodeBit m p d).2.inputCursor.toNat ≤ d.inputEnd.toNat := by
  obtain ⟨c, -, hcur, hend, hctx, -⟩ := decodeBit_two_refills m p d
  obtain ⟨h₁, h₂, h₃⟩ := refill_cursor_bounds m h
  obtain ⟨h₄, h₅, h₆⟩ := refill_cursor_bounds m (d := c) (by rw [hcur, hend]; exact h₃)
  rw [hcur] at h₄ h₅
  rw [hend, BitVec.le_def] at h₆
  rw [hctx]
  refine ⟨by omega, by omega, fun hd => ?_, h₆⟩
  rwa [refill_loaded hd] at h₅

/-- `DECODE_BOOL` depends on the bytes its cursor passes and no others (rule R64). -/
theorem decodeBit_eq_of_agree {m m' : Memory} {p : Byte} {d : Decoder} (h : d.inputCursor ≤ d.inputEnd)
    (hm : ∀ j : Nat, d.inputCursor.toNat ≤ j → j < (decodeBit m p d).2.inputCursor.toNat →
      readMem m' ((d.inputBase.toNat + j) % 2 ^ 32) = readMem m ((d.inputBase.toNat + j) % 2 ^ 32)) :
    decodeBit m' p d = decodeBit m p d := by
  obtain ⟨c, hbase, hcur, hend, hctx, hsame⟩ := decodeBit_two_refills m p d
  obtain ⟨h₁, -, h₃⟩ := refill_cursor_bounds m h
  have hc : c.inputCursor ≤ c.inputEnd := by rw [hcur, hend]; exact h₃
  obtain ⟨h₄, -, -⟩ := refill_cursor_bounds m hc
  rw [hctx] at hm
  rw [hcur] at h₄
  refine hsame m' (refill_eq_of_agree fun j hj hj' => hm j hj (by omega)) (refill_eq_of_agree fun j hj hj' => ?_)
  rw [hcur] at hj
  rw [hbase]
  exact hm j (by omega) hj'

/-- Settles O29: the two `REFILL`s bound the cursor, and the bytes it passes decide everything. -/
theorem decodeBoolReadsTheBytesItsCursorPasses : Obligations.DecodeBoolReadsTheBytesItsCursorPasses := by
  intro p s t hp hinv ht
  rw [exec_decodeBool_active p hp] at ht
  obtain rfl := Host.Outcome.next.inj ht
  simp only [State.withResponse_dec, State.withDec_dec, State.withResponse_responses, State.withDec_responses]
  obtain ⟨h₁, h₂, h₃, h₄⟩ := decodeBit_cursor_bounds s.mem p hinv.cursor_le
  obtain ⟨-, hbase, hend, -⟩ := decodeBit_keeps s.mem p s.dec
  refine ⟨h₁, h₂, h₃, h₄, ⟨hbase, hend⟩, fun s' hdec hm => ?_⟩
  have heq : decodeBit s'.mem p s'.dec = decodeBit s.mem p s.dec := by
    rw [hdec]
    exact decodeBit_eq_of_agree hinv.cursor_le hm
  have ht' := exec_decodeBool_active p (s := s') (by rw [hdec]; exact hp)
  rw [heq] at ht'
  refine ⟨_, _, ht', ?_, rfl, ?_⟩
  · simp only [State.withResponse_dec, State.withDec_dec]
  · simp only [State.withResponse_responses, State.withDec_responses]

end Sys2Proof.Machine
end

section
/-! PROOFS. The bytes the encoder's commands store: a list released from the cursor upwards, as many as fit, and
nothing else of memory (rules R64, R65, R71, R130 to R133). -/

namespace Sys2Proof.Machine

/-! ## Two relations between the state before and the state after -/

/-- The memory and the registers of the output buffer are the same. -/
structure SameBuffer (s t : State) : Prop where
  mem : t.mem = s.mem
  cursor : t.enc.outputCursor = s.enc.outputCursor
  outputEnd : t.enc.outputEnd = s.enc.outputEnd

/-- The bytes `vs` have been stored from the cursor upwards, as many as fit the buffer (rule R131). -/
structure Released (vs : List Byte) (s t : State) : Prop where
  mem : t.mem = storeBytes s.mem s.enc.outputCursor.toNat (vs.take (room s.enc))
  cursor : t.enc.outputCursor.toNat = s.enc.outputCursor.toNat + min vs.length (room s.enc)
  outputEnd : t.enc.outputEnd = s.enc.outputEnd

theorem SameBuffer.refl (s : State) : SameBuffer s s := ⟨rfl, rfl, rfl⟩

theorem sameBuffer_withEnc {s : State} {e : Encoder} (hc : e.outputCursor = s.enc.outputCursor)
    (he : e.outputEnd = s.enc.outputEnd) : SameBuffer s (s.withEnc e) := ⟨rfl, hc, he⟩

theorem SameBuffer.room {s t : State} (h : SameBuffer s t) : room t.enc = room s.enc := by
  rw [Machine.room, Machine.room, h.cursor, h.outputEnd]

theorem SameBuffer.released {s t : State} (h : SameBuffer s t) : Released [] s t :=
  ⟨by rw [h.mem, List.take_nil, storeBytes_nil], by rw [h.cursor]; simp, h.outputEnd⟩

theorem Released.of_sameBuffer {vs : List Byte} {s s' t : State} (hr : Released vs s' t) (h : SameBuffer s s') :
    Released vs s t :=
  ⟨by rw [hr.mem, h.mem, h.cursor, h.room], by rw [hr.cursor, h.cursor, h.room], hr.outputEnd.trans h.outputEnd⟩

theorem Released.to_sameBuffer {vs : List Byte} {s t t' : State} (hr : Released vs s t) (h : SameBuffer t t') :
    Released vs s t' :=
  ⟨h.mem.trans hr.mem, by rw [h.cursor, hr.cursor], h.outputEnd.trans hr.outputEnd⟩

/-- Bytes that fit, then further ones. -/
theorem Released.after_stored {vs ws : List Byte} {s t : State} (h : vs.length ≤ room s.enc)
    (hr : Released ws (stored vs s) t) : Released (vs ++ ws) s t := by
  obtain ⟨hm, hc, he⟩ := hr
  rw [room_stored h, stored_enc, toNat_cursor_add h] at hm hc
  refine ⟨?_, ?_, he⟩
  · rw [hm, stored_mem, ← storeBytes_append, List.take_append, List.take_of_length_le h]
  · rw [hc, List.length_append]
    omega

/-- Bytes that do not fit: none after them is stored. -/
theorem released_of_room_lt {vs : List Byte} {s : State} (ws : List Byte) (h : room s.enc < vs.length) :
    Released (vs ++ ws) s (stored (vs.take (room s.enc)) s) := by
  have hl : (vs.take (room s.enc)).length = room s.enc := List.length_take_of_le (by omega)
  refine ⟨?_, ?_, rfl⟩
  · rw [stored_mem, List.take_append_of_le_length (by omega)]
  · rw [stored_enc, toNat_cursor_add (by omega), hl, List.length_append]
    omega

/-- What a procedure that keeps inside the buffer has written is some list of bytes. -/
theorem Wrote.released {s t : State} (h : Wrote s t) : ∃ vs, Released vs s t := by
  obtain ⟨vs, hl, hm, hc⟩ := h.bytes
  exact ⟨vs, by rw [hm, List.take_of_length_le hl], by rw [hc, Nat.min_eq_left hl], h.outputEnd⟩

/-! ## What is read back -/

/-- Outside the bytes stored memory reads as before; inside it reads as released. -/
theorem Released.reads {vs : List Byte} {s t : State} {n : Nat} (h : Released vs s t)
    (hn : n = min vs.length (room s.enc)) :
    (∀ a : Nat, a < s.enc.outputCursor.toNat ∨ s.enc.outputCursor.toNat + n ≤ a →
      readMem t.mem a = readMem s.mem a) ∧
    (Memory.wf s.mem = true → bytesAt t.mem s.enc.outputCursor.toNat n = vs.take n) := by
  have hlen : (vs.take (room s.enc)).length = n := by rw [List.length_take, hn, Nat.min_comm]
  have hroom := room_lt s.enc
  rw [h.mem]
  refine ⟨fun a ha => readMem_storeBytes_other (by omega), fun hwf => ?_⟩
  have hbytes := bytesAt_storeBytes (a := s.enc.outputCursor.toNat) (vs := vs.take (room s.enc)) hwf (by omega)
  rw [hlen] at hbytes
  rw [hbytes, hn, Nat.min_comm, ← List.take_eq_take_min]

/-! ## The procedures of the carry logic -/

/-- The held bytes are written, then a procedure that releases `ws`. -/
theorem released_writeAll_bind {vs ws : List Byte} {s : State} {f : State → Emit}
    (hf : Released ws (stored vs s) (f (stored vs s)).final) :
    Released (vs ++ ws) s ((writeAll vs s).bind f).final := by
  rw [writeAll_eq]
  split
  next h => exact hf.after_stored h
  next h => exact released_of_room_lt ws (by omega)

theorem released_writeAll_bind_keep {vs : List Byte} {s : State} {f : State → Emit}
    (hf : SameBuffer (stored vs s) (f (stored vs s)).final) : Released vs s ((writeAll vs s).bind f).final := by
  have h := released_writeAll_bind hf.released
  rwa [List.append_nil] at h

/-- A procedure that goes on with registers beside the output buffer alone. -/
theorem sameBuffer_bind {x : Emit} {f : State → Emit} (hf : ∀ t, SameBuffer t (f t).final) :
    SameBuffer x.final (x.bind f).final := by
  cases x with
  | ok t => exact hf t
  | overflow t => exact SameBuffer.refl t

/-- `FINALIZE`, by its cases: (A) and (C) release nothing, (B) and (D) the held bytes (rule R130). -/
theorem released_finalize (b : Byte) (s : State) : Released (releasedBy b s.enc) s (finalize b s).final := by
  cases hv : s.enc.pendingValid with
  | false =>
    have hnone : releasedBy b s.enc = [] := by simp [releasedBy, heldBytes, hv]
    rw [finalize_first hv, hnone]
    exact (sameBuffer_withEnc (by rfl) (by rfl)).released
  | true =>
    by_cases hb : s.enc.pendingCarry = true ∨ b ≠ 0xFF
    · have hheld : releasedBy b s.enc = heldBytes s.enc := by rw [releasedBy, if_pos (by simpa using hb)]
      rw [finalize_release hv hb, hheld]
      exact released_writeAll_bind_keep (sameBuffer_withEnc (by rfl) (by rfl))
    · obtain ⟨hc, rfl⟩ : s.enc.pendingCarry = false ∧ b = 0xFF := by simpa using hb
      have hnone : releasedBy 0xFF s.enc = [] := by simp [releasedBy, hc]
      rw [finalize_extend hv hc, hnone]
      split
      · exact (SameBuffer.refl s).released
      · exact (sameBuffer_withEnc (by rfl) (by rfl)).released

/-- Step 4 of `ENCODE_BOOL` (rule R123). -/
theorem released_emitDueByte (s : State) :
    Released (if byteDue s.enc then releasedBy (topByte s.enc) s.enc else []) s (emitDueByte s).final := by
  cases hdue : byteDue s.enc with
  | false =>
    rw [emitDueByte_none hdue]
    exact (SameBuffer.refl s).released
  | true =>
    rw [emitDueByte_some hdue]
    exact (released_finalize _ s).to_sameBuffer (sameBuffer_bind fun _ => sameBuffer_withEnc rfl rfl)

/-- `DRAIN` with no carry pending releases the held bytes (rule R132). -/
theorem released_drain {s : State} (hc : s.enc.pendingCarry = false) :
    Released (heldBytes s.enc) s (drain s).final := by
  cases hv : s.enc.pendingValid with
  | false =>
    have hnone : heldBytes s.enc = [] := by simp [heldBytes, hv]
    rw [drain_empty hv, hnone]
    exact (SameBuffer.refl s).released
  | true =>
    rw [drain_valid hv hc]
    exact released_writeAll_bind_keep (sameBuffer_withEnc (by rfl) (by rfl))

/-! ## The bytes of `low_value`, one `FINALIZE` after the other -/

/-- The first `n` bytes to leave `low_value` (rules R125, R133). -/
def topBytes : Nat → Encoder → List Byte
  | 0, _ => []
  | n + 1, e => topByte e :: topBytes n { e with lowValue := lowShifted e }

theorem length_topBytes (n : Nat) (e : Encoder) : (topBytes n e).length = n := by
  induction n generalizing e with
  | zero => rfl
  | succ n ih => rw [topBytes, List.length_cons, ih]

theorem topBytes_congr (n : Nat) {e e' : Encoder} (h : e.lowValue = e'.lowValue) : topBytes n e = topBytes n e' := by
  induction n generalizing e e' with
  | zero => rfl
  | succ n ih =>
    have htop : topByte e = topByte e' := by rw [topByte, topByte, h]
    have hlow : lowShifted e = lowShifted e' := by rw [lowShifted, lowShifted, h]
    rw [topBytes, topBytes, htop, ih (e' := { e' with lowValue := lowShifted e' }) hlow]

/-- The four bytes `STOP_ENCODE` finalizes are those of `low_value`. -/
theorem topBytes_flush (e : Encoder) : topBytes Config.flushBytes e = lowBytes e := by
  have hlow := e.lowValue.isLt
  simp only [Config.flushBytes, topBytes, lowBytes, List.cons.injEq, and_true]
  refine ⟨rfl, BitVec.eq_of_toNat_eq ?_, BitVec.eq_of_toNat_eq ?_, BitVec.eq_of_toNat_eq ?_⟩ <;>
    simp only [toNat_topByte, toNat_lowShifted, BitVec.extractLsb'_toNat, Nat.shiftRight_eq_div_pow] <;> omega

/-- The run counter can count the bytes `0xFF` that come first among `bs`, where there is a run to extend
(rule R130 (C)); before the first byte there is no run. -/
structure RunFits (bs : List Byte) (e : Encoder) : Prop where
  first : e.pendingValid = false → e.run = 0
  later : e.pendingValid = true → e.pendingCarry = false →
    e.run.toNat + (bs.takeWhile (· == 0xFF)).length < 2 ^ 32

/-- With no run yet, the counter can count any bytes that are fewer than `2^32`. -/
theorem runFits_of_run_zero {bs : List Byte} {e : Encoder} (h : e.run = 0) (hl : bs.length < 2 ^ 32) :
    RunFits bs e where
  first _ := h
  later _ _ := by
    have hle := (List.takeWhile_prefix (l := bs) (· == 0xFF)).length_le
    rw [h, show (0 : Word).toNat = 0 from rfl]
    omega

/-- A byte `0xFF` that extends the run is counted, and those behind it still can be. -/
theorem RunFits.run_succ {bs : List Byte} {e : Encoder} (h : RunFits (0xFF :: bs) e) (hv : e.pendingValid = true)
    (hc : e.pendingCarry = false) : (e.run + 1).toNat = e.run.toNat + 1 ∧ RunFits bs { e with run := e.run + 1 } := by
  have hfits := h.later hv hc
  rw [List.takeWhile_cons_of_pos rfl, List.length_cons] at hfits
  have hsucc : (e.run + 1).toNat = e.run.toNat + 1 := by
    rw [BitVec.toNat_add, show (1 : Word).toNat = 1 from rfl]
    omega
  exact ⟨hsucc, fun hv' => absurd (hv.symm.trans hv') (by decide), fun _ _ => by rw [hsucc]; omega⟩

theorem runFull_eq_false {e : Encoder} (h : (e.run + 1).toNat = e.run.toNat + 1) : runFull e = false := by
  rw [← Bool.not_eq_true, runFull, beq_iff_eq]
  intro hall
  rw [hall] at h
  exact absurd h (by decide)

theorem heldBytes_of_run_zero {e : Encoder} (hv : e.pendingValid = true) (hc : e.pendingCarry = false)
    (hr : e.run = 0) : heldBytes e = [e.pendingByte] := by
  simp [heldBytes, hv, hc, hr]

/-- Counting one more byte `0xFF` puts it behind the held ones. -/
theorem heldBytes_run_succ {e : Encoder} (hv : e.pendingValid = true) (hc : e.pendingCarry = false)
    (hr : (e.run + 1).toNat = e.run.toNat + 1) : heldBytes { e with run := e.run + 1 } = heldBytes e ++ [0xFF] := by
  simp only [heldBytes, hv, hc, hr, if_true, Bool.false_eq_true, if_false, List.replicate_succ', List.cons_append]

/-- The state with the top byte gone from `low_value`. -/
def dropTopByte (s : State) : State := s.withEnc { s.enc with lowValue := lowShifted s.enc }

theorem sameBuffer_dropTopByte (s : State) : SameBuffer s (dropTopByte s) := sameBuffer_withEnc rfl rfl

theorem emitTopBytes_succ_bind (n : Nat) (s : State) (f : State → Emit) :
    (emitTopBytes (n + 1) s).bind f =
      (finalize (topByte s.enc) s).bind fun t => (emitTopBytes n (dropTopByte t)).bind f := by
  rw [emitTopBytes, emitTopByte, Emit.bind_assoc, Emit.bind_assoc]
  rfl

/-- `n` times `FINALIZE` and the `DRAIN` release the held bytes and then `n` bytes of `low_value`, in order. -/
def DrainsInOrder (n : Nat) : Prop :=
  ∀ s : State, (n = 0 → s.enc.pendingCarry = false) → RunFits (topBytes n s.enc) s.enc →
    Released (heldBytes s.enc ++ topBytes n s.enc) s ((emitTopBytes n s).bind drain).final

theorem drainsInOrder_zero : DrainsInOrder 0 := fun _ hc _ => by
  simpa [topBytes, emitTopBytes] using released_drain (hc rfl)

/-- Between two `FINALIZE`s no carry is pending; `t` is then the state in which the top byte of `s` is held. -/
theorem DrainsInOrder.after_finalize {n : Nat} (h : DrainsInOrder n) {s t : State}
    (hl : t.enc.lowValue = s.enc.lowValue) (hc : t.enc.pendingCarry = false)
    (hfits : RunFits (topBytes n (dropTopByte s).enc) t.enc) :
    Released (heldBytes t.enc ++ topBytes n (dropTopByte s).enc) t
      ((emitTopBytes n (dropTopByte t)).bind drain).final := by
  have htop : topBytes n (dropTopByte s).enc = topBytes n (dropTopByte t).enc :=
    topBytes_congr n (show lowShifted s.enc = lowShifted t.enc by rw [lowShifted, lowShifted, hl])
  rw [htop] at hfits ⊢
  exact (h (dropTopByte t) (fun _ => hc) ⟨hfits.first, hfits.later⟩).of_sameBuffer (sameBuffer_dropTopByte t)

/-- Cases (A), (B) and (D) leave the top byte held alone. -/
theorem DrainsInOrder.after_hold {n : Nat} (h : DrainsInOrder n) (hn : n < 2 ^ 32) {s t : State}
    (hl : t.enc.lowValue = s.enc.lowValue) (hc : t.enc.pendingCarry = false) (hv : t.enc.pendingValid = true)
    (hr : t.enc.run = 0) (hb : t.enc.pendingByte = topByte s.enc) :
    Released (topBytes (n + 1) s.enc) t ((emitTopBytes n (dropTopByte t)).bind drain).final := by
  have hrel := h.after_finalize hl hc (runFits_of_run_zero hr (by rw [length_topBytes]; exact hn))
  rwa [heldBytes_of_run_zero hv hc hr, hb] at hrel

theorem DrainsInOrder.succ {n : Nat} (h : DrainsInOrder n) (hn : n < 2 ^ 32) : DrainsInOrder (n + 1) := by
  intro s _ hrun
  rw [emitTopBytes_succ_bind]
  cases hv : s.enc.pendingValid with
  | false =>
    have hnone : heldBytes s.enc = [] := by simp [heldBytes, hv]
    rw [finalize_first hv, Emit.bind_ok, hnone]
    refine Released.of_sameBuffer (s' := s.withEnc { s.enc with
      pendingByte := topByte s.enc, pendingValid := true, pendingCarry := false }) ?_ (sameBuffer_withEnc rfl rfl)
    exact h.after_hold hn rfl rfl rfl (hrun.first hv) rfl
  | true =>
    by_cases hb : s.enc.pendingCarry = true ∨ topByte s.enc ≠ 0xFF
    · rw [finalize_release hv hb, Emit.bind_assoc]
      refine released_writeAll_bind (Released.of_sameBuffer ?_
        (s' := holdByte (topByte s.enc) (stored (heldBytes s.enc) s)) (sameBuffer_withEnc rfl rfl))
      exact h.after_hold hn rfl rfl hv rfl rfl
    · obtain ⟨hc, htop⟩ : s.enc.pendingCarry = false ∧ topByte s.enc = 0xFF := by simpa using hb
      rw [topBytes, htop] at hrun ⊢
      obtain ⟨hsucc, hfits⟩ := hrun.run_succ hv hc
      have hrel := h.after_finalize (s := s) (t := s.withEnc { s.enc with run := s.enc.run + 1 }) rfl hc hfits
      rw [State.withEnc_enc, heldBytes_run_succ hv hc hsucc, List.append_assoc] at hrel
      rw [finalize_extend hv hc, runFull_eq_false hsucc, if_neg Bool.false_ne_true, Emit.bind_ok]
      exact hrel.of_sameBuffer (sameBuffer_withEnc rfl rfl)

theorem drainsInOrder {n : Nat} (hn : n < 2 ^ 32) : DrainsInOrder n := by
  induction n with
  | zero => exact drainsInOrder_zero
  | succ n ih => exact (ih (by omega)).succ (by omega)

/-- All of `STOP_ENCODE` but its answer (rule R133). -/
theorem released_stop {s : State} (hrun : s.enc.pendingValid = false → s.enc.run = 0)
    (hfits : stopOverflowsRun s.enc = false) :
    Released (stopReleases s.enc) s ((emitTopBytes Config.flushBytes s).bind drain).final := by
  rw [stopReleases, ← topBytes_flush]
  refine drainsInOrder (by decide) s (fun h => absurd h (by decide)) ⟨hrun, fun hv hc => ?_⟩
  rw [topBytes_flush]
  simpa [stopOverflowsRun, hv, hc] using hfits

/-! ## The encoder's commands -/

/-- An answer changes neither memory nor a register. -/
theorem respond_next_sameBuffer {status : Status} {data : Word} {s t : State} (h : respond status data s = .next t) :
    SameBuffer s t := by
  cases h
  exact ⟨rfl, rfl, rfl⟩

/-- Finishing a command keeps memory and the output buffer as the procedure left them, be it by a return or by the
fault, where the continuation does (rule R136). -/
theorem Emit.finish_next_sameBuffer {x : Emit} {f : State → Host.Outcome State Fault Refusal} {t : State}
    (h : x.finish f = .next t) (hf : ∀ u, f u = .next t → SameBuffer u t) : SameBuffer x.final t := by
  cases x with
  | ok u => exact hf u h
  | overflow u =>
    obtain ⟨hm, hc, he⟩ := respond_next_sameBuffer (s := enterFault u) h
    exact ⟨hm, hc, he⟩

theorem whenEncActive_next_sameBuffer {s t : State} {body : Host.Outcome State Fault Refusal}
    (h : whenEncActive s body = .next t) (hp : s.enc.phase ≠ .active) : SameBuffer s t := by
  cases hq : s.enc.phase with
  | active => exact absurd hq hp
  | fault => rw [whenEncActive_fault hq] at h; exact respond_next_sameBuffer h
  | idle => rw [whenEncActive_refused (.inl hq)] at h; exact respond_next_sameBuffer h
  | done => rw [whenEncActive_refused (.inr hq)] at h; exact respond_next_sameBuffer h

theorem execEncodeBool_released {bit : Bool} {p : Byte} {s t : State} (hp : s.enc.phase = .active)
    (h : execEncodeBool bit p s = .next t) : Released (encodeReleases bit p s.enc) s t := by
  rw [execEncodeBool, whenEncActive_active hp] at h
  have hsame : SameBuffer s (s.withEnc (encodeInterval bit p s.enc)) := sameBuffer_withEnc (by simp) (by simp)
  exact ((released_emitDueByte _).of_sameBuffer hsame).to_sameBuffer
    (Emit.finish_next_sameBuffer h fun _ => respond_next_sameBuffer)

theorem execStopEncode_sameBuffer {s t : State} (hp : s.enc.phase = .active) (h : execStopEncode s = .next t) :
    SameBuffer ((emitTopBytes Config.flushBytes s).bind drain).final t := by
  rw [execStopEncode, whenEncActive_active hp] at h
  refine Emit.finish_next_sameBuffer h fun u hu => ?_
  obtain ⟨hm, hc, he⟩ := respond_next_sameBuffer (s := u.withEnc { u.enc with phase := .done }) hu
  exact ⟨hm, hc, he⟩

/-- Settles O38: the bytes released are stored, and read back. -/
theorem encodeBoolStoresOnlyTheReleasedBytes : Obligations.EncodeBoolStoresOnlyTheReleasedBytes := by
  intro bit p s t n hp h hn
  have hrel := execEncodeBool_released hp h
  exact ⟨by rw [hrel.cursor, hn], hrel.outputEnd, hrel.reads hn⟩

/-- Settles O39: the same of the held bytes and those of `low_value`. -/
theorem stopEncodeStoresOnlyTheReleasedBytes : Obligations.StopEncodeStoresOnlyTheReleasedBytes := by
  intro s t n hp hrun hfits h hn
  have hrel := (released_stop hrun hfits).to_sameBuffer (execStopEncode_sameBuffer hp h)
  exact ⟨by rw [hrel.cursor, hn], hrel.outputEnd, hrel.reads hn⟩

end Sys2Proof.Machine
end

section
/-! PROOFS. Where a command can write and read at all: inside the buffers that are live when it starts (rules R65,
R67, R69, R71). -/

namespace Sys2Proof.Machine

/-! ## What a command can write -/

/-- The two commands that write bytes. -/
def WritesBytes (i : Instr) : Prop := i = .stopEncode ∨ ∃ bit p, i = .encodeBool bit p

/-- A command that writes bytes releases some list of them in `ACTIVE`, and else leaves the output buffer alone. -/
theorem exec_writing_cases {i : Instr} {s t : State} (hi : WritesBytes i) (h : exec i s = .next t) :
    (s.enc.phase = .active ∧ ∃ vs, Released vs s t) ∨ SameBuffer s t := by
  by_cases hp : s.enc.phase = .active
  · refine .inl ⟨hp, ?_⟩
    obtain rfl | ⟨bit, p, rfl⟩ := hi
    · obtain ⟨vs, hrel⟩ := (wrote_stop s).released
      exact ⟨vs, hrel.to_sameBuffer (execStopEncode_sameBuffer hp h)⟩
    · exact ⟨_, execEncodeBool_released hp h⟩
  · refine .inr ?_
    obtain rfl | ⟨bit, p, rfl⟩ := hi
    · exact whenEncActive_next_sameBuffer h hp
    · exact whenEncActive_next_sameBuffer h hp

/-- Every other command leaves memory alone. -/
theorem exec_other_mem {i : Instr} {s t : State} (hi : ¬ WritesBytes i) (h : exec i s = .next t) :
    t.mem = s.mem := by
  cases i with
  | startEncode a b => exact (respond_next_sameBuffer h).mem
  | encodeBool bit p => exact absurd (.inr ⟨bit, p, rfl⟩) hi
  | stopEncode => exact absurd (.inl rfl) hi
  | startDecode a n => exact (respond_next_sameBuffer h).mem
  | decodeBool p =>
    cases hp : s.dec.phase with
    | idle =>
      rw [exec_decodeBool_idle p hp] at h
      exact (respond_next_sameBuffer h).mem
    | active =>
      rw [exec_decodeBool_active p hp] at h
      rw [← Host.Outcome.next.inj h, State.withResponse_mem, State.withDec_mem]
  | norm r =>
    rw [exec, execNorm] at h
    split at h
    · exact (respond_next_sameBuffer h).mem
    · exact (respond_next_sameBuffer h).mem

/-- What has been released lies below the end of the buffer. -/
theorem Released.reads_outside {vs : List Byte} {s t : State} {a : Nat} (h : Released vs s t)
    (ha : s.enc.outputEnd.toNat ≤ a ∨ a < s.enc.outputCursor.toNat) : readMem t.mem a = readMem s.mem a := by
  refine (h.reads rfl).1 a ?_
  rw [room]
  omega

/-- Settles O40, by whether the command is one that writes bytes. -/
theorem noByteOutsideTheBufferIsEverWritten : Obligations.NoByteOutsideTheBufferIsEverWritten := by
  intro i s t a h ha
  by_cases hi : WritesBytes i
  · obtain ⟨hp, vs, hrel⟩ | hsame := exec_writing_cases hi h
    · obtain hend | hcur | hnp | ⟨hstop, henc⟩ := ha
      · exact hrel.reads_outside (.inl hend)
      · exact hrel.reads_outside (.inr hcur)
      · exact absurd hp hnp
      · obtain hi | ⟨bit, p, hi⟩ := hi
        · exact absurd hi hstop
        · exact absurd hi (henc bit p)
    · rw [hsame.mem]
  · rw [exec_other_mem hi h]

/-! ## The addresses a command touches -/

/-- A command word that has written bytes is one of the two that can, and the cursor counts them. -/
theorem bytesWritten_pos {w : CommandWord} {s t : State} (h : 0 < bytesWritten w s t) :
    ∃ i, decode w = .ok i ∧ WritesBytes i ∧ bytesWritten w s t = (t.enc.outputCursor - s.enc.outputCursor).toNat := by
  unfold bytesWritten at h ⊢
  split at h
  next bit p hw => exact ⟨_, hw, .inr ⟨bit, p, rfl⟩, rfl⟩
  next hw => exact ⟨_, hw, .inl rfl, rfl⟩
  next => exact absurd h (by omega)

/-- A command word that has read bytes is a `DECODE_BOOL`, and the cursor counts them. -/
theorem bytesRead_pos {w : CommandWord} {s t : State} (h : 0 < bytesRead w s t) :
    ∃ p, decode w = .ok (.decodeBool p) ∧ bytesRead w s t = (t.dec.inputCursor - s.dec.inputCursor).toNat := by
  unfold bytesRead at h ⊢
  split at h
  next p hw => exact ⟨p, hw, rfl⟩
  next => exact absurd h (by omega)

/-- An address among the released bytes lies at or above the cursor and below the end of the buffer. -/
theorem Released.window {vs : List Byte} {s t : State} {a : Word} (h : Released vs s t)
    (ha : inWindow s.enc.outputCursor (t.enc.outputCursor - s.enc.outputCursor).toNat a = true) :
    s.enc.outputCursor.toNat ≤ a.toNat ∧ a.toNat < s.enc.outputEnd.toNat := by
  obtain ⟨j, hj, haj⟩ := inWindow_iff.1 ha
  have hc := h.cursor
  have hend := s.enc.outputEnd.isLt
  have hlt := s.enc.outputCursor.isLt
  rw [BitVec.toNat_sub] at hj
  rw [room] at hc
  omega

theorem written_in_output_buffer {w : CommandWord} {s t : State} {a : Word} (h : runCommand w s = .next t)
    (ha : inWindow s.enc.outputCursor (bytesWritten w s t) a = true) :
    s.enc.phase = .active ∧ s.enc.outputCursor.toNat ≤ a.toNat ∧ a.toNat < s.enc.outputEnd.toNat := by
  obtain ⟨j, hj, -⟩ := inWindow_iff.1 ha
  obtain ⟨i, hw, hi, hn⟩ := bytesWritten_pos (by omega : 0 < bytesWritten w s t)
  rw [runCommand_decoded s hw] at h
  rw [hn] at ha hj
  obtain ⟨hp, vs, hrel⟩ | hsame := exec_writing_cases hi h
  · exact ⟨hp, hrel.window ha⟩
  · rw [hsame.cursor, BitVec.sub_self] at hj
    exact absurd hj (Nat.not_lt_zero j)

theorem read_in_input_buffer {w : CommandWord} {s t : State} {a : Word} (hinv : s.dec.phase = .active → DecInv s.dec)
    (h : runCommand w s = .next t) (ha : inWindow (readAddress s.dec) (bytesRead w s t) a = true) :
    s.dec.phase = .active ∧ ∃ j : Nat, s.dec.inputCursor.toNat ≤ j ∧ j < s.dec.inputEnd.toNat ∧
      a.toNat = (s.dec.inputBase.toNat + j) % 2 ^ 32 := by
  obtain ⟨j, hj, haj⟩ := inWindow_iff.1 ha
  obtain ⟨p, hw, hn⟩ := bytesRead_pos (by omega : 0 < bytesRead w s t)
  rw [runCommand_decoded s hw] at h
  rw [hn, BitVec.toNat_sub] at hj
  cases hp : s.dec.phase with
  | idle =>
    rw [exec_decodeBool_idle p hp] at h
    rw [respond_next_dec h] at hj
    have := s.dec.inputCursor.isLt
    omega
  | active =>
    rw [exec_decodeBool_active p hp] at h
    obtain rfl := Host.Outcome.next.inj h
    rw [State.withResponse_dec, State.withDec_dec] at hj
    obtain ⟨hmono, -, -, hend⟩ := decodeBit_cursor_bounds s.mem p (hinv hp).cursor_le
    have := s.dec.inputEnd.isLt
    refine ⟨rfl, s.dec.inputCursor.toNat + j, by omega, by omega, ?_⟩
    rw [haj, readAddress, BitVec.toNat_add, Nat.mod_add_mod, Nat.add_assoc]

/-- Settles O49: an address touched is one written or one read. -/
theorem commandsTouchLiveBuffersAlone : Obligations.CommandsTouchLiveBuffersAlone := by
  intro w s t a hinv h ha
  obtain hw | hr := Bool.or_eq_true_iff.1 ha
  · obtain ⟨hp, hcur, hend⟩ := written_in_output_buffer h hw
    have hstart : s.streamStart.toNat ≤ s.enc.outputCursor.toNat := by
      obtain heq | ⟨hle, -⟩ := hinv.stream hp
      · rw [heq]
      · exact hle
    exact .inl ⟨hp, hstart, hcur, hend⟩
  · exact .inr (read_in_input_buffer hinv.dec_active h hr)

end Sys2Proof.Machine
end

section
/-! PROOFS. The command word: what the decoder reads from each row of the opcode table, what it reads back from an
encoded command, and which bits of the word it looks at (rules R81 to R84, R90). -/

namespace Sys2Proof

/-! ## The fields of an assembled word -/

@[simp] theorem opField_assemble (op : BitVec 3) (b : Bool) (p : Byte) (a c : Word) :
    opField (assemble op b p a c) = op := (fields_assemble op b p a c).1
@[simp] theorem bitField_assemble (op : BitVec 3) (b : Bool) (p : Byte) (a c : Word) :
    bitField (assemble op b p a c) = b := (fields_assemble op b p a c).2.1
@[simp] theorem probField_assemble (op : BitVec 3) (b : Bool) (p : Byte) (a c : Word) :
    probField (assemble op b p a c) = p := (fields_assemble op b p a c).2.2.1
@[simp] theorem arg0Field_assemble (op : BitVec 3) (b : Bool) (p : Byte) (a c : Word) :
    arg0Field (assemble op b p a c) = a := (fields_assemble op b p a c).2.2.2.1
@[simp] theorem arg1Field_assemble (op : BitVec 3) (b : Bool) (p : Byte) (a c : Word) :
    arg1Field (assemble op b p a c) = c := (fields_assemble op b p a c).2.2.2.2

/-! ## The decoder, one equation per row (rule R84) -/

section
variable {w : CommandWord}

theorem decode_startEncode (h : opField w = 0) : decode w = .ok (.startEncode (arg0Field w) (arg1Field w)) := by
  rw [decode, h]; rfl
theorem decode_encodeBool (h : opField w = 1) : decode w = .ok (.encodeBool (bitField w) (probField w)) := by
  rw [decode, h]; rfl
theorem decode_stopEncode (h : opField w = 2) : decode w = .ok .stopEncode := by
  rw [decode, h]; rfl
theorem decode_startDecode (h : opField w = 3) : decode w = .ok (.startDecode (arg0Field w) (arg1Field w)) := by
  rw [decode, h]; rfl
theorem decode_decodeBool (h : opField w = 4) : decode w = .ok (.decodeBool (probField w)) := by
  rw [decode, h]; rfl
theorem decode_norm (h : opField w = 5) : decode w = .ok (.norm (probField w)) := by
  rw [decode, h]; rfl

/-- A word that decodes lies in one of the six rows, and is that row's command. -/
theorem decode_ok_cases {i : Instr} (h : decode w = .ok i) :
    (opField w = 0 ∧ i = .startEncode (arg0Field w) (arg1Field w)) ∨
    (opField w = 1 ∧ i = .encodeBool (bitField w) (probField w)) ∨
    (opField w = 2 ∧ i = .stopEncode) ∨
    (opField w = 3 ∧ i = .startDecode (arg0Field w) (arg1Field w)) ∨
    (opField w = 4 ∧ i = .decodeBool (probField w)) ∨
    (opField w = 5 ∧ i = .norm (probField w)) := by
  unfold decode at h
  split at h <;> cases h
  next hop => exact .inl ⟨BitVec.eq_of_toNat_eq hop, rfl⟩
  next hop => exact .inr (.inl ⟨BitVec.eq_of_toNat_eq hop, rfl⟩)
  next hop => exact .inr (.inr (.inl ⟨BitVec.eq_of_toNat_eq hop, rfl⟩))
  next hop => exact .inr (.inr (.inr (.inl ⟨BitVec.eq_of_toNat_eq hop, rfl⟩)))
  next hop => exact .inr (.inr (.inr (.inr (.inl ⟨BitVec.eq_of_toNat_eq hop, rfl⟩))))
  next hop => exact .inr (.inr (.inr (.inr (.inr ⟨BitVec.eq_of_toNat_eq hop, rfl⟩))))

end

/-! ## There and back (rules R89, R90) -/

/-- Settles O2, row by row: the fields of an assembled word are what it was assembled from. -/
theorem decodeOfEncodeIsIdentity : Obligations.DecodeOfEncodeIsIdentity := by
  intro i
  cases i with
  | startEncode a b =>
    rw [encode, decode_startEncode (opField_assemble ..), arg0Field_assemble, arg1Field_assemble]
  | encodeBool b p =>
    rw [encode, decode_encodeBool (opField_assemble ..), bitField_assemble, probField_assemble]
  | stopEncode => exact decode_stopEncode (opField_assemble ..)
  | startDecode a n =>
    rw [encode, decode_startDecode (opField_assemble ..), arg0Field_assemble, arg1Field_assemble]
  | decodeBool p => rw [encode, decode_decodeBool (opField_assemble ..), probField_assemble]
  | norm r => rw [encode, decode_norm (opField_assemble ..), probField_assemble]

theorem decode_of_encode_eq {w : CommandWord} {i : Instr} (h : encode i = w) : decode w = .ok i :=
  h ▸ decodeOfEncodeIsIdentity i

/-- Settles O1: the words are computed once, and each is read back because `decode` inverts `encode`. -/
theorem workedEncodings : Obligations.WorkedEncodings := by
  have h₁ : encode (.startEncode 0x1000 0x1010) = 0x0000000100000001010#76 := by decide
  have h₂ : encode (.encodeBool true 128) = 0x3800000000000000000#76 := by decide
  have h₃ : encode (.encodeBool false 128) = 0x2800000000000000000#76 := by decide
  have h₄ : encode .stopEncode = 0x4000000000000000000#76 := by decide
  have h₅ : encode (.startDecode 0x1000 4) = 0x6000000100000000004#76 := by decide
  have h₆ : encode (.decodeBool 128) = 0x8800000000000000000#76 := by decide
  have h₇ : encode (.norm 200) = 0xAC80000000000000000#76 := by decide
  exact ⟨h₁, h₂, h₃, h₄, h₅, h₆, h₇, decode_of_encode_eq h₁, decode_of_encode_eq h₂, decode_of_encode_eq h₃,
    decode_of_encode_eq h₄, decode_of_encode_eq h₅, decode_of_encode_eq h₆, decode_of_encode_eq h₇, by decide⟩

/-! ## The fields as numbers (rule R81) -/

theorem bitField_eq (w : CommandWord) : bitField w = (w.toNat / 2 ^ 72 % 2 == 1) := by
  rw [bitField, BitVec.getLsbD, Nat.testBit_eq_decide_div_mod_eq]; rfl

theorem probField_eq_ofNat (w : CommandWord) : probField w = BitVec.ofNat 8 (w.toNat / 2 ^ 64) :=
  BitVec.eq_of_toNat_eq (toNat_probField w)

theorem arg0Field_eq_ofNat (w : CommandWord) : arg0Field w = BitVec.ofNat 32 (w.toNat / 2 ^ 32) :=
  BitVec.eq_of_toNat_eq (toNat_arg0Field w)

theorem arg1Field_eq_ofNat (w : CommandWord) : arg1Field w = BitVec.ofNat 32 w.toNat :=
  BitVec.eq_of_toNat_eq (toNat_arg1Field w)

/-- The row of a decoded command matches the word: each row's pattern is its `op` with every other bit 0. -/
theorem row_matches_of_decode {w : CommandWord} {i : Instr} (h : decode w = .ok i) :
    w &&& (opcodeRow i).mask = (opcodeRow i).pattern := by
  obtain ⟨hop, rfl⟩ | ⟨hop, rfl⟩ | ⟨hop, rfl⟩ | ⟨hop, rfl⟩ | ⟨hop, rfl⟩ | ⟨hop, rfl⟩ := decode_ok_cases h
  · exact (and_mask_eq_iff w 0).2 hop
  · exact (and_mask_eq_iff w 1).2 hop
  · exact (and_mask_eq_iff w 2).2 hop
  · exact (and_mask_eq_iff w 3).2 hop
  · exact (and_mask_eq_iff w 4).2 hop
  · exact (and_mask_eq_iff w 5).2 hop

/-- Settles O3: to match a row is to have its `op`, and the operands are the fields as numbers. -/
theorem wordMatchesRowExactlyWhenDecoded : Obligations.WordMatchesRowExactlyWhenDecoded := by
  intro w
  rw [← bitField_eq, ← probField_eq_ofNat, ← arg0Field_eq_ofNat, ← arg1Field_eq_ofNat]
  exact ⟨fun _ => row_matches_of_decode,
    fun h => decode_startEncode ((and_mask_eq_iff w 0).1 h),
    fun h => decode_encodeBool ((and_mask_eq_iff w 1).1 h),
    fun h => decode_stopEncode ((and_mask_eq_iff w 2).1 h),
    fun h => decode_startDecode ((and_mask_eq_iff w 3).1 h),
    fun h => decode_decodeBool ((and_mask_eq_iff w 4).1 h),
    fun h => decode_norm ((and_mask_eq_iff w 5).1 h)⟩

/-! ## The bits a command looks at (rule R83) -/

section
variable {w w' m : CommandWord}

/-- Words that agree under a mask agree on a field the mask covers. -/
theorem extractLsb'_eq_of_and_eq {start len : Nat} (hm : m.extractLsb' start len = BitVec.allOnes len)
    (h : w &&& m = w' &&& m) : w.extractLsb' start len = w'.extractLsb' start len := by
  have := congrArg (BitVec.extractLsb' start len) h
  rwa [BitVec.extractLsb'_and, BitVec.extractLsb'_and, hm, BitVec.and_allOnes, BitVec.and_allOnes] at this

/-- The same for the one-bit field. -/
theorem bitField_eq_of_and_eq (hm : bitField m = true) (h : w &&& m = w' &&& m) : bitField w = bitField w' := by
  have := congrArg bitField h
  simp only [bitField, BitVec.getLsbD_and] at this hm ⊢
  rwa [hm, Bool.and_true, Bool.and_true] at this

/-- Every command looks at `op`. -/
theorem opField_used (i : Instr) : opField (opcodeRow i).used = BitVec.allOnes 3 := by
  cases i <;> simp only [opcodeRow] <;> decide

/-- A word that agrees with a decoded word on the bits in use is the same command. -/
theorem decode_eq_of_used_eq {i : Instr} (h : decode w = .ok i)
    (hu : w &&& (opcodeRow i).used = w' &&& (opcodeRow i).used) : decode w' = .ok i := by
  have hop' : opField w = opField w' := extractLsb'_eq_of_and_eq (opField_used i) hu
  obtain ⟨hop, rfl⟩ | ⟨hop, rfl⟩ | ⟨hop, rfl⟩ | ⟨hop, rfl⟩ | ⟨hop, rfl⟩ | ⟨hop, rfl⟩ := decode_ok_cases h <;>
    rw [hop'] at hop <;> simp only [opcodeRow] at hu
  · have h₀ : arg0Field w = arg0Field w' := extractLsb'_eq_of_and_eq (by decide) hu
    have h₁ : arg1Field w = arg1Field w' := extractLsb'_eq_of_and_eq (by decide) hu
    rw [h₀, h₁, decode_startEncode hop]
  · have hp : probField w = probField w' := extractLsb'_eq_of_and_eq (by decide) hu
    rw [bitField_eq_of_and_eq (by decide) hu, hp, decode_encodeBool hop]
  · exact decode_stopEncode hop
  · have h₀ : arg0Field w = arg0Field w' := extractLsb'_eq_of_and_eq (by decide) hu
    have h₁ : arg1Field w = arg1Field w' := extractLsb'_eq_of_and_eq (by decide) hu
    rw [h₀, h₁, decode_startDecode hop]
  · have hp : probField w = probField w' := extractLsb'_eq_of_and_eq (by decide) hu
    rw [hp, decode_decodeBool hop]
  · have hp : probField w = probField w' := extractLsb'_eq_of_and_eq (by decide) hu
    rw [hp, decode_norm hop]

end

/-- Settles O4: the decoder gives both words the same command, and a command word does what its command does. -/
theorem unusedFieldsHaveNoEffect : Obligations.UnusedFieldsHaveNoEffect := by
  intro w w' i h hu
  have h' := decode_eq_of_used_eq h hu
  exact ⟨h', fun s => (Machine.runCommand_decoded s h).trans (Machine.runCommand_decoded s h').symm⟩

end Sys2Proof
end

section
/-! PROOFS. A call is refused exactly where an operand does not fit its field, and else its operands are kept as
they stand (rules R81, R82, R223). -/

namespace Sys2Proof

@[simp] theorem Call.wordOk_iff {n : Nat} : Call.wordOk n = true ↔ n < 2 ^ 32 := decide_eq_true_iff
@[simp] theorem Call.probOk_iff {n : Nat} : Call.probOk n = true ↔ n < 2 ^ 8 := decide_eq_true_iff
@[simp] theorem Call.bitOk_iff {n : Nat} : Call.bitOk n = true ↔ n < 2 := decide_eq_true_iff

theorem toNat_beq_one {n : Nat} (h : n < 2) : (n == 1).toNat = n := by
  interval_cases n <;> rfl

theorem Call.toInstr_of_ill_formed {c : Call} (h : c.wf = false) : c.toInstr = none :=
  if_neg (by rw [h]; decide)

/-- A well-formed call becomes the command that is written as this call: no operand is reduced. -/
theorem Call.toInstr_of_wf {c : Call} (h : c.wf = true) : ∃ i : Instr, c.toInstr = some i ∧ i.toCall = c := by
  cases c with
  | startEncode a b =>
    obtain ⟨ha, hb⟩ : a < 2 ^ 32 ∧ b < 2 ^ 32 := by simpa only [wf, Bool.and_eq_true, wordOk_iff] using h
    refine ⟨.startEncode (BitVec.ofNat 32 a) (BitVec.ofNat 32 b), if_pos h, ?_⟩
    rw [Instr.toCall, BitVec.toNat_ofNat, BitVec.toNat_ofNat, Nat.mod_eq_of_lt ha, Nat.mod_eq_of_lt hb]
  | encodeBool b p =>
    obtain ⟨hb, hp⟩ : b < 2 ∧ p < 2 ^ 8 := by simpa only [wf, Bool.and_eq_true, bitOk_iff, probOk_iff] using h
    refine ⟨.encodeBool (b == 1) (BitVec.ofNat 8 p), if_pos h, ?_⟩
    rw [Instr.toCall, toNat_beq_one hb, BitVec.toNat_ofNat, Nat.mod_eq_of_lt hp]
  | stopEncode => exact ⟨.stopEncode, if_pos h, rfl⟩
  | startDecode a n =>
    obtain ⟨ha, hn⟩ : a < 2 ^ 32 ∧ n < 2 ^ 32 := by simpa only [wf, Bool.and_eq_true, wordOk_iff] using h
    refine ⟨.startDecode (BitVec.ofNat 32 a) (BitVec.ofNat 32 n), if_pos h, ?_⟩
    rw [Instr.toCall, BitVec.toNat_ofNat, BitVec.toNat_ofNat, Nat.mod_eq_of_lt ha, Nat.mod_eq_of_lt hn]
  | decodeBool p =>
    refine ⟨.decodeBool (BitVec.ofNat 8 p), if_pos h, ?_⟩
    rw [Instr.toCall, BitVec.toNat_ofNat, Nat.mod_eq_of_lt (probOk_iff.1 h)]
  | norm r =>
    refine ⟨.norm (BitVec.ofNat 8 r), if_pos h, ?_⟩
    rw [Instr.toCall, BitVec.toNat_ofNat, Nat.mod_eq_of_lt (probOk_iff.1 h)]

/-- Settles O6: the two directions of the check, and the bounds it comes to. -/
theorem outOfRangeOperandsAreRefused : Obligations.OutOfRangeOperandsAreRefused := by
  have hprob : ∀ p, Call.probOk p = true ↔ p ≤ 255 := fun p => Call.probOk_iff.trans Nat.lt_succ_iff
  refine ⟨fun _ => Call.toInstr_of_ill_formed, fun _ => Call.toInstr_of_wf, fun b p => ?_, hprob, hprob⟩
  rw [Call.wf, Bool.and_eq_true, hprob, Call.bitOk_iff, Nat.lt_succ_iff]

end Sys2Proof
end

section
/-! PROOFS. The answer to a command word: whatever the word and the state there is exactly one, and its fields are
those of rules R86 and R88. -/

namespace Sys2Proof.Machine

/-! ## What an answer is -/

/-- What `data` holds beside `OK`, by the command the word was decoded to, `cursor` being the output cursor after
the command (rule R88); a reserved word is never answered `OK`. -/
def OkData (c : Except DecodeError Instr) (cursor data : Word) : Prop :=
  match c with
  | .ok (.startEncode _ _) => data = 0
  | .ok (.encodeBool _ _) => data = 0
  | .ok .stopEncode => data = cursor
  | .ok (.startDecode _ _) => data = 0
  | .ok (.decodeBool _) => data = 0 ∨ data = 1
  | .ok (.norm x) => Normalizes x.toNat data.toNat
  | .error _ => False

/-- The step from `s` to `t` takes nothing from the script and answers the command `c` by `r` alone, with the fields
of rules R86 and R88. -/
structure Answer (c : Except DecodeError Instr) (s t : State) (r : Response) : Prop where
  responses : t.responses = s.responses ++ [r]
  host : t.host = s.host
  exhausted : r.exhausted = t.dec.exhausted
  overflow : r.status = .bufferOverflow → r.data = t.enc.outputCursor
  refused : r.status ≠ .ok → r.status ≠ .bufferOverflow → r.data = 0
  ok : r.status = .ok → OkData c t.enc.outputCursor r.data

/-- The outcome is a next state that holds an answer to `c`. -/
def Answers (c : Except DecodeError Instr) (s : State) (o : Host.Outcome State Fault Refusal) : Prop :=
  ∃ t r, o = .next t ∧ Answer c s t r

/-! ## The three ways to answer -/

section
variable {c : Except DecodeError Instr} {s u : State}

theorem answers_ok {data : Word} (hr : u.responses = s.responses) (hh : u.host = s.host)
    (hd : OkData c u.enc.outputCursor data) : Answers c s (respond .ok data u) :=
  ⟨_, _, rfl, congrArg (· ++ [_]) hr, hh, rfl, nofun, fun h => absurd rfl h, fun _ => hd⟩

theorem answers_overflow (hr : u.responses = s.responses) (hh : u.host = s.host) :
    Answers c s (stickyOverflow u) :=
  ⟨_, _, rfl, congrArg (· ++ [_]) hr, hh, rfl, fun _ => rfl, fun _ h => absurd rfl h, nofun⟩

theorem answers_refused {status : Status} (hok : status ≠ .ok) (hov : status ≠ .bufferOverflow) :
    Answers c s (refuseCommand status s) :=
  ⟨_, _, rfl, rfl, rfl, rfl, fun h => absurd h hov, fun _ _ => rfl, fun h => absurd h hok⟩

end

/-! ## Every command answers -/

/-- A command of the encoder answers, be it by a refusal, the sticky answer or the fault, where what follows its
procedure answers. -/
theorem whenEncActive_finish_answers {c : Except DecodeError Instr} {s : State} {x : Emit}
    {f : State → Host.Outcome State Fault Refusal} (hr : x.final.responses = s.responses)
    (hh : x.final.host = s.host)
    (hf : ∀ u : State, u.responses = s.responses → u.host = s.host → Answers c s (f u)) :
    Answers c s (whenEncActive s (x.finish f)) := by
  cases hp : s.enc.phase with
  | fault =>
    rw [whenEncActive_fault hp]
    exact answers_overflow rfl rfl
  | idle =>
    rw [whenEncActive_refused (.inl hp)]
    exact answers_refused nofun nofun
  | done =>
    rw [whenEncActive_refused (.inr hp)]
    exact answers_refused nofun nofun
  | active =>
    rw [whenEncActive_active hp]
    cases x with
    | ok u => exact hf u hr hh
    | overflow u => exact answers_overflow (u := enterFault u) hr hh

theorem execEncodeBool_answers (bit : Bool) (p : Byte) (s : State) :
    Answers (.ok (.encodeBool bit p)) s (execEncodeBool bit p s) :=
  have hw := wrote_emitDueByte (s.withEnc (encodeInterval bit p s.enc))
  whenEncActive_finish_answers hw.responses hw.host fun _ hr hh => answers_ok hr hh rfl

theorem execStopEncode_answers (s : State) : Answers (.ok .stopEncode) s (execStopEncode s) :=
  whenEncActive_finish_answers (wrote_stop s).responses (wrote_stop s).host fun _ hr hh => answers_ok hr hh rfl

theorem execDecodeBool_answers (p : Byte) (s : State) :
    Answers (.ok (.decodeBool p)) s (execDecodeBool p s) := by
  unfold execDecodeBool
  split
  · exact answers_refused nofun nofun
  · refine answers_ok (State.withDec_responses ..) (State.withDec_host ..) ?_
    cases (decodeBit s.mem p s.dec).1 with
    | false => exact .inl rfl
    | true => exact .inr rfl

theorem execNorm_answers (r : Byte) (s : State) : Answers (.ok (.norm r)) s (execNorm r s) := by
  by_cases hr : r = 0
  · rw [hr, execNorm, shiftFor_zero]
    exact answers_refused nofun nofun
  · have hk : (BitVec.ofNat 32 (shiftOf r)).toNat = shiftOf r :=
      Nat.mod_eq_of_lt ((shiftOf_le hr).trans_lt (by decide))
    have hn : Normalizes r.toNat (BitVec.ofNat 32 (shiftOf r)).toNat := hk.symm ▸ normalizes_shiftOf hr
    rw [execNorm, shiftFor_of_ne_zero hr, ← shiftOf_of_ne_zero hr]
    exact answers_ok rfl rfl hn

theorem exec_answers (i : Instr) (s : State) : Answers (.ok i) s (exec i s) := by
  cases i with
  | startEncode a b => exact answers_ok rfl rfl rfl
  | encodeBool bit p => exact execEncodeBool_answers bit p s
  | stopEncode => exact execStopEncode_answers s
  | startDecode a n => exact answers_ok rfl rfl rfl
  | decodeBool p => exact execDecodeBool_answers p s
  | norm r => exact execNorm_answers r s

/-- So does every command word, a reserved one included. -/
theorem runCommand_answers (w : CommandWord) (s : State) : Answers (decode w) s (runCommand w s) := by
  cases hw : decode w with
  | ok i =>
    rw [runCommand_decoded s hw]
    exact exec_answers i s
  | error e =>
    rw [runCommand_reserved s hw]
    exact answers_refused nofun nofun

/-! ## The word of a response (rule R86) -/

theorem toNat_responseWord (r : Response) :
    r.word.toNat = (r.status.code.toNat * 2 + r.exhausted.toNat) * 2 ^ 32 + r.data.toNat := by
  rw [Response.word, toNat_append_add, toNat_append_add, BitVec.toNat_ofBool]
  rfl

/-- Settles O7: the answer of `runCommand`, and the fields of the response word as digits. -/
theorem everyCommandIsAnsweredByOneResponse : Obligations.EveryCommandIsAnsweredByOneResponse := by
  refine ⟨fun w rest s hs => ?_, fun r => ?_⟩
  · obtain ⟨t, r, ht, ha⟩ := runCommand_answers w (s.withHost rest)
    exact ⟨t, r, (step_action hs).trans ht, ha.responses, ha.exhausted, ha.host⟩
  · have hd := r.data.isLt
    have hx := r.exhausted.toNat_lt
    rw [toNat_responseWord]
    omega

/-- Settles O34: the answer of `runCommand` to the word. -/
theorem dataFieldOfEveryResponse : Obligations.DataFieldOfEveryResponse := by
  intro w s t h
  obtain ⟨t', r, ht, ha⟩ := runCommand_answers w s
  cases h.symm.trans ht
  exact ⟨r, ha.responses, ha.overflow, ha.refused, ha.ok⟩

end Sys2Proof.Machine
end

section
/-! PROOFS. The normalization table as a command, and the split of an interval (rules R100 to R107, R226). -/

namespace Sys2Proof.Machine

/-! ## `NORM` -/

theorem exec_norm_zero (s : State) : exec (.norm 0) s = refuseCommand .illegalOperand s := rfl

theorem exec_norm_of_ne_zero {r : Byte} (h : r ≠ 0) (s : State) :
    exec (.norm r) s = respond .ok (BitVec.ofNat 32 (shiftOf r)) s := by
  rw [exec, execNorm, shiftFor_of_ne_zero h, shiftOf_of_ne_zero h]

/-- No shift brings 0 up to 128. -/
theorem Normalizes.ne_zero {r : Byte} {k : Nat} (h : Normalizes r.toNat k) : r ≠ 0 := by
  rintro rfl
  simp [Normalizes] at h

/-- Settles O14: the machine's shift is the one shift that normalizes `r`, and 0 is refused. -/
theorem normAnswersTheNormalizingShift : Obligations.NormAnswersTheNormalizingShift := by
  refine ⟨fun r k s hk => ?_, fun r hr => ⟨shiftOf r, shiftOf_le hr, normalizes_shiftOf hr⟩, exec_norm_zero⟩
  rw [exec_norm_of_ne_zero hk.ne_zero, (shiftOf_eq_iff hk.ne_zero).2 hk]
  rfl

/-! ## `split_of` at the ends and in the middle of the probabilities -/

theorem exactSplit_zero (r : Nat) : exactSplit r 0 = 1 := by simp [exactSplit]

theorem exactSplit_half (r : Nat) : exactSplit r 128 = 1 + (r - 1) / 2 := by
  unfold exactSplit
  omega

/-- At the largest probability the product falls short of `(r - 1) * 256` by `r - 1`, which is from 1 to 254, so the
division loses exactly one (rule R106). -/
theorem exactSplit_max {r : Nat} (h2 : 2 ≤ r) (h : r < 256) : exactSplit r 255 = r - 1 := by
  unfold exactSplit
  omega

/-- Settles O15: `split_of` is the split on integers, whose bounds and values these are. -/
theorem splitLeavesNeitherPartEmpty : Obligations.SplitLeavesNeitherPartEmpty := by
  intro r p hr
  have hvalue (q : Byte) : (splitOf r q).toNat = exactSplit r.toNat q.toNat := toNat_splitOf q hr
  have hbounds := exactSplit_bounds hr p.isLt
  have hzero : splitOf r 0 = 1 := BitVec.eq_of_toNat_eq ((hvalue 0).trans (exactSplit_zero _))
  have hmax : splitOf r 255 = r - 1 := by
    have h255 := (hvalue 255).trans (exactSplit_max hr r.isLt)
    bv_omega
  rw [hvalue p, hvalue 128]
  exact ⟨rfl, hbounds.1, hbounds.2, hzero, hmax, exactSplit_half _⟩

end Sys2Proof.Machine
end

section
/-! PROOFS. `FINALIZE`, the emission of bytes and `DRAIN`, register by register: which bytes they release, what
they hold afterwards, and where they stop (rules R123, R130 to R133). -/

namespace Sys2Proof.Machine

/-! ## The registers beside the cursor -/

/-- The encoder context with another cursor. -/
def Encoder.atCursor (e : Encoder) (c : Word) : Encoder := { e with outputCursor := c }

@[simp] theorem atCursor_outputCursor (e : Encoder) (c : Word) : (e.atCursor c).outputCursor = c := rfl
@[simp] theorem atCursor_outputEnd (e : Encoder) (c : Word) : (e.atCursor c).outputEnd = e.outputEnd := rfl
theorem atCursor_self (e : Encoder) : e.atCursor e.outputCursor = e := rfl

/-- The registers after a `FINALIZE(b)` that returns, by its cases (rule R130). -/
def afterFinalize (b : Byte) (e : Encoder) : Encoder :=
  if e.pendingValid then
    if e.pendingCarry || b != 0xFF then { e with pendingByte := b, run := 0, pendingCarry := false }
    else { e with run := e.run + 1 }
  else { e with pendingByte := b, pendingValid := true, pendingCarry := false }

section
variable {b : Byte} {e : Encoder}

theorem afterFinalize_first (hv : e.pendingValid = false) :
    afterFinalize b e = { e with pendingByte := b, pendingValid := true, pendingCarry := false } := by
  simp [afterFinalize, hv]

theorem afterFinalize_release (hv : e.pendingValid = true) (hb : e.pendingCarry = true ∨ b ≠ 0xFF) :
    afterFinalize b e = { e with pendingByte := b, run := 0, pendingCarry := false } := by
  rw [afterFinalize, if_pos hv, if_pos (by simpa using hb)]

theorem afterFinalize_extend (hv : e.pendingValid = true) (hc : e.pendingCarry = false) :
    afterFinalize 0xFF e = { e with run := e.run + 1 } := by
  simp [afterFinalize, hv, hc]

theorem releasedBy_first (hv : e.pendingValid = false) : releasedBy b e = [] := by
  simp [releasedBy, heldBytes, hv]

theorem releasedBy_release (hb : e.pendingCarry = true ∨ b ≠ 0xFF) : releasedBy b e = heldBytes e := by
  rw [releasedBy, if_pos (by simpa using hb)]

theorem releasedBy_extend (hc : e.pendingCarry = false) : releasedBy 0xFF e = [] := by
  simp [releasedBy, hc]

/-- The cases of `FINALIZE(b)`: the first byte, a release of the held bytes, one more `0xFF` (rule R130). -/
theorem finalize_split (b : Byte) (e : Encoder) :
    e.pendingValid = false ∨ (e.pendingValid = true ∧ (e.pendingCarry = true ∨ b ≠ 0xFF)) ∨
      (e.pendingValid = true ∧ e.pendingCarry = false ∧ b = 0xFF) := by
  cases e.pendingValid with
  | false => exact .inl rfl
  | true =>
    by_cases hb : e.pendingCarry = true ∨ b ≠ 0xFF
    · exact .inr (.inl ⟨rfl, hb⟩)
    · exact .inr (.inr ⟨rfl, by simpa using hb⟩)

end

/-- After any `FINALIZE` a byte is pending and no carry is (rule R130). -/
theorem afterFinalize_holds (b : Byte) (e : Encoder) :
    (afterFinalize b e).pendingValid = true ∧ (afterFinalize b e).pendingCarry = false := by
  obtain hv | ⟨hv, hb⟩ | ⟨hv, hc, rfl⟩ := finalize_split b e
  · rw [afterFinalize_first hv]; exact ⟨rfl, rfl⟩
  · rw [afterFinalize_release hv hb]; exact ⟨hv, rfl⟩
  · rw [afterFinalize_extend hv hc]; exact ⟨hv, hc⟩

@[simp] theorem afterFinalize_atCursor (b : Byte) (e : Encoder) (c : Word) :
    afterFinalize b (e.atCursor c) = (afterFinalize b e).atCursor c := by
  obtain hv | ⟨hv, hb⟩ | ⟨hv, hc, rfl⟩ := finalize_split b e
  · rw [afterFinalize_first hv, afterFinalize_first (e := e.atCursor c) hv]; rfl
  · rw [afterFinalize_release hv hb, afterFinalize_release (e := e.atCursor c) hv hb]; rfl
  · rw [afterFinalize_extend hv hc, afterFinalize_extend (e := e.atCursor c) hv hc]; rfl

/-- Only the registers that hold bytes back change. -/
theorem afterFinalize_eq (b : Byte) (e : Encoder) : afterFinalize b e = { e with
    pendingByte := (afterFinalize b e).pendingByte, run := (afterFinalize b e).run,
    pendingValid := (afterFinalize b e).pendingValid, pendingCarry := (afterFinalize b e).pendingCarry } := by
  obtain hv | ⟨hv, hb⟩ | ⟨hv, hc, rfl⟩ := finalize_split b e
  · rw [afterFinalize_first hv]
  · rw [afterFinalize_release hv hb]
  · rw [afterFinalize_extend hv hc]

@[simp] theorem afterFinalize_lowValue (b : Byte) (e : Encoder) : (afterFinalize b e).lowValue = e.lowValue := by
  rw [afterFinalize_eq]
@[simp] theorem afterFinalize_range (b : Byte) (e : Encoder) : (afterFinalize b e).range = e.range := by
  rw [afterFinalize_eq]
@[simp] theorem afterFinalize_bitCount (b : Byte) (e : Encoder) : (afterFinalize b e).bitCount = e.bitCount := by
  rw [afterFinalize_eq]
@[simp] theorem afterFinalize_outputCursor (b : Byte) (e : Encoder) :
    (afterFinalize b e).outputCursor = e.outputCursor := by
  rw [afterFinalize_eq]
@[simp] theorem afterFinalize_outputEnd (b : Byte) (e : Encoder) : (afterFinalize b e).outputEnd = e.outputEnd := by
  rw [afterFinalize_eq]

/-- `FINALIZE(b)` asks the full run counter to count once more (rule R130 (C)). -/
def runOverflows (b : Byte) (e : Encoder) : Bool :=
  e.pendingValid && !e.pendingCarry && b == 0xFF && runFull e

theorem runOverflows_first {b : Byte} {e : Encoder} (hv : e.pendingValid = false) : runOverflows b e = false := by
  simp [runOverflows, hv]

theorem runOverflows_release {b : Byte} {e : Encoder} (hb : e.pendingCarry = true ∨ b ≠ 0xFF) :
    runOverflows b e = false := by
  obtain h | h := hb
  · simp [runOverflows, h]
  · rw [runOverflows, beq_eq_false_iff_ne.2 h, Bool.and_false, Bool.false_and]

theorem runOverflows_extend {e : Encoder} (hv : e.pendingValid = true) (hc : e.pendingCarry = false) :
    runOverflows 0xFF e = runFull e := by
  simp [runOverflows, hv, hc]

theorem runFull_iff {e : Encoder} : runFull e = true ↔ e.run.toNat = 2 ^ 32 - 1 := by
  rw [runFull, beq_iff_eq, ← BitVec.toNat_inj]
  rfl

theorem toNat_run_succ {e : Encoder} (h : runFull e = false) : (e.run + 1).toNat = e.run.toNat + 1 := by
  have hne : e.run ≠ BitVec.allOnes 32 := by simpa [runFull] using h
  have hlt := e.run.isLt
  have hmax : e.run.toNat ≠ 2 ^ 32 - 1 := fun heq => hne (BitVec.eq_of_toNat_eq heq)
  rw [BitVec.toNat_add, show (1 : Word).toNat = 1 from rfl]
  omega

theorem length_heldBytes {e : Encoder} (hv : e.pendingValid = true) :
    (heldBytes e).length = 1 + e.run.toNat := by
  rw [heldBytes, if_pos hv]
  split <;> rw [List.length_cons, List.length_replicate, Nat.add_comm]

/-- The bytes released and those then held are the bytes held before and `b`, in order: none is lost, whatever
the case (rule R130). -/
theorem releasedBy_append_heldBytes {b : Byte} {e : Encoder} (hfirst : e.pendingValid = false → e.run = 0)
    (hrun : runOverflows b e = false) : releasedBy b e ++ heldBytes (afterFinalize b e) = heldBytes e ++ [b] := by
  obtain hv | ⟨hv, hb⟩ | ⟨hv, hc, rfl⟩ := finalize_split b e
  · rw [releasedBy_first hv, afterFinalize_first hv]
    simp [heldBytes, hv, hfirst hv]
  · rw [releasedBy_release hb, afterFinalize_release hv hb]
    simp [heldBytes, hv]
  · rw [runOverflows_extend hv hc] at hrun
    rw [releasedBy_extend hc, afterFinalize_extend hv hc, heldBytes_run_succ hv hc (toNat_run_succ hrun),
      List.nil_append]

/-! ## A procedure that releases bytes and goes on with new registers -/

/-- The state in which the bytes `vs` have left for memory and the encoder goes on with the registers `e`. -/
def delivered (vs : List Byte) (e : Encoder) (s : State) : State :=
  (stored vs s).withEnc (e.atCursor (stored vs s).enc.outputCursor)

@[simp] theorem delivered_enc (vs : List Byte) (e : Encoder) (s : State) :
    (delivered vs e s).enc = e.atCursor (s.enc.outputCursor + BitVec.ofNat 32 vs.length) := rfl
@[simp] theorem delivered_mem (vs : List Byte) (e : Encoder) (s : State) :
    (delivered vs e s).mem = storeBytes s.mem s.enc.outputCursor.toNat vs := rfl

@[simp] theorem delivered_nil (e : Encoder) (s : State) :
    delivered [] e s = s.withEnc (e.atCursor s.enc.outputCursor) := by
  rw [delivered, stored_nil]

section
variable {vs ws : List Byte} {e e' : Encoder} {s : State}

theorem room_delivered (hend : e.outputEnd = s.enc.outputEnd) (h : vs.length ≤ room s.enc) :
    room (delivered vs e s).enc = room s.enc - vs.length := by
  rw [← room_stored h, delivered_enc, room, room, atCursor_outputEnd, hend, stored_enc, atCursor_outputCursor]

theorem delivered_delivered (h : vs.length ≤ room s.enc) :
    delivered ws e' (delivered vs e s) = delivered (vs ++ ws) e' s := by
  unfold delivered
  rw [← stored_append h]
  rfl

end

/-- The procedure `x` run in `s` releases the bytes `vs`: it returns, with the registers `e`, exactly where they
fit the buffer (rule R131). -/
structure Emits (vs : List Byte) (e : Encoder) (s : State) (x : Emit) : Prop where
  fits : vs.length ≤ room s.enc → x = .ok (delivered vs e s)
  refused : room s.enc < vs.length → ∃ t, x = .overflow t

theorem emits_ok {s : State} {e : Encoder} (hc : e.outputCursor = s.enc.outputCursor) :
    Emits [] e s (.ok (s.withEnc e)) :=
  ⟨fun _ => by rw [delivered_nil, ← hc, atCursor_self], fun h => absurd h (Nat.not_lt_zero _)⟩

/-- The bytes are written, and then the registers change. -/
theorem emits_writeAll_bind {vs : List Byte} {s : State} {e : Encoder} {f : State → State}
    (hf : f (stored vs s) = delivered vs e s) : Emits vs e s ((writeAll vs s).bind fun t => .ok (f t)) := by
  rw [writeAll_eq]
  refine ⟨fun h => ?_, fun h => ?_⟩
  · rw [if_pos h, Emit.bind_ok, hf]
  · rw [if_neg (by omega)]
    exact ⟨_, rfl⟩

/-- Then the registers go on, whatever the cursor. -/
theorem Emits.bind_withEnc {vs : List Byte} {e : Encoder} {s : State} {x : Emit} (h : Emits vs e s x)
    {g : Encoder → Encoder} (hg : ∀ e c, g (e.atCursor c) = (g e).atCursor c) :
    Emits vs (g e) s (x.bind fun t => .ok (t.withEnc (g t.enc))) := by
  refine ⟨fun hfit => ?_, fun hroom => ?_⟩
  · rw [h.fits hfit, Emit.bind_ok, delivered_enc, hg]
    rfl
  · obtain ⟨t, rfl⟩ := h.refused hroom
    exact ⟨t, rfl⟩

/-- One procedure after another: the second starts where the first has left the cursor. -/
theorem Emits.bind {vs ws : List Byte} {e e' : Encoder} {s : State} {x : Emit} {f : State → Emit}
    (h : Emits vs e s x) (hend : e.outputEnd = s.enc.outputEnd)
    (hf : Emits ws e' (delivered vs e s) (f (delivered vs e s))) : Emits (vs ++ ws) e' s (x.bind f) := by
  rcases Nat.lt_or_ge (room s.enc) vs.length with hlt | hle
  · obtain ⟨t, rfl⟩ := h.refused hlt
    refine ⟨fun hfit => ?_, fun _ => ⟨t, rfl⟩⟩
    rw [List.length_append] at hfit
    omega
  · rw [h.fits hle, Emit.bind_ok]
    obtain ⟨hfits, hrefused⟩ := hf
    rw [room_delivered hend hle, delivered_delivered hle] at hfits
    rw [room_delivered hend hle] at hrefused
    constructor <;> rw [List.length_append] <;> intro h
    · exact hfits (by omega)
    · exact hrefused (by omega)

/-- `FINALIZE(b)` (rule R130). -/
theorem emits_finalize {b : Byte} {s : State} (hrun : runOverflows b s.enc = false) :
    Emits (releasedBy b s.enc) (afterFinalize b s.enc) s (finalize b s) := by
  obtain hv | ⟨hv, hb⟩ | ⟨hv, hc, rfl⟩ := finalize_split b s.enc
  · rw [releasedBy_first hv, afterFinalize_first hv, finalize_first hv]
    exact emits_ok rfl
  · rw [releasedBy_release hb, afterFinalize_release hv hb, finalize_release hv hb]
    exact emits_writeAll_bind rfl
  · rw [runOverflows_extend hv hc] at hrun
    rw [releasedBy_extend hc, afterFinalize_extend hv hc, finalize_extend hv hc, hrun]
    exact emits_ok rfl

/-- A full run counter ends `FINALIZE` before anything is written (rules R130 (C), R221). -/
theorem finalize_run_overflow {b : Byte} {s : State} (hrun : runOverflows b s.enc = true) :
    finalize b s = .overflow s := by
  obtain hv | ⟨hv, hb⟩ | ⟨hv, hc, rfl⟩ := finalize_split b s.enc
  · rw [runOverflows_first hv] at hrun
    cases hrun
  · rw [runOverflows_release hb] at hrun
    cases hrun
  · rw [runOverflows_extend hv hc] at hrun
    rw [finalize_extend hv hc, if_pos hrun]

/-! ## The fault -/

/-- The state after the fault, in the terms of the state the command began in (rules R136, R221). -/
theorem takeOverflow_wrote {s u : State} (hw : Wrote s u) :
    ∃ t, takeOverflow u = .next t ∧ t.enc.phase = .fault ∧ t.enc.outputCursor = u.enc.outputCursor ∧
      t.enc.outputEnd = s.enc.outputEnd ∧ t.mem = u.mem ∧ t.dec = s.dec ∧ t.host = s.host ∧
      t.responses = s.responses ++ [⟨.bufferOverflow, s.dec.exhausted, u.enc.outputCursor⟩] :=
  ⟨_, rfl, rfl, rfl, hw.outputEnd, rfl, hw.dec, hw.host, by rw [← hw.dec, ← hw.responses]; rfl⟩

theorem Released.cursor_eq {vs : List Byte} {s t : State} (h : Released vs s t) (hroom : room s.enc < vs.length) :
    t.enc.outputCursor = s.enc.outputCursor + BitVec.ofNat 32 (room s.enc) := by
  apply BitVec.eq_of_toNat_eq
  rw [h.cursor, toNat_cursor_add le_rfl, Nat.min_eq_right (by omega)]

end Sys2Proof.Machine
end

section
/-! PROOFS. `START_ENCODE` and `ENCODE_BOOL`, by the case of `FINALIZE` its due byte meets (rules R121, R123, R130,
R131, R136). -/

namespace Sys2Proof.Machine

/-- Settles O16: `START_ENCODE` writes every register and reads none. -/
theorem startEncodeCreatesTheEncoderContext : Obligations.StartEncodeCreatesTheEncoderContext := fun _ _ _ => rfl

/-! ## Step 4 -/

theorem byteRemoved_eq (e : Encoder) :
    byteRemoved e = { e with lowValue := lowShifted e, bitCount := e.bitCount - 8 } := by
  have hcount : e.bitCount - 8 = BitVec.ofInt 6 (e.bitCount.toInt - 8) := by
    rw [Int.sub_eq_add_neg, BitVec.ofInt_add, BitVec.ofInt_toInt, BitVec.sub_eq_add_neg]
    rfl
  rw [byteRemoved, lowShifted_eq, hcount]

/-- A byte that is due is finalized, and leaves `low_value` (rule R123). -/
theorem emits_emitDueByte {s : State} (hdue : byteDue s.enc = true)
    (hrun : runOverflows (topByte s.enc) s.enc = false) :
    Emits (releasedBy (topByte s.enc) s.enc) (byteRemoved (afterFinalize (topByte s.enc) s.enc)) s
      (emitDueByte s) := by
  rw [emitDueByte_some hdue, byteRemoved_eq]
  exact (emits_finalize hrun).bind_withEnc
    (g := fun e => { e with lowValue := lowShifted e, bitCount := e.bitCount - 8 }) fun _ _ => rfl

/-- Where the run counter is full the fault comes before everything else. -/
theorem emitDueByte_run_overflow {s : State} (hdue : byteDue s.enc = true)
    (hrun : runOverflows (topByte s.enc) s.enc = true) : emitDueByte s = .overflow s := by
  rw [emitDueByte_some hdue, finalize_run_overflow hrun, Emit.bind_overflow]

theorem topByte_eq_max_iff {e : Encoder} : topByte e = 0xFF ↔ e.lowValue.toNat / 2 ^ 24 = 255 := by
  rw [← BitVec.toNat_inj, toNat_topByte]
  rfl

/-! ## The whole of `ENCODE_BOOL` -/

/-- The registers after an `ENCODE_BOOL` that completes (rule R123). -/
def encodedNext (bit : Bool) (p : Byte) (e : Encoder) : Encoder :=
  if byteDue (encodeInterval bit p e) then
    byteRemoved (afterFinalize (topByte (encodeInterval bit p e)) (encodeInterval bit p e))
  else encodeInterval bit p e

/-- The byte that becomes due asks the full run counter to count once more (rule R130 (C)). -/
def encodeOverflowsRun (bit : Bool) (p : Byte) (e : Encoder) : Bool :=
  byteDue (encodeInterval bit p e) && runOverflows (topByte (encodeInterval bit p e)) (encodeInterval bit p e)

section
variable {bit : Bool} {p : Byte} {e f : Encoder} (hint : encodeInterval bit p e = f)

include hint

theorem encodeReleases_due (hdue : byteDue f = true) : encodeReleases bit p e = releasedBy (topByte f) f := by
  rw [encodeReleases, hint, if_pos hdue]

theorem encodedNext_due (hdue : byteDue f = true) :
    encodedNext bit p e = byteRemoved (afterFinalize (topByte f) f) := by
  rw [encodedNext, hint, if_pos hdue]

theorem encodeOverflowsRun_due (hdue : byteDue f = true) :
    encodeOverflowsRun bit p e = runOverflows (topByte f) f := by
  rw [encodeOverflowsRun, hint, hdue, Bool.true_and]

theorem encodeReleases_none (hdue : byteDue f = false) : encodeReleases bit p e = [] := by
  rw [encodeReleases, hint, hdue]
  rfl

theorem encodedNext_none (hdue : byteDue f = false) : encodedNext bit p e = f := by
  rw [encodedNext, hint, hdue]
  rfl

theorem encodeOverflowsRun_none (hdue : byteDue f = false) : encodeOverflowsRun bit p e = false := by
  rw [encodeOverflowsRun, hint, hdue, Bool.false_and]

end

/-- Steps 1 to 3 leave the output buffer alone, so step 4 writes where the command began. -/
theorem Emits.of_withEnc {vs : List Byte} {e f : Encoder} {s : State} {x : Emit} (h : Emits vs e (s.withEnc f) x)
    (hc : f.outputCursor = s.enc.outputCursor) (he : f.outputEnd = s.enc.outputEnd) : Emits vs e s x := by
  have hsame := sameBuffer_withEnc hc he
  have hstate : delivered vs e (s.withEnc f) = delivered vs e s := by
    unfold delivered stored
    rw [State.withEnc_enc, hc]
    rfl
  obtain ⟨hfits, hrefused⟩ := h
  rw [hsame.room] at hfits hrefused
  exact ⟨fun hfit => (hfits hfit).trans (by rw [hstate]), hrefused⟩

theorem emits_encodeBool {bit : Bool} {p : Byte} {s : State} (hrun : encodeOverflowsRun bit p s.enc = false) :
    Emits (encodeReleases bit p s.enc) (encodedNext bit p s.enc) s
      (emitDueByte (s.withEnc (encodeInterval bit p s.enc))) := by
  refine Emits.of_withEnc (f := encodeInterval bit p s.enc) ?_ (by simp) (by simp)
  cases hdue : byteDue (encodeInterval bit p s.enc) with
  | true =>
    rw [encodeReleases_due rfl hdue, encodedNext_due rfl hdue]
    rw [encodeOverflowsRun_due rfl hdue] at hrun
    exact emits_emitDueByte (s := s.withEnc _) hdue hrun
  | false =>
    rw [encodeReleases_none rfl hdue, encodedNext_none rfl hdue,
      emitDueByte_none (s := s.withEnc (encodeInterval bit p s.enc)) hdue]
    exact emits_ok rfl

section
variable {bit : Bool} {p : Byte} {s : State} (hp : s.enc.phase = .active)

include hp

theorem exec_encodeBool_active : exec (.encodeBool bit p) s =
    (emitDueByte (s.withEnc (encodeInterval bit p s.enc))).finish (respond .ok 0) := by
  rw [exec, execEncodeBool, whenEncActive_active hp]

/-- It completes where the bytes it releases fit. -/
theorem exec_encodeBool_fits (hrun : encodeOverflowsRun bit p s.enc = false)
    (hfit : (encodeReleases bit p s.enc).length ≤ room s.enc) : exec (.encodeBool bit p) s =
      respond .ok 0 (delivered (encodeReleases bit p s.enc) (encodedNext bit p s.enc) s) := by
  rw [exec_encodeBool_active hp, (emits_encodeBool hrun).fits hfit]
  rfl

/-- Else it takes the fault, with the bytes that fit written. -/
theorem exec_encodeBool_overflow (hov : encodeOverflowsRun bit p s.enc = true ∨
      room s.enc < (encodeReleases bit p s.enc).length) :
    ∃ u, exec (.encodeBool bit p) s = takeOverflow u ∧ Wrote s u ∧
      Released (encodeReleases bit p s.enc) s u := by
  obtain ⟨u, hu⟩ : ∃ u, emitDueByte (s.withEnc (encodeInterval bit p s.enc)) = .overflow u := by
    cases hrun : encodeOverflowsRun bit p s.enc with
    | true =>
      obtain ⟨hdue, hfull⟩ := Bool.and_eq_true_iff.1 hrun
      exact ⟨_, emitDueByte_run_overflow (s := s.withEnc _) hdue hfull⟩
    | false => exact (emits_encodeBool hrun).refused (hov.resolve_left (by rw [hrun]; decide))
  have hwrote := wrote_emitDueByte (s.withEnc (encodeInterval bit p s.enc))
  have hrel := released_emitDueByte (s.withEnc (encodeInterval bit p s.enc))
  rw [hu] at hwrote hrel
  exact ⟨u, by rw [exec_encodeBool_active hp, hu]; rfl,
    (wrote_withEnc (by simp) (by simp) (by simp)).trans hwrote,
    hrel.of_sameBuffer (sameBuffer_withEnc (by simp) (by simp))⟩

end

/-! ## The count after the shift -/

section
variable {bit : Bool} {p : Byte} {k : Nat} {e : Encoder}

/-- The count after the shift still fits its 6 bits (rule R25). -/
theorem toInt_encodedInterval_bitCount (hneg : e.bitCount.toInt < 0) (hk : k ≤ 7) :
    (encodedInterval bit p k e).bitCount.toInt = e.bitCount.toInt + k := by
  rw [← encCount_add hneg hk]
  congr 1
  rw [encodedInterval, BitVec.ofInt_add, BitVec.ofInt_toInt, BitVec.ofInt_natCast]

theorem byteDue_encodedInterval (hneg : e.bitCount.toInt < 0) (hk : k ≤ 7) :
    byteDue (encodedInterval bit p k e) = decide (0 ≤ e.bitCount.toInt + k) := by
  rw [byteDue, toInt_encodedInterval_bitCount hneg hk]

end

/-- Settles O17: no byte is due, so step 4 does nothing. -/
theorem encodeBoolWithoutByteNarrowsTheInterval : Obligations.EncodeBoolWithoutByteNarrowsTheInterval := by
  intro bit p k s hp hr hc hk hcount
  have hint := encodeInterval_eq hr hc hk
  have hnone : byteDue (encodedInterval bit p k s.enc) = false := by
    rw [byteDue_encodedInterval (by omega) hk.le, decide_eq_false_iff_not]
    omega
  have hfits := exec_encodeBool_fits (bit := bit) (p := p) hp (encodeOverflowsRun_none hint hnone)
  rw [encodeReleases_none hint hnone, encodedNext_none hint hnone, delivered_nil] at hfits
  exact hfits (Nat.zero_le _)

/-! ## A byte that becomes due -/

/-- What the statements about a byte that becomes due assume: the context after step 3, and that it is due. -/
theorem encodeInterval_due {bit : Bool} {p : Byte} {k : Nat} {s : State} {e : Encoder} (hr : 2 ≤ s.enc.range.toNat)
    (hc : -24 ≤ s.enc.bitCount.toInt) (hneg : s.enc.bitCount.toInt < 0)
    (hk : Normalizes (selectedRange bit s.enc.range.toNat p.toNat) k) (hcount : 0 ≤ s.enc.bitCount.toInt + k)
    (he : e = encodedInterval bit p k s.enc) :
    encodeInterval bit p s.enc = e ∧ byteDue e = true ∧ e.outputCursor = s.enc.outputCursor := by
  subst he
  exact ⟨encodeInterval_eq hr hc hk, (byteDue_encodedInterval hneg hk.le).trans (decide_eq_true hcount), rfl⟩

/-- Settles O18: the cases (A) and (C) of `FINALIZE`, in which nothing is written. -/
theorem encodeBoolHoldsAByteThatACarryCanReach : Obligations.EncodeBoolHoldsAByteThatACarryCanReach := by
  intro bit p k s e hp hr hc hneg hk hcount he
  obtain ⟨hint, hdue, hcursor⟩ := encodeInterval_due hr hc hneg hk hcount he
  have hfits := exec_encodeBool_fits (bit := bit) (p := p) hp
  rw [encodeOverflowsRun_due hint hdue, encodeReleases_due hint hdue, encodedNext_due hint hdue] at hfits
  refine ⟨fun hv => ?_, fun hv hcarry htop hrun => ?_⟩
  · rw [releasedBy_first hv, afterFinalize_first hv, topByte_eq] at hfits
    rw [hfits (runOverflows_first hv) (Nat.zero_le _), delivered_nil, ← hcursor]
    rfl
  · have hfull : runFull e = false := by
      rw [← Bool.not_eq_true, runFull_iff]
      omega
    rw [topByte_eq_max_iff.2 htop, releasedBy_extend hcarry, afterFinalize_extend hv hcarry] at hfits
    rw [hfits ((runOverflows_extend hv hcarry).trans hfull) (Nat.zero_le _), delivered_nil, ← hcursor]
    rfl

/-- Settles O19: the cases (B) and (D), in which the held bytes are written. -/
theorem encodeBoolReleasesTheHeldBytes : Obligations.EncodeBoolReleasesTheHeldBytes := by
  intro bit p k s e hp hr hc hneg hk hcount he hv hb hroom
  have hb : e.pendingCarry = true ∨ topByte e ≠ 0xFF := hb.imp_right (mt topByte_eq_max_iff.1)
  obtain ⟨hint, hdue, hcursor⟩ := encodeInterval_due hr hc hneg hk hcount he
  have hfits := exec_encodeBool_fits (bit := bit) (p := p) hp
    ((encodeOverflowsRun_due hint hdue).trans (runOverflows_release hb))
  rw [encodeReleases_due hint hdue, encodedNext_due hint hdue, releasedBy_release hb, afterFinalize_release hv hb,
    length_heldBytes hv] at hfits
  have hnext : s.enc.outputCursor + 1 + e.run = s.enc.outputCursor + BitVec.ofNat 32 (heldBytes e).length := by
    rw [length_heldBytes hv, BitVec.ofNat_add, BitVec.ofNat_toNat, BitVec.setWidth_eq, BitVec.add_assoc]
    rfl
  have hheld : (if e.pendingCarry then (e.pendingByte + 1) :: List.replicate e.run.toNat 0x00
      else e.pendingByte :: List.replicate e.run.toNat 0xFF) = heldBytes e := by rw [heldBytes, if_pos hv]
  rw [hfits hroom, topByte_eq, hheld, hnext]
  rfl

/-- Settles O20: the fault at the refused write. -/
theorem encodeBoolOverflowStopsAtTheRefusedWrite : Obligations.EncodeBoolOverflowStopsAtTheRefusedWrite := by
  intro bit p k s e hp hr hc hneg hk hcount he hv hb hroom
  have hb : e.pendingCarry = true ∨ topByte e ≠ 0xFF := hb.imp_right (mt topByte_eq_max_iff.1)
  obtain ⟨hint, hdue, -⟩ := encodeInterval_due hr hc hneg hk hcount he
  have hrels : encodeReleases bit p s.enc = heldBytes e :=
    (encodeReleases_due hint hdue).trans (releasedBy_release hb)
  have hlen : room s.enc < (encodeReleases bit p s.enc).length := by
    rw [hrels, length_heldBytes hv]
    exact hroom
  obtain ⟨u, hexec, hwrote, hrel⟩ := exec_encodeBool_overflow hp (.inr hlen)
  obtain ⟨t, ht, hphase, hcur, hend, hmem, hdec, hhost, hresp⟩ := takeOverflow_wrote hwrote
  exact ⟨t, hexec.trans ht, hphase, hcur.trans (hrel.cursor_eq hlen), hend,
    by rw [hmem, hrel.mem, hrels], hdec, hhost, by rw [hresp, hcur]⟩

end Sys2Proof.Machine
end

section
/-! PROOFS. `STOP_ENCODE`: four times `FINALIZE` and the `DRAIN` release the held bytes and those of `low_value`, or
stop at the refused write, or at a run counter that is full (rules R130 to R133, R136, R221). -/

namespace Sys2Proof.Machine

/-! ## The registers after the emission of top bytes and the `DRAIN` -/

/-- The registers after the top byte of `low_value` has been emitted (rule R125). -/
def afterTopByte (e : Encoder) : Encoder :=
  { afterFinalize (topByte e) e with lowValue := lowShifted (afterFinalize (topByte e) e) }

/-- The registers after a `DRAIN` (rule R132). -/
def drained (e : Encoder) : Encoder := { e with pendingValid := false, run := 0 }

@[simp] theorem afterTopByte_lowValue (e : Encoder) : (afterTopByte e).lowValue = lowShifted e := by
  rw [afterTopByte, lowShifted, lowShifted, afterFinalize_lowValue]
@[simp] theorem afterTopByte_outputEnd (e : Encoder) : (afterTopByte e).outputEnd = e.outputEnd :=
  afterFinalize_outputEnd _ e

theorem afterTopByte_holds (e : Encoder) :
    (afterTopByte e).pendingValid = true ∧ (afterTopByte e).pendingCarry = false :=
  afterFinalize_holds (topByte e) e

theorem afterTopByte_atCursor (e : Encoder) (c : Word) :
    afterTopByte (e.atCursor c) = (afterTopByte e).atCursor c := by
  unfold afterTopByte
  rw [show topByte (e.atCursor c) = topByte e from rfl, afterFinalize_atCursor]
  rfl

theorem iterate_afterTopByte_atCursor (n : Nat) (e : Encoder) (c : Word) :
    afterTopByte^[n] (e.atCursor c) = (afterTopByte^[n] e).atCursor c :=
  Function.Commute.iterate_left (f := afterTopByte) (g := (Encoder.atCursor · c))
    (fun e => afterTopByte_atCursor e c) n e

/-- The run counter that can count the bytes `0xFF` to come does not overflow at the first of them. -/
theorem RunFits.runOverflows {b : Byte} {bs : List Byte} {e : Encoder} (h : RunFits (b :: bs) e) :
    runOverflows b e = false := by
  obtain hv | ⟨hv, hb⟩ | ⟨hv, hc, rfl⟩ := finalize_split b e
  · exact runOverflows_first hv
  · exact runOverflows_release hb
  · rw [runOverflows_extend hv hc, runFull_eq_false (h.run_succ hv hc).1]

/-- And it can count the rest after the `FINALIZE` of the first. -/
theorem RunFits.afterFinalize {b : Byte} {bs : List Byte} {e : Encoder} (h : RunFits (b :: bs) e)
    (hl : bs.length < 2 ^ 32) : RunFits bs (afterFinalize b e) := by
  obtain hv | ⟨hv, hb⟩ | ⟨hv, hc, rfl⟩ := finalize_split b e
  · exact runFits_of_run_zero (by rw [afterFinalize_first hv]; exact h.first hv) hl
  · exact runFits_of_run_zero (by rw [afterFinalize_release hv hb]) hl
  · rw [afterFinalize_extend hv hc]
    exact (h.run_succ hv hc).2

/-- `DRAIN` with no carry pending (rule R132). -/
theorem emits_drain {s : State} (hc : s.enc.pendingCarry = false)
    (hrun : s.enc.pendingValid = false → s.enc.run = 0) :
    Emits (heldBytes s.enc) (drained s.enc) s (drain s) := by
  cases hv : s.enc.pendingValid with
  | false =>
    have hsame : drained s.enc = s.enc := by rw [drained, ← hrun hv, ← hv]
    rw [drain_empty hv, hsame, heldBytes, hv]
    exact emits_ok rfl
  | true =>
    rw [drain_valid hv hc]
    exact emits_writeAll_bind rfl

theorem topBytes_succ (n : Nat) (e : Encoder) : topBytes (n + 1) e = topByte e :: topBytes n (afterTopByte e) := by
  rw [topBytes, topBytes_congr n (e' := afterTopByte e) (afterTopByte_lowValue e).symm]

theorem topBytes_atCursor (n : Nat) (e : Encoder) (c : Word) : topBytes n (e.atCursor c) = topBytes n e :=
  topBytes_congr n rfl

theorem emits_emitTopByte {s : State} (hrun : runOverflows (topByte s.enc) s.enc = false) :
    Emits (releasedBy (topByte s.enc) s.enc) (afterTopByte s.enc) s (emitTopByte s) :=
  (emits_finalize hrun).bind_withEnc (g := fun e => { e with lowValue := lowShifted e }) fun _ _ => rfl

/-- `n` times `FINALIZE` and the `DRAIN` release the held bytes and then `n` bytes of `low_value`. -/
theorem emits_topBytes_drain {n : Nat} {s : State} (hn : n < 2 ^ 32) (hc : n = 0 → s.enc.pendingCarry = false)
    (hrun : RunFits (topBytes n s.enc) s.enc) :
    Emits (heldBytes s.enc ++ topBytes n s.enc) (drained (afterTopByte^[n] s.enc)) s
      ((emitTopBytes n s).bind drain) := by
  induction n generalizing s with
  | zero =>
    rw [topBytes, List.append_nil]
    exact emits_drain (hc rfl) hrun.first
  | succ n ih =>
    rw [topBytes_succ] at hrun ⊢
    have hover := hrun.runOverflows
    obtain ⟨hfirst, hlater⟩ := hrun.afterFinalize (by rw [length_topBytes]; omega)
    have hnext := ih (s := delivered (releasedBy (topByte s.enc) s.enc) (afterTopByte s.enc) s) (by omega)
      (fun _ => (afterTopByte_holds _).2)
      (by rw [delivered_enc, topBytes_atCursor]; exact ⟨hfirst, hlater⟩)
    rw [delivered_enc, topBytes_atCursor, iterate_afterTopByte_atCursor] at hnext
    rw [← List.singleton_append, ← List.append_assoc, ← releasedBy_append_heldBytes hrun.first hover,
      List.append_assoc, emitTopBytes, Emit.bind_assoc]
    exact (emits_emitTopByte hover).bind (afterTopByte_outputEnd _) ⟨hnext.fits, hnext.refused⟩

/-! ## The registers `STOP_ENCODE` ends with (rule R133) -/

theorem afterFinalize_pendingByte (b : Byte) (e : Encoder) : (afterFinalize b e).pendingByte =
    if e.pendingValid && !e.pendingCarry && b == 0xFF then e.pendingByte else b := by
  obtain hv | ⟨hv, hb⟩ | ⟨hv, hc, rfl⟩ := finalize_split b e
  · rw [afterFinalize_first hv, hv]
    rfl
  · rw [afterFinalize_release hv hb]
    obtain hc | hb := hb
    · rw [hc, Bool.not_true, Bool.and_false, Bool.false_and]
      rfl
    · rw [beq_eq_false_iff_ne.2 hb, Bool.and_false]
      rfl
  · rw [afterFinalize_extend hv hc, hv, hc]
    rfl

/-- While no carry is pending the byte held is the last one that is not `0xFF`. -/
theorem iterate_afterTopByte_pendingByte (n : Nat) {e : Encoder} (hv : e.pendingValid = true)
    (hc : e.pendingCarry = false) : (afterTopByte^[n] e).pendingByte =
      (topBytes n e).foldl (fun held b => if b = 0xFF then held else b) e.pendingByte := by
  induction n generalizing e with
  | zero => rfl
  | succ n ih =>
    obtain ⟨hv', hc'⟩ := afterTopByte_holds e
    rw [Function.iterate_succ_apply, ih hv' hc', topBytes_succ, List.foldl_cons,
      show (afterTopByte e).pendingByte = (afterFinalize (topByte e) e).pendingByte from rfl,
      afterFinalize_pendingByte, hv, hc]
    simp only [Bool.not_false, Bool.and_true, Bool.true_and, beq_iff_eq]

theorem lastPending_eq (e : Encoder) : (afterTopByte^[Config.flushBytes] e).pendingByte = lastPending e := by
  obtain ⟨hv, hc⟩ := afterTopByte_holds e
  rw [lastPending, ← topBytes_flush, Config.flushBytes, topBytes_succ, List.tail_cons,
    Function.iterate_succ_apply, iterate_afterTopByte_pendingByte 3 hv hc, ← afterFinalize_pendingByte]
  rfl

/-- Four bytes are all of `low_value`. -/
theorem lowValue_flushed (e : Encoder) : (afterTopByte^[Config.flushBytes] e).lowValue = 0 := by
  apply BitVec.eq_of_toNat_eq
  simp only [Config.flushBytes, Function.iterate_succ_apply', Function.iterate_zero, id, afterTopByte_lowValue,
    toNat_lowShifted]
  rw [show (0 : Word).toNat = 0 from rfl]
  omega

/-- Beside `low_value` and the bytes held back nothing changes, and after a `DRAIN` nothing is held. -/
theorem drained_iterate_afterTopByte (n : Nat) (e : Encoder) :
    drained (afterTopByte^[n + 1] e) = { e with
      lowValue := (afterTopByte^[n + 1] e).lowValue, pendingByte := (afterTopByte^[n + 1] e).pendingByte,
      pendingCarry := false, pendingValid := false, run := 0 } := by
  induction n generalizing e with
  | zero =>
    rw [drained, Function.iterate_one, afterTopByte, afterFinalize_eq, (afterFinalize_holds _ _).2]
  | succ n ih =>
    rw [Function.iterate_succ_apply, ih (afterTopByte e), afterTopByte, afterFinalize_eq]

theorem drained_flushed (e : Encoder) : drained (afterTopByte^[Config.flushBytes] e) = { e with
    lowValue := 0, pendingCarry := false, pendingValid := false, run := 0, pendingByte := lastPending e } := by
  rw [Config.flushBytes, drained_iterate_afterTopByte 3 e, ← lastPending_eq e]
  congr 1
  exact lowValue_flushed e

/-! ## The command -/

theorem runFits_of_not_stopOverflowsRun {e : Encoder} (hrun : e.pendingValid = false → e.run = 0)
    (hfits : stopOverflowsRun e = false) : RunFits (topBytes Config.flushBytes e) e :=
  ⟨hrun, fun hv hc => by rw [topBytes_flush]; simpa [stopOverflowsRun, hv, hc] using hfits⟩

/-- A stream that fits the buffer has no run too long to count. -/
theorem not_stopOverflowsRun_of_length_le {e : Encoder} (h : (stopReleases e).length ≤ room e) :
    stopOverflowsRun e = false := by
  rw [← Bool.not_eq_true]
  intro hover
  obtain ⟨⟨hv, -⟩, hlong⟩ : (e.pendingValid = true ∧ e.pendingCarry = false) ∧
      2 ^ 32 ≤ e.run.toNat + ((lowBytes e).takeWhile (· == 0xFF)).length := by simpa [stopOverflowsRun] using hover
  have hle := (List.takeWhile_prefix (l := lowBytes e) (· == 0xFF)).length_le
  have hroom := room_lt e
  rw [stopReleases, List.length_append, length_heldBytes hv] at h
  omega

theorem exec_stopEncode_active {s : State} (hp : s.enc.phase = .active) :
    exec .stopEncode s = ((emitTopBytes Config.flushBytes s).bind drain).finish fun t =>
      respond .ok t.enc.outputCursor (t.withEnc { t.enc with phase := .done }) := by
  rw [exec, execStopEncode, whenEncActive_active hp]

theorem exec_stopEncode_overflow {s u : State} (hp : s.enc.phase = .active)
    (h : (emitTopBytes Config.flushBytes s).bind drain = .overflow u) :
    exec .stopEncode s = takeOverflow u ∧ Wrote s u := by
  have hwrote := wrote_stop s
  rw [h] at hwrote
  exact ⟨by rw [exec_stopEncode_active hp, h]; rfl, hwrote⟩

/-- All of `STOP_ENCODE` but its answer (rule R133). -/
theorem emits_stop {s : State} (hrun : s.enc.pendingValid = false → s.enc.run = 0)
    (hfits : stopOverflowsRun s.enc = false) :
    Emits (stopReleases s.enc) { s.enc with
      lowValue := 0, pendingCarry := false, pendingValid := false, run := 0, pendingByte := lastPending s.enc } s
      ((emitTopBytes Config.flushBytes s).bind drain) := by
  rw [stopReleases, ← topBytes_flush, ← drained_flushed]
  exact emits_topBytes_drain (by decide) (fun h => absurd h (by decide))
    (runFits_of_not_stopOverflowsRun hrun hfits)

/-- Settles O22: everything released fits. -/
theorem stopEncodeStoresTheRestOfTheStream : Obligations.StopEncodeStoresTheRestOfTheStream := by
  intro s hp hrun hroom
  rw [exec_stopEncode_active hp, (emits_stop hrun (not_stopOverflowsRun_of_length_le hroom)).fits hroom]
  rfl

/-- Settles O23: the fault at the refused write. -/
theorem stopEncodeOverflowStopsAtTheRefusedWrite : Obligations.StopEncodeOverflowStopsAtTheRefusedWrite := by
  intro s hp hrun hfits hroom
  obtain ⟨u, hu⟩ := (emits_stop hrun hfits).refused hroom
  obtain ⟨hexec, hwrote⟩ := exec_stopEncode_overflow hp hu
  have hrel := released_stop hrun hfits
  rw [hu] at hrel
  obtain ⟨t, ht, hphase, hcur, hend, hmem, hdec, hhost, hresp⟩ := takeOverflow_wrote hwrote
  exact ⟨t, hexec.trans ht, hphase, hcur.trans (hrel.cursor_eq hroom), hend, hmem.trans hrel.mem, hdec, hhost,
    by rw [hresp, hcur]⟩

/-! ## A run that the counter cannot count (rules R130 (C), R221) -/

/-- `n` times `FINALIZE` with more bytes `0xFF` to come than the run counter can count. -/
theorem emitTopBytes_run_overflow {n : Nat} {s : State} (hv : s.enc.pendingValid = true)
    (hc : s.enc.pendingCarry = false)
    (hlong : 2 ^ 32 ≤ s.enc.run.toNat + ((topBytes n s.enc).takeWhile (· == 0xFF)).length) :
    ∃ u, emitTopBytes n s = .overflow u ∧ SameBuffer s u := by
  induction n generalizing s with
  | zero =>
    have := s.enc.run.isLt
    rw [topBytes, List.takeWhile_nil, List.length_nil] at hlong
    omega
  | succ n ih =>
    have := s.enc.run.isLt
    rw [topBytes_succ] at hlong
    by_cases htop : topByte s.enc = 0xFF
    · rw [htop, List.takeWhile_cons_of_pos rfl, List.length_cons] at hlong
      cases hfull : runFull s.enc with
      | true =>
        exact ⟨s, by rw [emitTopBytes, emitTopByte, htop, finalize_extend hv hc, hfull]; rfl, SameBuffer.refl s⟩
      | false =>
        have hone : emitTopByte s = .ok (s.withEnc (afterTopByte s.enc)) := by
          rw [emitTopByte, htop, finalize_extend hv hc, hfull, afterTopByte, htop, afterFinalize_extend hv hc]
          rfl
        have hnext : (afterTopByte s.enc).run = s.enc.run + 1 := by
          rw [afterTopByte, htop, afterFinalize_extend hv hc]
        obtain ⟨hv', hc'⟩ := afterTopByte_holds s.enc
        obtain ⟨u, hu, hsame⟩ := ih (s := s.withEnc (afterTopByte s.enc)) hv' hc' (by
          rw [State.withEnc_enc, hnext, toNat_run_succ hfull]
          omega)
        obtain ⟨hm, hcur, hend⟩ := hsame
        exact ⟨u, by rw [emitTopBytes, hone]; exact hu, hm, hcur.trans (afterFinalize_outputCursor _ _),
          hend.trans (afterFinalize_outputEnd _ _)⟩
    · rw [List.takeWhile_cons_of_neg (by simpa using htop), List.length_nil] at hlong
      omega

/-- Settles O21: `FINALIZE` raises before it writes anything. -/
theorem runCounterOverflowsInsteadOfWrapping : Obligations.RunCounterOverflowsInsteadOfWrapping := by
  constructor
  · intro bit p k s e hp hr hc hneg hk hcount he hv hcarry htop hrun
    obtain ⟨hint, hdue, -⟩ := encodeInterval_due hr hc hneg hk hcount he
    have hover : encodeOverflowsRun bit p s.enc = true := by
      rw [encodeOverflowsRun_due hint hdue, topByte_eq_max_iff.2 htop, runOverflows_extend hv hcarry, runFull_iff]
      exact hrun
    obtain ⟨u, hexec, hwrote, hrel⟩ := exec_encodeBool_overflow hp (.inl hover)
    rw [encodeReleases_due hint hdue, topByte_eq_max_iff.2 htop, releasedBy_extend hcarry] at hrel
    have hcur : u.enc.outputCursor = s.enc.outputCursor := BitVec.eq_of_toNat_eq (by simpa using hrel.cursor)
    obtain ⟨t, ht, hphase, hcur', hend, hmem, hrest⟩ := takeOverflow_wrote hwrote
    exact ⟨t, hexec.trans ht, hphase, hcur'.trans hcur, hend,
      by rw [hmem, hrel.mem, List.take_nil, storeBytes_nil], hcur ▸ hrest⟩
  · intro s hp hover
    obtain ⟨⟨hv, hcarry⟩, hlong⟩ : (s.enc.pendingValid = true ∧ s.enc.pendingCarry = false) ∧
        2 ^ 32 ≤ s.enc.run.toNat + ((lowBytes s.enc).takeWhile (· == 0xFF)).length := by
      simpa [stopOverflowsRun] using hover
    rw [← topBytes_flush] at hlong
    obtain ⟨u, hu, hsame⟩ := emitTopBytes_run_overflow hv hcarry hlong
    obtain ⟨hexec, hwrote⟩ := exec_stopEncode_overflow (u := u) hp (by rw [hu]; rfl)
    obtain ⟨t, ht, hphase, hcur, hend, hmem, hrest⟩ := takeOverflow_wrote hwrote
    exact ⟨t, hexec.trans ht, hphase, hcur.trans hsame.cursor, hend, hmem.trans hsame.mem, hsame.cursor ▸ hrest⟩

end Sys2Proof.Machine
end

section
/-! PROOFS. The carry invariant of the encoder: `START_ENCODE` establishes it and every `ENCODE_BOOL` that completes
keeps it (rules R193, R195 to R198). -/

namespace Sys2Proof.Machine

/-! ## The interval above `low_value` -/

/-- What rule R197 says of an interval that begins at `low_value` and is `w` units of its bit 0 wide. -/
structure IntervalInv (e : Encoder) (w : Nat) : Prop where
  first : e.pendingValid = false → e.pendingCarry = false ∧ e.run = 0 ∧ e.lowValue.toNat + w ≤ 255 * 2 ^ 24
  later : e.pendingValid = true →
    e.pendingByte ≠ 0xFF ∧ e.pendingCarry.toNat * 2 ^ 32 + e.lowValue.toNat + w < 2 ^ 32 + 2 ^ 16

theorem IntervalInv.valid_of_carry {e : Encoder} {w : Nat} (h : IntervalInv e w) (hc : e.pendingCarry = true) :
    e.pendingValid = true := by
  rw [← Bool.not_eq_false]
  intro hv
  rw [(h.first hv).1] at hc
  cases hc

theorem EncInv.interval {e : Encoder} (h : EncInv e) : IntervalInv e (e.range.toNat * 2 ^ encPos e) :=
  ⟨h.first, h.later⟩

theorem EncInv.low_dvd {e : Encoder} (h : EncInv e) : 2 ^ encPos e ∣ e.lowValue.toNat :=
  Nat.dvd_of_mod_eq_zero h.low_aligned

/-- The part of the interval that is selected ends where the interval does, or below. -/
theorem exactSum_add_selected_le {bit : Bool} {p : Byte} {e : Encoder} (hr : 2 ≤ e.range.toNat) :
    exactSum bit p e + selectedRange bit e.range.toNat p.toNat * 2 ^ encPos e ≤
      e.lowValue.toNat + e.range.toNat * 2 ^ encPos e := by
  obtain ⟨-, hle⟩ := exactSplit_bounds hr p.isLt
  unfold exactSum selectedRange
  cases bit with
  | true =>
    have hsum : exactSplit e.range.toNat p.toNat * 2 ^ encPos e +
        (e.range.toNat - exactSplit e.range.toNat p.toNat) * 2 ^ encPos e = e.range.toNat * 2 ^ encPos e := by
      rw [← Nat.add_mul]
      congr 1
      omega
    simp only [if_true]
    exact (Nat.add_assoc ..).trans_le (Nat.add_le_add_left hsum.le _)
  | false =>
    have hsplit : exactSplit e.range.toNat p.toNat ≤ e.range.toNat := by omega
    exact Nat.add_le_add_left (Nat.mul_le_mul_right _ hsplit) _

theorem dvd_exactSum {bit : Bool} {p : Byte} {e : Encoder} (h : 2 ^ encPos e ∣ e.lowValue.toNat) :
    2 ^ encPos e ∣ exactSum bit p e := by
  cases bit with
  | true => exact Nat.dvd_add h (Nat.dvd_mul_left ..)
  | false => exact h

/-- The carry out of `low_value` and what is left of it are the exact sum: no second carry is lost, since the
interval ends below `2^33` (rules R26, R197). -/
theorem IntervalInv.encodedInterval {bit : Bool} {p : Byte} {k w w' : Nat} {e : Encoder} (h : IntervalInv e w)
    (hw : exactSum bit p e + w' ≤ e.lowValue.toNat + w) : IntervalInv (encodedInterval bit p k e) w' := by
  have hlow : (Machine.encodedInterval bit p k e).lowValue.toNat = exactSum bit p e % 2 ^ 32 := BitVec.toNat_ofNat ..
  have hcarry : (Machine.encodedInterval bit p k e).pendingCarry =
      (e.pendingCarry || decide (2 ^ 32 ≤ exactSum bit p e)) := rfl
  constructor
  · intro hv
    obtain ⟨hc, hrun, hend⟩ := h.first hv
    refine ⟨?_, hrun, by omega⟩
    rw [hcarry, hc, Bool.false_or, decide_eq_false_iff_not]
    omega
  · intro hv
    obtain ⟨hb, hend⟩ := h.later hv
    refine ⟨hb, ?_⟩
    rw [hcarry, hlow]
    cases hc : e.pendingCarry with
    | true =>
      rw [hc, Bool.toNat_true] at hend
      rw [Bool.true_or, Bool.toNat_true]
      omega
    | false =>
      rw [hc, Bool.toNat_false] at hend
      rw [Bool.false_or]
      by_cases hover : 2 ^ 32 ≤ exactSum bit p e
      · rw [decide_eq_true hover, Bool.toNat_true]
        omega
      · rw [decide_eq_false hover, Bool.toNat_false]
        omega

/-- A top byte that leaves is not `0xFF` where it becomes the pending byte: as the first byte it lies below the top of
the initial interval, and with a carry it is 0 (rules R197, R198). -/
theorem IntervalInv.pendingByte_ne {e : Encoder} {w : Nat} (h : IntervalInv e w) (hw : 0 < w) :
    (afterFinalize (topByte e) e).pendingByte ≠ 0xFF := by
  have hlow := e.lowValue.isLt
  obtain hv | ⟨hv, hb⟩ | ⟨hv, hc, htop⟩ := finalize_split (topByte e) e
  · obtain ⟨-, -, hend⟩ := h.first hv
    rw [afterFinalize_first hv]
    exact mt topByte_eq_max_iff.1 (by omega)
  · obtain ⟨-, hend⟩ := h.later hv
    rw [afterFinalize_release hv hb]
    obtain hc | hb := hb
    · rw [hc, Bool.toNat_true] at hend
      exact mt topByte_eq_max_iff.1 (by omega)
    · exact hb
  · rw [htop, afterFinalize_extend hv hc]
    exact (h.later hv).1

theorem toNat_byteRemoved_lowValue (e : Encoder) :
    (byteRemoved e).lowValue.toNat = e.lowValue.toNat % 2 ^ 24 * 2 ^ 8 := by
  rw [byteRemoved_eq]
  exact toNat_lowShifted e

theorem toInt_byteRemoved_bitCount {e : Encoder} (h : -24 ≤ e.bitCount.toInt) :
    (byteRemoved e).bitCount.toInt = e.bitCount.toInt - 8 := by
  rw [byteRemoved_eq]
  exact encCount_sub h

/-- The top byte gone, the interval above what is left of `low_value` ends below `2^32 + 2^16`: it is at most 255 units
wide when a byte is due (rule R197 (c)). -/
theorem IntervalInv.byteRemoved {e : Encoder} {w : Nat} (h : IntervalInv e w) (hw : 0 < w) (hw' : w ≤ 255) :
    IntervalInv (byteRemoved (afterFinalize (topByte e) e)) (w * 2 ^ 8) := by
  obtain ⟨hv, hc⟩ := afterFinalize_holds (topByte e) e
  refine ⟨fun hv' => absurd (hv.symm.trans hv') (by decide), fun _ => ⟨h.pendingByte_ne hw, ?_⟩⟩
  rw [toNat_byteRemoved_lowValue, afterFinalize_lowValue,
    show (Machine.byteRemoved (afterFinalize (topByte e) e)).pendingCarry = false from hc, Bool.toNat_false]
  omega

/-! ## `ENCODE_BOOL` keeps it -/

theorem encInv_of_interval {e : Encoder} {w : Nat} (hr : 128 ≤ e.range.toNat) (hge : -24 ≤ e.bitCount.toInt)
    (hneg : e.bitCount.toInt < 0) (hlow : 2 ^ encPos e ∣ e.lowValue.toNat) (h : IntervalInv e w)
    (hw : w = e.range.toNat * 2 ^ encPos e) : EncInv e :=
  ⟨hr, hge, hneg, Nat.mod_eq_zero_of_dvd hlow, hw ▸ h.first, hw ▸ h.later⟩

section
variable {bit : Bool} {p : Byte} {k : Nat} {e : Encoder}

theorem EncInv.range_two (h : EncInv e) : 2 ≤ e.range.toNat := by have := h.range_ge; omega

theorem EncInv.exists_shift (bit : Bool) (p : Byte) (h : EncInv e) :
    ∃ k, Normalizes (selectedRange bit e.range.toNat p.toNat) k := by
  obtain ⟨hpos, hle⟩ := selectedRange_bounds bit h.range_two p.isLt
  have := e.range.isLt
  exact ⟨_, (exactShift_eq_iff hpos (by omega)).1 rfl⟩

theorem EncInv.narrowed (h : EncInv e) : IntervalInv (Machine.encodedInterval bit p k e)
    (selectedRange bit e.range.toNat p.toNat * 2 ^ encPos e) :=
  h.interval.encodedInterval (exactSum_add_selected_le h.range_two)

theorem EncInv.low_dvd_narrowed (h : EncInv e) :
    2 ^ encPos e ∣ (Machine.encodedInterval bit p k e).lowValue.toNat := by
  have hge := h.count_ge
  have hpos : encPos e ≤ 32 := by
    unfold encPos
    omega
  rw [show (Machine.encodedInterval bit p k e).lowValue.toNat = exactSum bit p e % 2 ^ 32 from BitVec.toNat_ofNat ..]
  exact (Nat.dvd_mod_iff (Nat.pow_dvd_pow 2 hpos)).2 (dvd_exactSum h.low_dvd)

/-- After steps 1 to 3 the carry still stops at the byte held. -/
theorem EncInv.encodeInterval (bit : Bool) (p : Byte) (h : EncInv e) :
    ∃ w, IntervalInv (encodeInterval bit p e) w := by
  obtain ⟨k, hk⟩ := h.exists_shift bit p
  exact ⟨_, encodeInterval_eq h.range_two h.count_ge hk ▸ h.narrowed⟩

theorem toNat_encodedInterval_range (hk : Normalizes (selectedRange bit e.range.toNat p.toNat) k) :
    (encodedInterval bit p k e).range.toNat = selectedRange bit e.range.toNat p.toNat * 2 ^ k :=
  (BitVec.toNat_ofNat ..).trans (Nat.mod_eq_of_lt (by have := hk.2; omega))

/-- The shift does not reach the end of the count: no byte is due. -/
theorem EncInv.encodedInterval (h : EncInv e) (hk : Normalizes (selectedRange bit e.range.toNat p.toNat) k)
    (hnone : e.bitCount.toInt + k < 0) : EncInv (encodedInterval bit p k e) := by
  have hge := h.count_ge
  have hcount := toInt_encodedInterval_bitCount (bit := bit) (p := p) h.count_neg hk.le
  have hrange := toNat_encodedInterval_range hk
  have hpos : encPos e = k + encPos (Machine.encodedInterval bit p k e) := by
    unfold encPos
    omega
  refine encInv_of_interval (by rw [hrange]; exact hk.1) (by omega) (by omega) ?_ h.narrowed ?_
  · exact (Nat.pow_dvd_pow 2 (by omega)).trans h.low_dvd_narrowed
  · rw [hrange, Nat.mul_assoc, ← Nat.pow_add, ← hpos]

/-- The shift reaches it: a byte leaves, and the count has 8 fewer. -/
theorem EncInv.byteRemoved (h : EncInv e) (hk : Normalizes (selectedRange bit e.range.toNat p.toNat) k)
    (hdue : 0 ≤ e.bitCount.toInt + k) {f : Encoder} (hf : f = Machine.encodedInterval bit p k e) :
    EncInv (byteRemoved (afterFinalize (topByte f) f)) := by
  have hneg := h.count_neg
  have hk7 := hk.le
  have hcount : f.bitCount.toInt = e.bitCount.toInt + k := hf ▸ toInt_encodedInterval_bitCount hneg hk7
  have hpos : encPos e ≤ k := by
    unfold encPos
    omega
  have hrange : f.range.toNat = selectedRange bit e.range.toNat p.toNat * 2 ^ k := hf ▸ toNat_encodedInterval_range hk
  have hwidth : selectedRange bit e.range.toNat p.toNat * 2 ^ encPos e ≤ 255 :=
    (Nat.mul_le_mul_left _ (Nat.pow_le_pow_right (by decide) hpos)).trans hk.2
  have hinv := IntervalInv.byteRemoved (hf ▸ h.narrowed (k := k))
    (Nat.mul_pos (selectedRange_bounds bit h.range_two p.isLt).1 (Nat.two_pow_pos _)) hwidth
  have hdvd : 2 ^ encPos e ∣ f.lowValue.toNat := hf ▸ h.low_dvd_narrowed
  have hrange' : (Machine.byteRemoved (afterFinalize (topByte f) f)).range = f.range := afterFinalize_range _ f
  have hlow' := toNat_byteRemoved_lowValue (afterFinalize (topByte f) f)
  have hcount' := toInt_byteRemoved_bitCount (e := afterFinalize (topByte f) f) (by rw [afterFinalize_bitCount]; omega)
  rw [afterFinalize_lowValue] at hlow'
  rw [afterFinalize_bitCount, hcount] at hcount'
  generalize Machine.byteRemoved (afterFinalize (topByte f) f) = g at *
  have hpos' : encPos e + 8 = k + encPos g := by
    unfold encPos
    omega
  refine encInv_of_interval (by rw [hrange', hrange]; exact hk.1) (by omega) (by omega) ?_ hinv ?_
  · have hlow : 2 ^ (encPos e + 8) ∣ g.lowValue.toNat := by
      rw [hlow', Nat.pow_add]
      exact Nat.mul_dvd_mul_right ((Nat.dvd_mod_iff (Nat.pow_dvd_pow 2 (by omega))).2 hdvd) _
    exact (Nat.pow_dvd_pow 2 (by omega)).trans hlow
  · rw [hrange', hrange, Nat.mul_assoc, Nat.mul_assoc, ← Nat.pow_add, ← Nat.pow_add, hpos']

end

/-- Every `ENCODE_BOOL` that completes keeps the invariant (rules R193, R195 to R198). -/
theorem EncInv.encodedNext {e : Encoder} (bit : Bool) (p : Byte) (h : EncInv e) :
    EncInv (encodedNext bit p e) := by
  obtain ⟨k, hk⟩ := h.exists_shift bit p
  have hint := encodeInterval_eq h.range_two h.count_ge hk
  have hdue := byteDue_encodedInterval (bit := bit) (p := p) h.count_neg hk.le
  by_cases hcount : 0 ≤ e.bitCount.toInt + k
  · rw [encodedNext_due hint (hdue.trans (decide_eq_true hcount))]
    exact h.byteRemoved hk hcount rfl
  · rw [encodedNext_none hint (hdue.trans (decide_eq_false hcount))]
    exact h.encodedInterval hk (by omega)

/-- The output buffer does not matter. -/
theorem EncInv.of_buffer {e : Encoder} (h : EncInv e) (c d : Word) :
    EncInv { e with outputCursor := c, outputEnd := d } :=
  ⟨h.range_ge, h.count_ge, h.count_neg, h.low_aligned, h.first, h.later⟩

theorem EncInv.atCursor {e : Encoder} (h : EncInv e) (c : Word) : EncInv (e.atCursor c) := h.of_buffer c e.outputEnd

/-- `START_ENCODE` establishes it (rule R121). -/
theorem encInv_startedEncoder (a b : Word) : EncInv (startedEncoder a b) := by
  have hzero : EncInv (startedEncoder 0 0) := ⟨by decide, by decide, by decide, by decide, by decide, by decide⟩
  exact hzero.of_buffer a b

end Sys2Proof.Machine
end

section
/-! PROOFS. The bytes written are those of the encoder that patches memory backward: its output, last byte first, is
at every moment the bytes the machine has written and those it holds back (rules R130, R132, R134). -/

namespace Sys2Proof.Machine

/-! ## Patching a carry -/

/-- The bytes held back, without the pending carry. -/
def unpatchedBytes (e : Encoder) : List Byte := heldBytes { e with pendingCarry := false }

theorem unpatchedBytes_of_no_carry {e : Encoder} (hc : e.pendingCarry = false) : unpatchedBytes e = heldBytes e := by
  rw [unpatchedBytes, ← hc]

theorem unpatchedBytes_atCursor (e : Encoder) (c : Word) : unpatchedBytes (e.atCursor c) = unpatchedBytes e := rfl

theorem patchCarry_replicate (n : Nat) {b : Byte} (hb : b ≠ 0xFF) (bs : List Byte) :
    patchCarry (List.replicate n 0xFF ++ b :: bs) = List.replicate n 0x00 ++ (b + 1) :: bs := by
  induction n with
  | zero => exact if_neg hb
  | succ n ih =>
    rw [List.replicate_succ, List.replicate_succ, List.cons_append, List.cons_append, patchCarry, if_pos rfl, ih]

/-- The patching encoder's output with the pending carry added in. -/
def patchedOut (carry : Bool) (out : List Byte) : List Byte := if carry then patchCarry out else out

theorem reverse_patchFinalize (b : Byte) (carry : Bool) (out : List Byte) :
    (patchFinalize b carry out).reverse = (patchedOut carry out).reverse ++ [b] := List.reverse_cons

/-- A carry patched backward stops at the pending byte, which is not `0xFF`: the held bytes alone change
(rules R54, R198). -/
theorem reverse_patchedOut {e : Encoder} {ws out : List Byte} (hc : e.pendingCarry = true → e.pendingValid = true)
    (hb : e.pendingValid = true → e.pendingByte ≠ 0xFF) (h : out.reverse = ws ++ unpatchedBytes e) :
    (patchedOut e.pendingCarry out).reverse = ws ++ heldBytes e := by
  cases hcarry : e.pendingCarry with
  | false =>
    rw [← unpatchedBytes_of_no_carry hcarry, ← h]
    rfl
  | true =>
    have hv := hc hcarry
    have hout : out = List.replicate e.run.toNat 0xFF ++ e.pendingByte :: ws.reverse := by
      rw [← List.reverse_reverse out, h]
      simp [unpatchedBytes, heldBytes, hv]
    rw [patchedOut, if_pos rfl, hout, patchCarry_replicate _ (hb hv)]
    simp [heldBytes, hv, hcarry]

/-! ## The two encoders side by side -/

/-- The registers both encoders have agree. -/
structure SameInterval (x e : Encoder) : Prop where
  range : x.range = e.range
  lowValue : x.lowValue = e.lowValue
  bitCount : x.bitCount = e.bitCount
  pendingCarry : x.pendingCarry = e.pendingCarry

theorem SameInterval.atCursor {x e : Encoder} (h : SameInterval x e) (c : Word) : SameInterval x (e.atCursor c) :=
  ⟨h.range, h.lowValue, h.bitCount, h.pendingCarry⟩

theorem SameInterval.encodeInterval {x e : Encoder} (h : SameInterval x e) (bit : Bool) (p : Byte) :
    SameInterval (encodeInterval bit p x) (encodeInterval bit p e) := by
  obtain ⟨hr, hl, hb, hc⟩ := h
  cases bit <;>
    constructor <;>
    simp [Machine.encodeInterval, encSelect, encRenormalize, carryAfter, encSum, encPos, hr, hl, hb, hc]

theorem SameInterval.topByte {x e : Encoder} (h : SameInterval x e) : topByte x = topByte e := by
  rw [Machine.topByte, Machine.topByte, h.lowValue]

theorem SameInterval.byteDue {x e : Encoder} (h : SameInterval x e) : byteDue x = byteDue e := by
  rw [Machine.byteDue, Machine.byteDue, h.bitCount]

theorem SameInterval.lowShifted {x e : Encoder} (h : SameInterval x e) : lowShifted x = lowShifted e := by
  rw [Machine.lowShifted, Machine.lowShifted, h.lowValue]

section
variable {x e : Encoder} {ws out : List Byte}

theorem unpatchedBytes_encodeInterval (bit : Bool) (p : Byte) (e : Encoder) :
    unpatchedBytes (encodeInterval bit p e) = unpatchedBytes e := by
  simp [unpatchedBytes, heldBytes]

theorem unpatchedBytes_afterFinalize (b : Byte) (e : Encoder) :
    unpatchedBytes (byteRemoved (afterFinalize b e)) = heldBytes (afterFinalize b e) := by
  rw [← unpatchedBytes_of_no_carry (afterFinalize_holds b e).2]
  rfl

/-- Both encoders finalize the top byte: the patching one writes it, the machine holds it (rules R130, R134). -/
theorem reverse_patchEmit {w : Nat} (hinv : IntervalInv e w) (hrun : runOverflows (topByte e) e = false)
    (hsame : SameInterval x e) (h : out.reverse = ws ++ unpatchedBytes e) :
    (patchEmit (x, out)).2.reverse = ws ++ releasedBy (topByte e) e ++ heldBytes (afterFinalize (topByte e) e) := by
  rw [patchEmit, reverse_patchFinalize, hsame.topByte, hsame.pendingCarry,
    reverse_patchedOut hinv.valid_of_carry (fun hv => (hinv.later hv).1) h, List.append_assoc, List.append_assoc,
    releasedBy_append_heldBytes (fun hv => (hinv.first hv).2.1) hrun]

theorem patchEncode_due {bit : Bool} {p : Byte} (hdue : byteDue (encodeInterval bit p x) = true) :
    patchEncode (x, out) (bit, p) =
      ({ (patchEmit (encodeInterval bit p x, out)).1 with
          bitCount := (encodeInterval bit p x).bitCount - 8 }, (patchEmit (encodeInterval bit p x, out)).2) :=
  if_pos hdue

theorem patchEncode_none {bit : Bool} {p : Byte} (hdue : byteDue (encodeInterval bit p x) = false) :
    patchEncode (x, out) (bit, p) = (encodeInterval bit p x, out) :=
  if_neg (by rw [hdue]; decide)

/-- One `ENCODE_BOOL` of both encoders. -/
theorem patchEncode_same {bit : Bool} {p : Byte} (hsame : SameInterval x e) :
    SameInterval (patchEncode (x, out) (bit, p)).1 (encodedNext bit p e) := by
  have hnext := hsame.encodeInterval bit p
  have hdue := hnext.byteDue
  cases hd : byteDue (encodeInterval bit p e) with
  | true =>
    obtain ⟨-, hc⟩ := afterFinalize_holds (topByte (encodeInterval bit p e)) (encodeInterval bit p e)
    rw [patchEncode_due (hdue.trans hd), encodedNext_due rfl hd, byteRemoved_eq]
    constructor
    · exact hnext.range.trans (afterFinalize_range ..).symm
    · exact hnext.lowShifted.trans (by rw [lowShifted, lowShifted, afterFinalize_lowValue])
    · simp only [hnext.bitCount, afterFinalize_bitCount]
    · exact hc.symm
  | false =>
    rw [patchEncode_none (hdue.trans hd), encodedNext_none rfl hd]
    exact hnext

theorem reverse_patchEncode {bit : Bool} {p : Byte} (hinv : EncInv e) (hrun : encodeOverflowsRun bit p e = false)
    (hsame : SameInterval x e) (h : out.reverse = ws ++ unpatchedBytes e) :
    (patchEncode (x, out) (bit, p)).2.reverse =
      ws ++ encodeReleases bit p e ++ unpatchedBytes (encodedNext bit p e) := by
  have hnext := hsame.encodeInterval bit p
  have hdue := hnext.byteDue
  rw [← unpatchedBytes_encodeInterval bit p] at h
  cases hd : byteDue (encodeInterval bit p e) with
  | true =>
    obtain ⟨w, hw⟩ := hinv.encodeInterval bit p
    rw [encodeOverflowsRun_due rfl hd] at hrun
    have hemit := reverse_patchEmit hw hrun hnext h
    rw [patchEncode_due (hdue.trans hd), encodedNext_due rfl hd, encodeReleases_due rfl hd,
      unpatchedBytes_afterFinalize]
    exact hemit
  | false =>
    rw [patchEncode_none (hdue.trans hd), encodedNext_none rfl hd, encodeReleases_none rfl hd, List.append_nil]
    exact h

/-- With no carry pending, the bytes of `low_value` are written one after the other. -/
theorem reverse_iterate_patchEmit (n : Nat) {y : Encoder × List Byte} (hc : y.1.pendingCarry = false) :
    (patchEmit^[n] y).2.reverse = y.2.reverse ++ topBytes n y.1 := by
  induction n generalizing y with
  | zero => exact (List.append_nil _).symm
  | succ n ih =>
    have hone : (patchEmit y).2.reverse = y.2.reverse ++ [topByte y.1] := by
      rw [patchEmit, hc]
      exact reverse_patchFinalize ..
    rw [Function.iterate_succ_apply, ih rfl, hone, topBytes, List.append_assoc, List.singleton_append]
    congr 2
    exact topBytes_congr n rfl

/-- The end of the stream, in both encoders (rules R133, R134). -/
theorem reverse_patchStop {w : Nat} (hinv : IntervalInv e w) (hsame : SameInterval x e)
    (h : out.reverse = ws ++ unpatchedBytes e) :
    (patchEmit^[Config.flushBytes] (x, out)).2.reverse = ws ++ stopReleases e := by
  have hone : (patchEmit (x, out)).2.reverse = ws ++ heldBytes e ++ [topByte e] := by
    rw [patchEmit, reverse_patchFinalize, hsame.topByte, hsame.pendingCarry,
      reverse_patchedOut hinv.valid_of_carry (fun hv => (hinv.later hv).1) h]
  have hlow : (patchEmit (x, out)).1.lowValue = (afterTopByte e).lowValue :=
    hsame.lowShifted.trans (afterTopByte_lowValue e).symm
  rw [stopReleases, ← topBytes_flush, Config.flushBytes, topBytes_succ, Function.iterate_succ_apply,
    reverse_iterate_patchEmit 3 rfl, hone, topBytes_congr 3 hlow, List.append_assoc, List.append_assoc,
    List.singleton_append]

end

/-! ## A command of the machine that completes -/

/-- These bytes, stored in `m₀` from `a` to the encoder's cursor, give the memory `m`. -/
def Streamed (a : Word) (m₀ : Memory) (ws : List Byte) (e : Encoder) (m : Memory) : Prop :=
  m = storeBytes m₀ a.toNat ws ∧ e.outputCursor.toNat = a.toNat + ws.length

/-- Bytes released in one piece after those stored before. -/
theorem Streamed.delivered {a : Word} {m₀ : Memory} {ws vs : List Byte} {s : State} (e : Encoder)
    (h : Streamed a m₀ ws s.enc s.mem) (hfit : vs.length ≤ room s.enc) :
    Streamed a m₀ (ws ++ vs) (delivered vs e s).enc (delivered vs e s).mem := by
  obtain ⟨hmem, hcur⟩ := h
  constructor
  · rw [delivered_mem, hmem, hcur, storeBytes_append]
  · rw [delivered_enc, atCursor_outputCursor, toNat_cursor_add hfit, hcur, List.length_append, Nat.add_assoc]

/-- The patching encoder `x` has the registers of the machine's encoder `e`, and its output is what the machine has
stored and the bytes it holds back. -/
structure Mirrors (a : Word) (m₀ : Memory) (x : Encoder × List Byte) (e : Encoder) (m : Memory) : Prop where
  phase : e.phase = .active
  inv : EncInv e
  same : SameInterval x.1 e
  stream : ∃ ws, Streamed a m₀ ws e m ∧ x.2.reverse = ws ++ unpatchedBytes e

theorem takeOverflow_phase {u t : State} (h : takeOverflow u = .next t) : t.enc.phase = .fault := by
  cases h
  rfl

/-- An `ENCODE_BOOL` that leads into no fault has released its bytes, all of them (rule R123). -/
theorem exec_encodeBool_completes {bit : Bool} {p : Byte} {s t : State} (hp : s.enc.phase = .active)
    (h : exec (.encodeBool bit p) s = .next t) (hf : t.enc.phase ≠ .fault) :
    encodeOverflowsRun bit p s.enc = false ∧ (encodeReleases bit p s.enc).length ≤ room s.enc ∧
      t.enc = (delivered (encodeReleases bit p s.enc) (encodedNext bit p s.enc) s).enc ∧
      t.mem = (delivered (encodeReleases bit p s.enc) (encodedNext bit p s.enc) s).mem := by
  have hno : ¬ (encodeOverflowsRun bit p s.enc = true ∨ room s.enc < (encodeReleases bit p s.enc).length) := by
    intro hov
    obtain ⟨u, hu, -, -⟩ := exec_encodeBool_overflow hp hov
    exact hf (takeOverflow_phase (hu.symm.trans h))
  rw [not_or, Bool.not_eq_true, Nat.not_lt] at hno
  obtain ⟨hrun, hfit⟩ := hno
  cases (exec_encodeBool_fits hp hrun hfit).symm.trans h
  exact ⟨hrun, hfit, rfl, rfl⟩

theorem encodedNext_phase (bit : Bool) (p : Byte) (e : Encoder) : (encodedNext bit p e).phase = e.phase := by
  unfold encodedNext
  split
  · rw [byteRemoved_eq, afterFinalize_eq, encodeInterval_phase]
  · exact encodeInterval_phase ..

/-- The encoders go on side by side. -/
theorem Mirrors.encode {a : Word} {m₀ : Memory} {x : Encoder} {out : List Byte} {bit : Bool} {p : Byte}
    {s t : State} (h : Mirrors a m₀ (x, out) s.enc s.mem)
    (ht : exec (.encodeBool bit p) s = .next t) (hf : t.enc.phase ≠ .fault) :
    Mirrors a m₀ (patchEncode (x, out) (bit, p)) t.enc t.mem := by
  obtain ⟨hphase, hinv, hsame, ws, hstream, hout⟩ := h
  obtain ⟨hrun, hfit, henc, hmem⟩ := exec_encodeBool_completes hphase ht hf
  have hstream' := hstream.delivered (encodedNext bit p s.enc) hfit
  have hout' := reverse_patchEncode hinv hrun hsame hout
  rw [← henc, ← hmem] at hstream'
  refine ⟨?_, ?_, ?_, _, hstream', ?_⟩ <;> rw [henc, delivered_enc]
  · exact (encodedNext_phase bit p s.enc).trans hphase
  · exact (hinv.encodedNext bit p).atCursor _
  · exact (patchEncode_same hsame).atCursor _
  · rw [unpatchedBytes_atCursor]
    exact hout'

/-- The `STOP_ENCODE` that completes leaves the patching encoder's bytes. -/
theorem Mirrors.stop {a : Word} {m₀ : Memory} {x : Encoder × List Byte} {s t : State}
    (h : Mirrors a m₀ x s.enc s.mem) (ht : exec .stopEncode s = .next t) (hf : t.enc.phase ≠ .fault) :
    Streamed a m₀ (patchEmit^[Config.flushBytes] x).2.reverse t.enc t.mem := by
  obtain ⟨hphase, hinv, hsame, ws, hstream, hout⟩ := h
  have hrun : s.enc.pendingValid = false → s.enc.run = 0 := fun hv => (hinv.first hv).2.1
  have hfits : stopOverflowsRun s.enc = false := by
    rw [← Bool.not_eq_true]
    intro hover
    obtain ⟨u, hu, hfault, -⟩ := runCounterOverflowsInsteadOfWrapping.2 s hphase hover
    cases hu.symm.trans ht
    exact hf hfault
  have hroom : (stopReleases s.enc).length ≤ room s.enc := by
    rw [← Nat.not_lt]
    intro hlong
    obtain ⟨u, hu, hfault, -⟩ := stopEncodeOverflowStopsAtTheRefusedWrite s hphase hrun hfits hlong
    cases hu.symm.trans ht
    exact hf hfault
  have hstop := stopEncodeStoresTheRestOfTheStream s hphase hrun hroom
  obtain ⟨hmem, hcur⟩ := hstream.delivered s.enc hroom
  rw [reverse_patchStop hinv.interval hsame hout]
  cases hstop.symm.trans ht
  exact ⟨hmem, hcur⟩

/-! ## The run of a whole stream -/

/-- The host issues a command, and one step executes it (rule R14). -/
theorem runSteps_issue_cons {n : Nat} {i : Instr} {is : List Instr} {s t : State}
    (h : runSteps (n + 1) (s.issue (i :: is)) = .next t) :
    ∃ u, exec i (s.issue is) = .next u ∧ runSteps n (u.issue is) = .next t := by
  have hstep : step (s.issue (i :: is)) = exec i (s.issue is) := step_decoded rfl (decodeOfEncodeIsIdentity i)
  obtain ⟨u, r, hu, hanswer⟩ := exec_answers i (s.issue is)
  have hhost : u.issue is = u := by
    rw [State.issue, ← State.withHost_self u, hanswer.host]
    rfl
  rw [runSteps, hstep, hu] at h
  exact ⟨u, hu, by rw [hhost]; exact h⟩

/-- The commands after `START_ENCODE` (rule R252). -/
def streamProgram (bits : List (Bool × Byte)) : List Instr :=
  bits.map (fun x => .encodeBool x.1 x.2) ++ [.stopEncode]

theorem stickyOverflow_enc {s t : State} (h : stickyOverflow s = .next t) : t.enc = s.enc := by
  cases h
  rfl

/-- From `FAULT` no stream is completed (rule R230). -/
theorem runSteps_streamProgram_fault {bits : List (Bool × Byte)} {s t : State} (hf : s.enc.phase = .fault)
    (h : runSteps (bits.length + 1) (s.issue (streamProgram bits)) = .next t) : t.enc.phase = .fault := by
  induction bits generalizing s with
  | nil =>
    obtain ⟨u, hu, hrest⟩ := runSteps_issue_cons h
    have hsticky : exec .stopEncode (s.issue []) = stickyOverflow (s.issue []) := whenEncActive_fault hf
    cases hrest
    exact (congrArg Encoder.phase (stickyOverflow_enc (hsticky.symm.trans hu))).trans hf
  | cons b bits ih =>
    obtain ⟨u, hu, hrest⟩ := runSteps_issue_cons h
    have hsticky : exec (.encodeBool b.1 b.2) (s.issue (streamProgram bits)) =
        stickyOverflow (s.issue (streamProgram bits)) := whenEncActive_fault hf
    exact ih ((congrArg Encoder.phase (stickyOverflow_enc (hsticky.symm.trans hu))).trans hf) hrest

/-- A stream that is completed is the patching encoder's, from any moment on. -/
theorem Mirrors.streamed {a : Word} {m₀ : Memory} {bits : List (Bool × Byte)} {x : Encoder × List Byte}
    {s t : State} (h : Mirrors a m₀ x s.enc s.mem)
    (ht : runSteps (bits.length + 1) (s.issue (streamProgram bits)) = .next t) (hf : t.enc.phase ≠ .fault) :
    Streamed a m₀ (patchEmit^[Config.flushBytes] (bits.foldl patchEncode x)).2.reverse t.enc t.mem := by
  induction bits generalizing x s with
  | nil =>
    obtain ⟨u, hu, hrest⟩ := runSteps_issue_cons ht
    cases hrest
    exact Mirrors.stop (s := s.issue []) (t := u) h hu hf
  | cons b bits ih =>
    obtain ⟨u, hu, hrest⟩ := runSteps_issue_cons ht
    exact ih (Mirrors.encode (s := s.issue (streamProgram bits)) h hu
      fun hu' => hf (runSteps_streamProgram_fault hu' hrest)) hrest

/-- Both encoders begin with the registers of rule R121, and nothing written or held. -/
theorem mirrors_started (a b : Word) (m : Memory) :
    Mirrors a m (startedEncoder 0 0, []) (startedEncoder a b) m :=
  ⟨rfl, encInv_startedEncoder a b, ⟨rfl, rfl, rfl, rfl⟩, [], ⟨rfl, rfl⟩, rfl⟩

/-- Settles O47, from the state after `START_ENCODE` on. -/
theorem deferredWritesEqualBackwardPatching : Obligations.DeferredWritesEqualBackwardPatching := by
  intro bits a b s t hwf hrun hdone
  obtain ⟨u, hu, hrest⟩ := runSteps_issue_cons (is := streamProgram bits) hrun
  cases hu
  obtain ⟨hmem, hcur⟩ := Mirrors.streamed (mirrors_started a b s.mem) hrest (by rw [hdone]; decide)
  have hlt := t.enc.outputCursor.isLt
  rw [show patchStream bits =
    (patchEmit^[Config.flushBytes] (bits.foldl patchEncode (startedEncoder 0 0, []))).2.reverse from rfl]
  generalize (patchEmit^[Config.flushBytes] _).2.reverse = ws at *
  have hlen : (t.enc.outputCursor - a).toNat = ws.length := by
    rw [BitVec.toNat_sub_of_le (by rw [BitVec.le_def]; omega)]
    omega
  rw [hlen, hmem, bytesAt_storeBytes hwf (by omega)]

end Sys2Proof.Machine
end

section
/-! PROOFS. `START_DECODE` and `DECODE_BOOL`: the context a decoded bit leaves, with and without a refilled byte, and
the invariant each step of the command keeps (rules R161 to R167). -/

namespace Sys2Proof.Machine

/-- Settles O24: `START_DECODE` writes every register of the decoder and reads none. -/
theorem startDecodeCreatesTheDecoderContext : Obligations.StartDecodeCreatesTheDecoderContext := fun _ _ _ => rfl

/-! ## The signed counter as an integer -/

theorem decCount_sub_eq (c : BitVec 5) (k : Nat) : c - BitVec.ofNat 5 k = BitVec.ofInt 5 (c.toInt - k) := by
  rw [Int.sub_eq_add_neg, BitVec.ofInt_add, BitVec.ofInt_toInt, BitVec.sub_eq_add_neg, BitVec.ofInt_neg,
    BitVec.ofInt_natCast]

/-- The count after a shift fits its 5 bits (rule R42). -/
theorem toInt_shiftedCount {c : BitVec 5} {k : Nat} (hc : 0 ≤ c.toInt) (hk : k ≤ 7) :
    (BitVec.ofInt 5 (c.toInt - k)).toInt = c.toInt - k := by
  rw [← decCount_sub_eq, decCount_sub hc hk]

/-! ## `DECODE_BOOL` with 8 valid bits loaded -/

/-- The context with another range, window and count, and the same input.  Facts about it are proved with the three
as variables, so that no check unfolds the arithmetic that computes them. -/
def Decoder.withWindow (d : Decoder) (r : Byte) (v : Word) (c : BitVec 5) : Decoder :=
  { d with range := r, value := v, bitCount := c }

section
variable (d : Decoder) (r : Byte) (v : Word) (c : BitVec 5)

@[simp] theorem withWindow_bitCount : (d.withWindow r v c).bitCount = c := rfl
@[simp] theorem withWindow_exhausted : (d.withWindow r v c).exhausted = d.exhausted := rfl
@[simp] theorem inputByte_withWindow (m : Memory) : inputByte m (d.withWindow r v c) = inputByte m d := rfl

/-- The input moves on in the same way whatever the window holds. -/
@[simp] theorem inputTaken_withWindow : inputTaken (d.withWindow r v c) = (inputTaken d).withWindow r v c := by
  by_cases hl : d.inputCursor.toNat < d.inputEnd.toNat
  · rw [inputTaken, inputTaken, if_pos hl]
    exact if_pos hl
  · rw [inputTaken, inputTaken, if_neg hl]
    exact if_neg hl

/-- The byte a `REFILL` takes lands in the window, and the input moves on (rule R165). -/
theorem refill_withWindow_due (m : Memory) (h : c.toInt < 0) :
    refill m (d.withWindow r v c) =
      (inputTaken d).withWindow r
        (v ||| BitVec.ofNat 32 ((inputByte m d).toNat * 2 ^ (16 - c.toInt).toNat)) (c + 8) := by
  rw [refill_due h, placeByte_eq, inputByte_withWindow, inputTaken_withWindow]
  rfl

end

/-- The context after steps 2 to 4 of `DECODE_BOOL`, before its last `REFILL`, `k` being the shift (rule R163). -/
def decodedContext (p : Byte) (k : Nat) (d : Decoder) : Decoder :=
  d.withWindow (decodedRange p k d) (decodedValue p k d) (BitVec.ofInt 5 (d.bitCount.toInt - k))

/-- With 8 valid bits loaded the first `REFILL` does nothing, and the rest is exact (rules R163, R165). -/
theorem decodeBit_loaded {p : Byte} {k : Nat} {d : Decoder} (m : Memory) (hr : 2 ≤ d.range.toNat)
    (hc : 0 ≤ d.bitCount.toInt) (hk : Normalizes (selectedRange (decodedBit p d) d.range.toNat p.toNat) k) :
    decodeBit m p d = (decodedBit p d, refill m (decodedContext p k d)) := by
  obtain ⟨hbit, hctx⟩ := decoded_eq hr hk
  rw [decodeBit_eq, refill_loaded hc, hbit, hctx, decCount_sub_eq]
  rfl

/-- The answer and the next state, `d` being the context the command leaves. -/
theorem exec_decodeBool_next {p : Byte} {s : State} {bit x : Bool} {d : Decoder} (hp : s.dec.phase = .active)
    (hd : decodeBit s.mem p s.dec = (bit, d)) (hx : d.exhausted = x) :
    exec (.decodeBool p) s =
      .next { s with dec := d, responses := s.responses ++ [⟨.ok, x, if bit then 1 else 0⟩] } := by
  subst hx
  rw [exec_decodeBool_active p hp, hd]
  rfl

/-- Settles O25: the last `REFILL` has nothing to do. -/
theorem decodeBoolWithoutRefill : Obligations.DecodeBoolWithoutRefill := by
  intro p k s hp hr hcount _ hk
  have hlast : refill s.mem (decodedContext p k s.dec) = decodedContext p k s.dec := by
    refine refill_loaded ?_
    rw [decodedContext, withWindow_bitCount, toInt_shiftedCount (by omega) hk.le]
    omega
  have hd := decodeBit_loaded s.mem hr (by omega) hk
  rw [hlast] at hd
  exact exec_decodeBool_next hp hd (withWindow_exhausted ..)

/-- Settles O26: the last `REFILL` takes one byte, placed below the valid bits the shift has left. -/
theorem decodeBoolRefillsBelowTheValidBits : Obligations.DecodeBoolRefillsBelowTheValidBits := by
  intro p k s hp hr hc hdue _ hk
  have hcount := toInt_shiftedCount hc hk.le
  have hplace : 16 - (s.dec.bitCount.toInt - k) = 16 + k - s.dec.bitCount.toInt := by omega
  have hd := decodeBit_loaded s.mem hr hc hk
  rw [decodedContext, refill_withWindow_due _ _ _ _ _ (by omega), hcount, hplace] at hd
  rw [BitVec.ofInt_add]
  exact exec_decodeBool_next hp hd (withWindow_exhausted ..)

/-! ## The first `DECODE_BOOL` -/

/-- One `REFILL` loads 8 valid bits, from any count between commands or after a shift (rule R165). -/
theorem refill_count_nonneg (m : Memory) {d : Decoder} (h : -8 ≤ d.bitCount.toInt) :
    0 ≤ (refill m d).bitCount.toInt := by
  by_cases hd : d.bitCount.toInt < 0
  · rw [refill_due hd, decCount_add (by omega)]
    omega
  · rw [refill_loaded (by omega)]
    omega

/-- `DECODE_BOOL` begins with a `REFILL`, so a context refilled beforehand decodes the same (rule R163). -/
theorem decodeBit_refill (m : Memory) (p : Byte) {d : Decoder} (h : -8 ≤ d.bitCount.toInt) :
    decodeBit m p (refill m d) = decodeBit m p d := by
  rw [decodeBit_eq, refill_loaded (refill_count_nonneg m h), decodeBit_eq]

/-- The first byte lands in the top of the empty window (rule R165). -/
theorem refill_empty (m : Memory) {d : Decoder} (hc : d.bitCount.toInt = -8) (hv : d.value = 0) :
    refill m d = { inputTaken d with value := BitVec.ofNat 32 ((inputByte m d).toNat * 2 ^ 24), bitCount := 0 } := by
  have hcount : d.bitCount + 8 = 0 := BitVec.eq_of_toInt_eq (by rw [decCount_add (by omega), hc]; rfl)
  rw [refill_due (by omega), placeByte_eq, hcount, hc, hv]
  simp only [BitVec.ofNat_eq_ofNat, BitVec.zero_or]
  rfl

/-- Settles O27: the state with the byte loaded is the state after the command's first `REFILL`. -/
theorem firstDecodeBoolLoadsOneByteFirst : Obligations.FirstDecodeBoolLoadsOneByteFirst := by
  intro p s hp hc hv
  have hrefilled := exec_decodeBool_active p (s := s.withDec (refill s.mem s.dec))
    ((refill_keeps s.mem s.dec).2.1.trans hp)
  rw [State.withDec_dec, State.withDec_mem, decodeBit_refill s.mem p (by omega), refill_empty s.mem hc hv] at hrefilled
  exact (exec_decodeBool_active p hp).trans hrefilled.symm

/-! ## The invariant through the command -/

/-- What holds of an `ACTIVE` decoder context at every point of a command: `DecInv`, with the valid bits between
none and 15, as a shift may leave them before the `REFILL` (rules R42, R162, R193). -/
structure DecMidInv (d : Decoder) : Prop where
  range_ge : 128 ≤ d.range.toNat
  count_ge : -8 ≤ d.bitCount.toInt
  count_le : d.bitCount.toInt ≤ 7
  value_aligned : 2 ^ (24 - d.bitCount.toInt).toNat ∣ d.value.toNat
  cursor_le : d.inputCursor ≤ d.inputEnd
  exhausted_end : d.exhausted = true → d.inputCursor = d.inputEnd

/-- Another range, window and count keep the invariant where they meet the conditions on these three. -/
theorem DecMidInv.withWindow {d : Decoder} {r : Byte} {v : Word} {c : BitVec 5} (h : DecMidInv d)
    (hr : 128 ≤ r.toNat) (hge : -8 ≤ c.toInt) (hle : c.toInt ≤ 7) (hv : 2 ^ (24 - c.toInt).toNat ∣ v.toNat) :
    DecMidInv (d.withWindow r v c) := ⟨hr, hge, hle, hv, h.cursor_le, h.exhausted_end⟩

theorem DecInv.mid {d : Decoder} (h : DecInv d) : DecMidInv d := by
  have hcount := h.count_ok
  exact ⟨h.range_ge, by omega, by omega, Nat.dvd_of_mod_eq_zero h.value_aligned, h.cursor_le, h.exhausted_end⟩

theorem DecMidInv.decInv {d : Decoder} (h : DecMidInv d) (hc : 0 ≤ d.bitCount.toInt) : DecInv d :=
  ⟨h.range_ge, .inr ⟨hc, h.count_le⟩, Nat.mod_eq_zero_of_dvd h.value_aligned, h.cursor_le, h.exhausted_end⟩

/-- A number reduced to 32 bits keeps its low zero bits. -/
theorem two_pow_dvd_toNat_ofNat {n x : Nat} (hn : n ≤ 32) (h : 2 ^ n ∣ x) : 2 ^ n ∣ (BitVec.ofNat 32 x).toNat := by
  rw [BitVec.toNat_ofNat]
  exact (Nat.dvd_mod_iff (pow_dvd_pow 2 hn)).2 h

theorem two_pow_dvd_or {n x y : Nat} (hx : 2 ^ n ∣ x) (hy : 2 ^ n ∣ y) : 2 ^ n ∣ x ||| y := by
  rw [Nat.dvd_iff_mod_eq_zero] at *
  rw [Nat.or_mod_two_pow, hx, hy, Nat.or_zero]

/-- The window stays aligned: the byte lands above the bits that stay zero (rule R165). -/
theorem refill_due_value_aligned {d : Decoder} (b : Byte) (hge : -8 ≤ d.bitCount.toInt)
    (h : 2 ^ (24 - d.bitCount.toInt).toNat ∣ d.value.toNat) :
    2 ^ (24 - (d.bitCount.toInt + 8)).toNat ∣ (d.value ||| placeByte d b).toNat := by
  have hplace : (24 - (d.bitCount.toInt + 8)).toNat = (16 - d.bitCount.toInt).toNat := by omega
  rw [BitVec.toNat_or, placeByte_eq, hplace]
  exact two_pow_dvd_or ((pow_dvd_pow 2 (by omega)).trans h)
    (two_pow_dvd_toNat_ofNat (by omega) (Nat.dvd_mul_left ..))

/-- Past a byte the cursor has not passed the end, and the end is noted only where it has come (rules R46, R166). -/
theorem inputTaken_input {d : Decoder} (hle : d.inputCursor ≤ d.inputEnd)
    (hex : d.exhausted = true → d.inputCursor = d.inputEnd) :
    (inputTaken d).inputCursor ≤ (inputTaken d).inputEnd ∧
      ((inputTaken d).exhausted = true → (inputTaken d).inputCursor = (inputTaken d).inputEnd) := by
  unfold inputTaken
  split
  next hl =>
    refine ⟨?_, fun h => ?_⟩
    · rw [BitVec.le_def, toNat_inputCursor_succ hl]
      exact hl
    · rw [hex h] at hl
      exact absurd hl (Nat.lt_irrefl _)
  next hl =>
    rw [BitVec.le_def] at hle
    exact ⟨hle, fun _ => BitVec.eq_of_toNat_eq (by dsimp only; omega)⟩

/-- A `REFILL` keeps the invariant (rules R165, R166). -/
theorem DecMidInv.refill {d : Decoder} (m : Memory) (h : DecMidInv d) : DecMidInv (refill m d) := by
  by_cases hd : d.bitCount.toInt < 0
  · have hge := h.count_ge
    have hcount : (d.bitCount + 8).toInt = d.bitCount.toInt + 8 := decCount_add (by omega)
    obtain ⟨hcursor, hexhausted⟩ := inputTaken_input h.cursor_le h.exhausted_end
    rw [refill_due hd]
    refine ⟨by simpa using h.range_ge, ?_, ?_, ?_, hcursor, hexhausted⟩
    · rw [hcount]; omega
    · rw [hcount]; omega
    · rw [hcount]; exact refill_due_value_aligned _ hge h.value_aligned
  · rwa [refill_loaded (by omega)]

section
variable {p : Byte} {k : Nat} {d : Decoder}

theorem toNat_decodedRange (hk : Normalizes (selectedRange (decodedBit p d) d.range.toNat p.toNat) k) :
    (decodedRange p k d).toNat = selectedRange (decodedBit p d) d.range.toNat p.toNat * 2 ^ k := by
  rw [decodedRange, BitVec.toNat_ofNat, Nat.mod_eq_of_lt (Nat.lt_succ_of_le hk.2)]

/-- The subtraction stays above the bits that are zero, and the shift brings `k` more of them (rule R162). -/
theorem decodedValue_aligned (hc : 0 ≤ d.bitCount.toInt) (hc' : d.bitCount.toInt ≤ 7) (hk : k ≤ 7)
    (h : 2 ^ (24 - d.bitCount.toInt).toNat ∣ d.value.toNat) :
    2 ^ (24 - (d.bitCount.toInt - k)).toNat ∣ (decodedValue p k d).toNat := by
  have hshift : (24 - (d.bitCount.toInt - k)).toNat = (24 - d.bitCount.toInt).toNat + k := by omega
  have hthreshold : 2 ^ (24 - d.bitCount.toInt).toNat ∣ exactSplit d.range.toNat p.toNat * 2 ^ 24 :=
    (pow_dvd_pow 2 (by omega)).mul_left _
  refine two_pow_dvd_toNat_ofNat (by omega) ?_
  rw [hshift, pow_add]
  refine Nat.mul_dvd_mul_right ?_ _
  split
  · exact Nat.dvd_sub h hthreshold
  · exact h

/-- The subtraction and the shift keep the invariant (rules R162, R163, R193). -/
theorem DecMidInv.decodedContext (h : DecMidInv d) (hc : 0 ≤ d.bitCount.toInt)
    (hk : Normalizes (selectedRange (decodedBit p d) d.range.toNat p.toNat) k) :
    DecMidInv (decodedContext p k d) := by
  have hk7 := hk.le
  have hcount := toInt_shiftedCount hc hk7
  have hle := h.count_le
  refine h.withWindow (hk.1.trans_eq (toNat_decodedRange hk).symm) (by omega) (by omega) ?_
  rw [hcount]
  exact decodedValue_aligned hc hle hk7 h.value_aligned

end

/-- Every range a bit selects has a shift that normalizes it (rules R100, R105). -/
theorem exists_normalizes_selectedRange (bit : Bool) {r : Nat} (p : Byte) (hr : 2 ≤ r) (hr' : r < 256) :
    ∃ k, Normalizes (selectedRange bit r p.toNat) k := by
  obtain ⟨hpos, hle⟩ := selectedRange_bounds bit hr p.isLt
  exact ⟨_, (exactShift_eq_iff hpos (by omega)).1 rfl⟩

/-- `DECODE_BOOL` keeps the decoder's invariant, and leaves 8 valid bits loaded (rule R167). -/
theorem decodeBit_decInv (m : Memory) (p : Byte) {d : Decoder} (h : DecInv d) :
    DecInv (decodeBit m p d).2 ∧ 0 ≤ (decodeBit m p d).2.bitCount.toInt := by
  have hloaded := h.mid.refill m
  have hc := refill_count_nonneg m h.mid.count_ge
  have hr : 2 ≤ (refill m d).range.toNat := by have := hloaded.range_ge; omega
  obtain ⟨k, hk⟩ := exists_normalizes_selectedRange (decodedBit p (refill m d)) p hr (refill m d).range.isLt
  have hshifted := hloaded.decodedContext hc hk
  have hlast := refill_count_nonneg m hshifted.count_ge
  rw [← decodeBit_refill m p h.mid.count_ge, decodeBit_loaded m hr hc hk]
  exact ⟨(hshifted.refill m).decInv hlast, hlast⟩

/-- Settles O28: the command answers a bit, and its context meets the invariant again. -/
theorem everyDecodeBoolCompletes : Obligations.EveryDecodeBoolCompletes := by
  intro p s hp hinv
  obtain ⟨hnext, hc⟩ := decodeBit_decInv s.mem p hinv
  have hphase := (decodeBit_keeps s.mem p s.dec).1
  refine ⟨_, _, exec_decodeBool_next hp rfl rfl, ?_, rfl, hphase.trans hp, hnext, hnext.range_ge, hc,
    hnext.mid.count_le⟩
  split
  · exact .inr rfl
  · exact .inl rfl

end Sys2Proof.Machine
end

section
/-! PROOFS. The invariant of the machine: every action of the outside world keeps it (rules R193 to R198, R250). -/

namespace Sys2Proof.Machine

/-! ## What the two commands that write bytes answer -/

theorem respond_next_eq {status : Status} {data : Word} {s t : State} (h : respond status data s = .next t) :
    t = s.withResponse ⟨status, s.dec.exhausted, data⟩ := (Host.Outcome.next.inj h).symm

/-- Step 0 outside `ACTIVE`: an answer that the encoder's registers decide, and nothing else (rule R228). -/
theorem whenEncActive_inactive {s t : State} {body : Host.Outcome State Fault Refusal}
    (hp : s.enc.phase ≠ .active) (h : whenEncActive s body = .next t) :
    t = s.withResponse ⟨if s.enc.phase = .fault then .bufferOverflow else .sequenceError, s.dec.exhausted,
      if s.enc.phase = .fault then s.enc.outputCursor else 0⟩ := by
  cases hq : s.enc.phase with
  | active => exact absurd hq hp
  | fault => rw [whenEncActive_fault hq] at h; exact respond_next_eq h
  | idle => rw [whenEncActive_refused (.inl hq)] at h; exact respond_next_eq h
  | done => rw [whenEncActive_refused (.inr hq)] at h; exact respond_next_eq h

theorem exec_writing_inactive {i : Instr} {s t : State} (hi : WritesBytes i) (hp : s.enc.phase ≠ .active)
    (h : exec i s = .next t) : ∃ r, t = s.withResponse r := by
  obtain rfl | ⟨bit, p, rfl⟩ := hi
  · exact ⟨_, whenEncActive_inactive hp h⟩
  · exact ⟨_, whenEncActive_inactive hp h⟩

theorem takeOverflow_next_eq {s t : State} (h : takeOverflow s = .next t) :
    t = (enterFault s).withResponse ⟨.bufferOverflow, s.dec.exhausted, s.enc.outputCursor⟩ :=
  (Host.Outcome.next.inj h).symm

/-- Finishing a command keeps the host's note as the procedure left it, where the continuation does. -/
theorem Emit.finish_next_streamStart {x : Emit} {f : State → Host.Outcome State Fault Refusal} {t : State}
    (h : x.finish f = .next t) (hf : ∀ u, f u = .next t → t.streamStart = u.streamStart) :
    t.streamStart = x.final.streamStart := by
  cases x with
  | ok u => exact hf u h
  | overflow u => rw [takeOverflow_next_eq h]; rfl

/-- The host's note of its buffer is `START_ENCODE`'s alone (log entry 14). -/
theorem exec_writing_streamStart {i : Instr} {s t : State} (hi : WritesBytes i) (h : exec i s = .next t) :
    t.streamStart = s.streamStart := by
  by_cases hp : s.enc.phase = .active
  · obtain rfl | ⟨bit, p, rfl⟩ := hi
    · rw [exec_stopEncode_active hp] at h
      exact (Emit.finish_next_streamStart h fun u hu => by rw [respond_next_eq hu]; rfl).trans
        (wrote_stop s).streamStart
    · rw [exec_encodeBool_active hp] at h
      exact (Emit.finish_next_streamStart h fun u hu => by rw [respond_next_eq hu]; rfl).trans
        (wrote_emitDueByte _).streamStart
  · obtain ⟨r, rfl⟩ := exec_writing_inactive hi hp h
    rfl

theorem exec_writing_dec {i : Instr} {s t : State} (hi : WritesBytes i) (h : exec i s = .next t) :
    t.dec = s.dec := by
  obtain rfl | ⟨bit, p, rfl⟩ := hi
  · exact execStopEncode_next_dec h
  · exact execEncodeBool_next_dec h

/-- An `ENCODE_BOOL` that leads into no fault answers `OK` with its bytes released, all of them (rule R123). -/
theorem exec_encodeBool_ok {bit : Bool} {p : Byte} {s t : State} (hp : s.enc.phase = .active)
    (h : exec (.encodeBool bit p) s = .next t) (hf : t.enc.phase ≠ .fault) :
    t = (delivered (encodeReleases bit p s.enc) (encodedNext bit p s.enc) s).withResponse
      ⟨.ok, s.dec.exhausted, 0⟩ := by
  obtain ⟨hrun, hfit, -, -⟩ := exec_encodeBool_completes hp h hf
  exact respond_next_eq ((exec_encodeBool_fits hp hrun hfit).symm.trans h)

/-- So does a `STOP_ENCODE`, and it is in `DONE` (rule R133). -/
theorem exec_stopEncode_ok {s t : State} (hp : s.enc.phase = .active)
    (hrun : s.enc.pendingValid = false → s.enc.run = 0) (h : exec .stopEncode s = .next t)
    (hf : t.enc.phase ≠ .fault) :
    t = (delivered (stopReleases s.enc) { s.enc with
        lowValue := 0, pendingCarry := false, pendingValid := false, run := 0, pendingByte := lastPending s.enc,
        phase := .done } s).withResponse
      ⟨.ok, s.dec.exhausted, s.enc.outputCursor + BitVec.ofNat 32 (stopReleases s.enc).length⟩ := by
  have hfits : stopOverflowsRun s.enc = false := by
    rw [← Bool.not_eq_true]
    intro hover
    obtain ⟨u, hu, hfault, -⟩ := runCounterOverflowsInsteadOfWrapping.2 s hp hover
    cases hu.symm.trans h
    exact hf hfault
  have hroom : (stopReleases s.enc).length ≤ room s.enc := by
    rw [← Nat.not_lt]
    intro hlong
    obtain ⟨u, hu, hfault, -⟩ := stopEncodeOverflowStopsAtTheRefusedWrite s hp hrun hfits hlong
    cases hu.symm.trans h
    exact hf hfault
  exact Host.Outcome.next.inj (h.symm.trans (stopEncodeStoresTheRestOfTheStream s hp hrun hroom))

/-! ## The encoder context after a command -/

/-- What the invariant says of the encoder's registers. -/
def EncContextInv (e : Encoder) : Prop := (e.phase = .active → EncInv e) ∧ (e.phase = .done → EncDone e)

theorem State.Inv.encContext {s : State} (h : s.Inv) : EncContextInv s.enc := ⟨h.enc_active, h.enc_done⟩

theorem encContextInv_of_fault {e : Encoder} (h : e.phase = .fault) : EncContextInv e := by
  constructor <;> intro h' <;> rw [h] at h' <;> cases h'

theorem exec_encodeBool_encContext {bit : Bool} {p : Byte} {s t : State} (hp : s.enc.phase = .active)
    (hinv : EncInv s.enc) (h : exec (.encodeBool bit p) s = .next t) : EncContextInv t.enc := by
  by_cases hf : t.enc.phase = .fault
  · exact encContextInv_of_fault hf
  · rw [exec_encodeBool_ok hp h hf]
    have hactive := (encodedNext_phase bit p s.enc).trans hp
    refine ⟨fun _ => (hinv.encodedNext bit p).atCursor _, fun hdone => ?_⟩
    exact absurd (hactive.symm.trans hdone) (by decide)

theorem exec_stopEncode_encContext {s t : State} (hp : s.enc.phase = .active) (hinv : EncInv s.enc)
    (h : exec .stopEncode s = .next t) : EncContextInv t.enc := by
  by_cases hf : t.enc.phase = .fault
  · exact encContextInv_of_fault hf
  · rw [exec_stopEncode_ok hp (fun hv => (hinv.first hv).2.1) h hf]
    exact ⟨nofun, fun _ => ⟨rfl, rfl, rfl, rfl⟩⟩

theorem exec_writing_encContext {i : Instr} {s t : State} (hi : WritesBytes i) (hinv : EncContextInv s.enc)
    (h : exec i s = .next t) : EncContextInv t.enc := by
  by_cases hp : s.enc.phase = .active
  · obtain rfl | ⟨bit, p, rfl⟩ := hi
    · exact exec_stopEncode_encContext hp (hinv.1 hp) h
    · exact exec_encodeBool_encContext hp (hinv.1 hp) h
  · obtain ⟨r, rfl⟩ := exec_writing_inactive hi hp h
    exact hinv

/-! ## Memory and the output cursor after a command -/

theorem Released.mem_wf {vs : List Byte} {s t : State} (h : Released vs s t) (hm : Memory.wf s.mem = true) :
    Memory.wf t.mem = true := by
  have hroom := room_lt s.enc
  have hlen := List.length_take_le (room s.enc) vs
  rw [h.mem]
  exact storeBytes_wf hm (by omega)

/-- Where the cursor may be: at `buffer_start`, or between it and `output_end` (rules R30, R67). -/
def InBuffer (start : Word) (e : Encoder) : Prop :=
  e.outputCursor = start ∨ (start ≤ e.outputCursor ∧ e.outputCursor ≤ e.outputEnd)

/-- The cursor moves only where a byte has been written, and then it does not pass the end (rule R131). -/
theorem Released.inBuffer {vs : List Byte} {s t : State} {start : Word} (h : Released vs s t)
    (hs : InBuffer start s.enc) : InBuffer start t.enc := by
  have hcur := h.cursor
  have hend := congrArg BitVec.toNat h.outputEnd
  by_cases hnone : min vs.length (room s.enc) = 0
  · have hsame : t.enc.outputCursor = s.enc.outputCursor := BitVec.eq_of_toNat_eq (by omega)
    rw [InBuffer, hsame, h.outputEnd]
    exact hs
  · have hstart : start.toNat ≤ s.enc.outputCursor.toNat := by
      obtain heq | ⟨hle, -⟩ := hs
      · rw [heq]
      · exact hle
    rw [room] at hcur hnone
    refine .inr ⟨?_, ?_⟩ <;> rw [BitVec.le_def] <;> omega

theorem exec_writing_mem_wf {i : Instr} {s t : State} (hi : WritesBytes i) (hm : Memory.wf s.mem = true)
    (h : exec i s = .next t) : Memory.wf t.mem = true := by
  obtain ⟨-, vs, hrel⟩ | hsame := exec_writing_cases hi h
  · exact hrel.mem_wf hm
  · rw [hsame.mem]
    exact hm

theorem exec_writing_inBuffer {i : Instr} {s t : State} {start : Word} (hi : WritesBytes i)
    (hs : s.enc.phase = .active → InBuffer start s.enc) (h : exec i s = .next t) :
    t.enc.phase = .active → InBuffer start t.enc := by
  by_cases hp : s.enc.phase = .active
  · obtain ⟨-, vs, hrel⟩ | hsame := exec_writing_cases hi h
    · exact fun _ => hrel.inBuffer (hs hp)
    · exact fun _ => hsame.released.inBuffer (hs hp)
  · obtain ⟨r, rfl⟩ := exec_writing_inactive hi hp h
    exact hs

/-! ## Every command keeps the invariant -/

/-- The invariant is about the two contexts, memory and the host's note. -/
theorem State.Inv.of_eq {s t : State} (h : s.Inv) (he : t.enc = s.enc) (hd : t.dec = s.dec) (hm : t.mem = s.mem)
    (hs : t.streamStart = s.streamStart) : t.Inv := by
  obtain ⟨h₁, h₂, h₃, h₄, h₅, h₆⟩ := h
  constructor <;> simp only [he, hd, hm, hs] <;> assumption

theorem State.Inv.withResponse {s : State} (hs : s.Inv) (r : Response) : (s.withResponse r).Inv :=
  hs.of_eq rfl rfl rfl rfl

theorem State.Inv.respond {s t : State} {status : Status} {data : Word} (hs : s.Inv)
    (h : respond status data s = .next t) : t.Inv := respond_next_eq h ▸ hs.withResponse _

theorem State.Inv.execWriting {i : Instr} {s t : State} (hs : s.Inv) (hi : WritesBytes i)
    (h : exec i s = .next t) : t.Inv := by
  obtain ⟨hactive, hdone⟩ := exec_writing_encContext hi hs.encContext h
  have hdec := exec_writing_dec hi h
  refine ⟨exec_writing_mem_wf hi hs.mem_wf h, hactive, hdone, ?_, ?_, ?_⟩
  · rw [hdec]
    exact hs.dec_active
  · rw [hdec]
    exact hs.dec_idle
  · rw [exec_writing_streamStart hi h]
    exact exec_writing_inBuffer hi hs.stream h

/-- `START_ENCODE` begins a stream at the start of its buffer (rule R121). -/
theorem State.Inv.startEncode {s : State} (hs : s.Inv) (a b : Word) :
    ((s.withEnc (startedEncoder a b)).withStreamStart a).Inv :=
  ⟨hs.mem_wf, fun _ => encInv_startedEncoder a b, nofun, hs.dec_active, hs.dec_idle, fun _ => .inl rfl⟩

/-- Another `ACTIVE` decoder context that meets its invariant. -/
theorem State.Inv.withDec {s : State} {d : Decoder} (hs : s.Inv) (hp : d.phase = .active) (hd : DecInv d) :
    (s.withDec d).Inv :=
  ⟨hs.mem_wf, hs.enc_active, hs.enc_done, fun _ => hd, fun h => absurd (hp.symm.trans h) (by decide), hs.stream⟩

/-- `START_DECODE` establishes the decoder's invariant (rule R161). -/
theorem decInv_startedDecoder (a n : Word) : DecInv (startedDecoder a n) :=
  ⟨(by decide : 128 ≤ Config.initRange.toNat), .inl (by decide : Config.decPrime.toInt = -8), rfl,
    BitVec.le_def.2 (Nat.zero_le _), nofun⟩

theorem State.Inv.decodeBool {s t : State} {p : Byte} (hs : s.Inv) (h : exec (.decodeBool p) s = .next t) :
    t.Inv := by
  cases hp : s.dec.phase with
  | idle =>
    rw [exec_decodeBool_idle p hp] at h
    exact hs.respond h
  | active =>
    rw [exec_decodeBool_active p hp] at h
    have hphase := (decodeBit_keeps s.mem p s.dec).1.trans hp
    exact Host.Outcome.next.inj h ▸
      (hs.withDec hphase (decodeBit_decInv s.mem p (hs.dec_active hp)).1).withResponse _

theorem State.Inv.exec {i : Instr} {s t : State} (hs : s.Inv) (h : exec i s = .next t) : t.Inv := by
  cases i with
  | startEncode a b => exact (hs.startEncode a b).respond h
  | encodeBool bit p => exact hs.execWriting (.inr ⟨bit, p, rfl⟩) h
  | stopEncode => exact hs.execWriting (.inl rfl) h
  | startDecode a n => exact (hs.withDec rfl (decInv_startedDecoder a n)).respond h
  | decodeBool p => exact hs.decodeBool h
  | norm r =>
    by_cases hr : r = 0
    · rw [hr, exec_norm_zero] at h
      exact hs.respond h
    · rw [exec_norm_of_ne_zero hr] at h
      exact hs.respond h

theorem State.Inv.runCommand {w : CommandWord} {s t : State} (hs : s.Inv) (h : runCommand w s = .next t) :
    t.Inv := by
  cases hw : decode w with
  | ok i =>
    rw [runCommand_decoded s hw] at h
    exact hs.exec h
  | error e =>
    rw [runCommand_reserved s hw] at h
    exact hs.respond h

/-! ## Every other action keeps it -/

theorem State.Inv.withHost {s : State} (hs : s.Inv) (rest : List HostAction) : (s.withHost rest).Inv :=
  hs.of_eq rfl rfl rfl rfl

theorem State.Inv.withMem {s : State} {m : Memory} (hs : s.Inv) (hm : Memory.wf m = true) : (s.withMem m).Inv :=
  ⟨hm, hs.enc_active, hs.enc_done, hs.dec_active, hs.dec_idle, hs.stream⟩

theorem State.Inv.hostAccess {s : State} (hs : s.Inv) (a : HostAccess) : (hostAccess a s).Inv := by
  cases a with
  | read addr => exact hs
  | write addr v => exact hs.withMem (writeMem_wf v hs.mem_wf addr.isLt)

theorem resetBlock_inv {s : State} (hm : Memory.wf s.mem = true) : (resetBlock s).Inv := inv_of_idle hm rfl rfl rfl

/-- The bytes a command has written lie below the end of memory. -/
theorem cursor_add_bytesWritten_le {w : CommandWord} {s t : State} (h : runCommand w s = .next t) :
    s.enc.outputCursor.toNat + bytesWritten w s t ≤ 2 ^ 32 := by
  have hlt := s.enc.outputCursor.isLt
  rcases Nat.eq_zero_or_pos (bytesWritten w s t) with hnone | hpos
  · omega
  · obtain ⟨i, hw, hi, hn⟩ := bytesWritten_pos hpos
    rw [runCommand_decoded s hw] at h
    have hcur : s.enc.outputCursor.toNat ≤ t.enc.outputCursor.toNat := by
      obtain ⟨-, vs, hrel⟩ | hsame := exec_writing_cases hi h
      · exact hrel.cursor ▸ Nat.le_add_right ..
      · rw [hsame.cursor]
    have hlt' := t.enc.outputCursor.isLt
    rw [hn, BitVec.toNat_sub_of_le (BitVec.le_def.2 hcur)]
    omega

/-- Settles O43, by the action of the outside world the step takes. -/
theorem everyStepKeepsTheInvariant : Obligations.EveryStepKeepsTheInvariant := by
  intro s t hs h
  obtain ⟨-, rfl⟩ | ⟨w, rest, -, hr⟩ | ⟨a, rest, -, rfl⟩ | ⟨rest, -, rfl⟩ | ⟨w, k, rest, u, -, hr, rfl⟩ |
    ⟨w, a, rest, u, -, hr, -, rfl⟩ := step_next_cases h
  · exact hs
  · exact (hs.withHost rest).runCommand hr
  · exact (hs.withHost rest).hostAccess a
  · exact resetBlock_inv hs.mem_wf
  · have hle := cursor_add_bytesWritten_le hr
    rw [State.withHost_enc] at hle
    exact resetBlock_inv (copyBytes_wf hs.mem_wf (by omega))
  · exact ((hs.withHost rest).runCommand hr).hostAccess a

end Sys2Proof.Machine
end

section
/-! PROOFS. The two contexts are independent: the decoder's commands and `NORM` leave the encoder and memory alone, and
`DECODE_BOOL` depends on its registers and the two bytes at its read address (rules R20, R204). -/

namespace Sys2Proof.Machine

/-! ## What a command leaves alone -/

theorem exec_encoder_dec {i : Instr} {s t : State} (hi : forEncoder i = true) (h : exec i s = .next t) :
    t.dec = s.dec := by
  cases i with
  | startEncode a b => exact respond_next_dec (s := (s.withEnc (startedEncoder a b)).withStreamStart a) h
  | encodeBool bit p => exact execEncodeBool_next_dec h
  | stopEncode => exact execStopEncode_next_dec h
  | startDecode a n => cases hi
  | decodeBool p => cases hi
  | norm r => cases hi

/-- A command that is not the encoder's writes a decoder context, its own as it was where it is `NORM`, and an
answer. -/
theorem exec_other_eq {i : Instr} {s t : State} (hi : forEncoder i = false) (h : exec i s = .next t) :
    ∃ d r, t = (s.withDec d).withResponse r ∧ (forDecoder i = false → d = s.dec) := by
  cases i with
  | startEncode a b => cases hi
  | encodeBool bit p => cases hi
  | stopEncode => cases hi
  | startDecode a n => exact ⟨_, _, respond_next_eq h, nofun⟩
  | decodeBool p =>
    cases hp : s.dec.phase with
    | idle =>
      rw [exec_decodeBool_idle p hp] at h
      exact ⟨s.dec, _, respond_next_eq h, fun _ => rfl⟩
    | active =>
      rw [exec_decodeBool_active p hp] at h
      exact ⟨_, _, (Host.Outcome.next.inj h).symm, nofun⟩
  | norm r =>
    by_cases hr : r = 0
    · rw [hr, exec_norm_zero] at h
      exact ⟨s.dec, _, respond_next_eq h, fun _ => rfl⟩
    · rw [exec_norm_of_ne_zero hr] at h
      exact ⟨s.dec, _, respond_next_eq h, fun _ => rfl⟩

theorem forEncoder_of_forDecoder {i : Instr} (hi : forDecoder i = true) : forEncoder i = false := by
  cases i with
  | startEncode a b => cases hi
  | encodeBool bit p => cases hi
  | stopEncode => cases hi
  | startDecode a n => rfl
  | decodeBool p => rfl
  | norm r => cases hi

theorem exec_next_host {i : Instr} {s t : State} (h : exec i s = .next t) : t.host = s.host := by
  obtain ⟨u, r, hu, hanswer⟩ := exec_answers i s
  cases h.symm.trans hu
  exact hanswer.host

/-! ## The two bytes a `DECODE_BOOL` may read -/

/-- A `REFILL` reads the byte at the read address and no other (rule R165). -/
theorem refill_eq_of_read {m m' : Memory} {d : Decoder}
    (h : readMem m' (readAddress d).toNat = readMem m (readAddress d).toNat) : refill m' d = refill m d := by
  unfold refill
  rw [h]

/-- And moves the read address by one at most. -/
theorem readAddress_refill (m : Memory) (d : Decoder) :
    (refill m d).inputCursor = d.inputCursor ∨ (refill m d).inputCursor = d.inputCursor + 1 := by
  unfold refill
  split
  · split
    · exact .inr rfl
    · exact .inl rfl
  · exact .inl rfl

theorem decodeBit_eq_of_two_reads {m m' : Memory} {p : Byte} {d : Decoder}
    (h₀ : readMem m' (readAddress d).toNat = readMem m (readAddress d).toNat)
    (h₁ : readMem m' (readAddress d + 1).toNat = readMem m (readAddress d + 1).toNat) :
    decodeBit m' p d = decodeBit m p d := by
  obtain ⟨c, hbase, hcur, -, -, hsame⟩ := decodeBit_two_refills m p d
  refine hsame m' (refill_eq_of_read h₀) (refill_eq_of_read ?_)
  rw [readAddress, hbase, hcur]
  obtain hstay | hmove := readAddress_refill m d
  · rw [hstay]
    exact h₀
  · rw [hmove, ← BitVec.add_assoc]
    exact h₁

/-- A decoder command's registers and answer are read off the decoder and those two bytes. -/
theorem exec_decoder_same {i : Instr} {s s' t t' : State} (hi : forDecoder i = true) (hdec : s.dec = s'.dec)
    (hread : ∀ p, decodeBit s'.mem p s.dec = decodeBit s.mem p s.dec) (h : exec i s = .next t)
    (h' : exec i s' = .next t') :
    ∃ d r, t = (s.withDec d).withResponse r ∧ t' = (s'.withDec d).withResponse r := by
  cases i with
  | startEncode a b => cases hi
  | encodeBool bit p => cases hi
  | stopEncode => cases hi
  | startDecode a n => exact ⟨_, _, respond_next_eq h, respond_next_eq h'⟩
  | decodeBool p =>
    cases hp : s.dec.phase with
    | idle =>
      rw [exec_decodeBool_idle p hp] at h
      rw [exec_decodeBool_idle p (hdec ▸ hp)] at h'
      refine ⟨s.dec, _, respond_next_eq h, ?_⟩
      rw [respond_next_eq h', hdec]
      rfl
    | active =>
      rw [exec_decodeBool_active p hp] at h
      rw [exec_decodeBool_active p (hdec ▸ hp), ← hdec, hread p] at h'
      exact ⟨_, _, (Host.Outcome.next.inj h).symm, (Host.Outcome.next.inj h').symm⟩
  | norm r => cases hi

/-- Settles O36: the frame of each kind of command, and the two reads of `DECODE_BOOL`. -/
theorem contextsAreIndependent : Obligations.ContextsAreIndependent := by
  refine ⟨fun i s t h => ⟨exec_next_host h, fun hi => exec_encoder_dec hi h, fun hi => ?_, fun hi hj => ?_⟩,
    fun i s s' t t' hi hdec hmem h h' => ?_⟩
  · obtain ⟨d, r, rfl, -⟩ := exec_other_eq (forEncoder_of_forDecoder hi) h
    exact ⟨rfl, rfl, rfl, rfl⟩
  · obtain ⟨d, r, rfl, hd⟩ := exec_other_eq hi h
    rw [hd hj]
    rfl
  · have hread (p : Byte) : decodeBit s'.mem p s.dec = decodeBit s.mem p s.dec :=
      decodeBit_eq_of_two_reads (by simpa using (hmem 0 (by decide)).symm) (hmem 1 (by decide)).symm
    obtain ⟨d, r, rfl, rfl⟩ := exec_decoder_same hi hdec hread h h'
    exact ⟨rfl, r, rfl, rfl⟩

end Sys2Proof.Machine
end

section
/-! PROOFS. What an encoder command does depends on the encoder's registers alone: from two states that share them its
procedures return or raise alike, and store the same bytes (rules R20, R60, R192, R204). -/

namespace Sys2Proof.Machine

/-! ## Procedures run in two states with the same encoder -/

/-- `t` and `t'` come from `s` and `s'` by storing the same bytes from the cursor upwards, and have the same encoder
registers again. -/
structure Alike (s s' t t' : State) : Prop where
  enc : t.enc = t'.enc
  bytes : ∃ vs : List Byte, t.enc.outputCursor.toNat = s.enc.outputCursor.toNat + vs.length ∧
    t.mem = storeBytes s.mem s.enc.outputCursor.toNat vs ∧ t'.mem = storeBytes s'.mem s.enc.outputCursor.toNat vs

/-- Both procedures return, or both have raised `BufferOverflow`, in states that are alike. -/
inductive EmitsAlike (s s' : State) : Emit → Emit → Prop where
  | ok {t t' : State} (h : Alike s s' t t') : EmitsAlike s s' (.ok t) (.ok t')
  | overflow {t t' : State} (h : Alike s s' t t') : EmitsAlike s s' (.overflow t) (.overflow t')

/-- The procedure looks at the encoder's registers alone. -/
def DependsOnEncoder (f : State → Emit) : Prop := ∀ s s' : State, s.enc = s'.enc → EmitsAlike s s' (f s) (f s')

theorem Alike.trans {s s' t t' u u' : State} (h : Alike s s' t t') (h' : Alike t t' u u') : Alike s s' u u' := by
  obtain ⟨-, vs, hc, hm, hm'⟩ := h
  obtain ⟨he, ws, hc', hn, hn'⟩ := h'
  refine ⟨he, vs ++ ws, ?_, ?_, ?_⟩
  · rw [hc', hc, List.length_append, Nat.add_assoc]
  · rw [hn, hm, hc, storeBytes_append]
  · rw [hn', hm', hc, storeBytes_append]

/-- The registers change in the same way and the cursor stays. -/
theorem alike_withEnc {s s' : State} {e : Encoder} (hc : e.outputCursor = s.enc.outputCursor) :
    Alike s s' (s.withEnc e) (s'.withEnc e) := ⟨rfl, [], congrArg BitVec.toNat hc, rfl, rfl⟩

theorem Alike.refl {s s' : State} (h : s.enc = s'.enc) : Alike s s' s s' := ⟨h, [], rfl, rfl, rfl⟩

theorem EmitsAlike.bind {s s' : State} {x x' : Emit} {f : State → Emit} (h : EmitsAlike s s' x x')
    (hf : DependsOnEncoder f) : EmitsAlike s s' (x.bind f) (x'.bind f) := by
  cases h with
  | overflow h => exact .overflow h
  | ok h =>
    rename_i t t'
    have hnext := hf t t' h.enc
    rw [Emit.bind_ok, Emit.bind_ok]
    generalize f t = y at hnext
    generalize f t' = y' at hnext
    cases hnext with
    | ok h' => exact .ok (h.trans h')
    | overflow h' => exact .overflow (h.trans h')

theorem DependsOnEncoder.bind {f g : State → Emit} (hf : DependsOnEncoder f) (hg : DependsOnEncoder g) :
    DependsOnEncoder fun s => (f s).bind g := fun s s' h => (hf s s' h).bind hg

/-- Going on with registers computed from the registers. -/
theorem dependsOnEncoder_withEnc {g : Encoder → Encoder} (hg : ∀ e, (g e).outputCursor = e.outputCursor) :
    DependsOnEncoder fun s => .ok (s.withEnc (g s.enc)) := fun s _ h => .ok (h ▸ alike_withEnc (hg s.enc))

theorem alike_stored {s s' : State} {vs : List Byte} (h : s.enc = s'.enc) (hfit : vs.length ≤ room s.enc) :
    Alike s s' (stored vs s) (stored vs s') :=
  ⟨by rw [stored_enc, stored_enc, h], vs, toNat_cursor_add hfit, rfl, by rw [stored_mem, h]⟩

theorem dependsOnEncoder_writeAll (vs : List Byte) : DependsOnEncoder (writeAll vs) := by
  intro s s' h
  rw [writeAll_eq, writeAll_eq, ← h]
  split
  next hfit => exact .ok (alike_stored h hfit)
  next => exact .overflow (alike_stored h (List.length_take_le ..))

theorem dependsOnEncoder_finalize (b : Byte) : DependsOnEncoder (finalize b) := by
  intro s s' h
  obtain hv | ⟨hv, hb⟩ | ⟨hv, hc, rfl⟩ := finalize_split b s.enc
  · rw [finalize_first hv, finalize_first (h ▸ hv)]
    exact dependsOnEncoder_withEnc
      (g := fun e => { e with pendingByte := b, pendingValid := true, pendingCarry := false }) (fun _ => rfl) s s' h
  · rw [finalize_release hv hb, finalize_release (h ▸ hv) (h ▸ hb), ← h]
    exact (dependsOnEncoder_writeAll _ s s' h).bind (dependsOnEncoder_withEnc
      (g := fun e => { e with pendingByte := b, run := 0, pendingCarry := false }) fun _ => rfl)
  · rw [finalize_extend hv hc, finalize_extend (h ▸ hv) (h ▸ hc), ← h]
    split
    · exact .overflow (Alike.refl h)
    · exact .ok (alike_withEnc rfl)

theorem dependsOnEncoder_emitTopByte : DependsOnEncoder emitTopByte := by
  intro s s' h
  rw [emitTopByte, emitTopByte, ← h]
  exact (dependsOnEncoder_finalize _ s s' h).bind
    (dependsOnEncoder_withEnc (g := fun e => { e with lowValue := lowShifted e }) fun _ => rfl)

theorem dependsOnEncoder_emitTopBytes (n : Nat) : DependsOnEncoder (emitTopBytes n) := by
  induction n with
  | zero => exact fun _ _ h => .ok (Alike.refl h)
  | succ n ih => exact dependsOnEncoder_emitTopByte.bind ih

theorem dependsOnEncoder_drain : DependsOnEncoder drain := by
  intro s s' h
  unfold drain
  rw [← h]
  split
  · rw [writeHeld_eq, writeHeld_eq, ← h]
    exact (dependsOnEncoder_writeAll _ s s' h).bind (dependsOnEncoder_withEnc (g := drained) fun _ => rfl)
  · exact .ok (Alike.refl h)

theorem dependsOnEncoder_stop : DependsOnEncoder fun s => (emitTopBytes Config.flushBytes s).bind drain :=
  (dependsOnEncoder_emitTopBytes _).bind dependsOnEncoder_drain

theorem dependsOnEncoder_emitDueByte : DependsOnEncoder emitDueByte := by
  intro s s' h
  unfold emitDueByte
  rw [← h]
  split
  · exact (dependsOnEncoder_emitTopByte s s' h).bind
      (dependsOnEncoder_withEnc (g := fun e => { e with bitCount := e.bitCount - 8 }) fun _ => rfl)
  · exact .ok (Alike.refl h)

/-- Steps 1 to 4 of `ENCODE_BOOL`. -/
theorem dependsOnEncoder_encode (bit : Bool) (p : Byte) :
    DependsOnEncoder fun s => emitDueByte (s.withEnc (encodeInterval bit p s.enc)) :=
  (dependsOnEncoder_withEnc fun _ => encodeInterval_outputCursor ..).bind dependsOnEncoder_emitDueByte

/-! ## Commands of the encoder in two such states -/

/-- `t` and `t'` come from `s` and `s'` by the same command of the encoder: the same encoder registers, the same
answer beside `dec.exhausted`, and the same bytes at the same addresses. -/
structure SameCommand (s s' t t' : State) : Prop where
  enc : t.enc = t'.enc
  freeCount : t.freeCount = t'.freeCount
  streamStart : s.streamStart = s'.streamStart → t.streamStart = t'.streamStart
  answer : ∃ r r' : Response, t.responses = s.responses ++ [r] ∧ t'.responses = s'.responses ++ [r'] ∧
    r.status = r'.status ∧ r.data = r'.data
  bytes : ∃ (a : Nat) (vs : List Byte), a + vs.length ≤ 2 ^ 32 ∧
    t.mem = storeBytes s.mem a vs ∧ t'.mem = storeBytes s'.mem a vs

/-- A command that only answers, the same in both states. -/
theorem sameCommand_respond {s s' t t' : State} {status : Status} {data : Word} {x x' : Bool} (he : s.enc = s'.enc)
    (hn : s.freeCount = s'.freeCount) (h : t = s.withResponse ⟨status, x, data⟩)
    (h' : t' = s'.withResponse ⟨status, x', data⟩) : SameCommand s s' t t' := by
  subst h h'
  exact ⟨he, hn, id, ⟨_, _, rfl, rfl, rfl, rfl⟩, 0, [], by decide, rfl, rfl⟩

/-- What a command adds after a procedure is an answer, and registers and a counter that are the same again. -/
theorem Alike.sameCommand {s s' u u' t t' : State} {status : Status} {data : Word} {x x' : Bool}
    (h : Alike s s' u u') (hw : Wrote s u) (hw' : Wrote s' u') (he : t.enc = t'.enc)
    (hn : t.freeCount = t'.freeCount) (hm : t.mem = u.mem ∧ t'.mem = u'.mem)
    (hs : t.streamStart = u.streamStart ∧ t'.streamStart = u'.streamStart)
    (hr : t.responses = u.responses ++ [⟨status, x, data⟩] ∧ t'.responses = u'.responses ++ [⟨status, x', data⟩]) :
    SameCommand s s' t t' := by
  obtain ⟨-, vs, hc, hv, hv'⟩ := h
  have hlt := u.enc.outputCursor.isLt
  rw [hw.responses, hw'.responses] at hr
  refine ⟨he, hn, fun hss => ?_, ⟨_, _, hr.1, hr.2, rfl, rfl⟩, _, vs, by omega, hm.1.trans hv, hm.2.trans hv'⟩
  rw [hs.1, hs.2, hw.streamStart, hw'.streamStart, hss]

/-- Finishing a command after a procedure that looks at the encoder alone: the answer and the last change of the
registers are computed from them, and so is the fault (rules R123, R133, R136). -/
theorem DependsOnEncoder.finish {f : State → Emit} {g : Encoder → Encoder} {data : Encoder → Word}
    {s s' t t' : State} (hf : DependsOnEncoder f) (hw : ∀ s, Wrote s (f s).final) (he : s.enc = s'.enc)
    (hn : s.freeCount = s'.freeCount)
    (h : (f s).finish (fun u => respond .ok (data u.enc) (u.withEnc (g u.enc))) = .next t)
    (h' : (f s').finish (fun u => respond .ok (data u.enc) (u.withEnc (g u.enc))) = .next t') :
    SameCommand s s' t t' := by
  have hboth := hf s s' he
  have hwrote := hw s
  have hwrote' := hw s'
  have hfree : (f s).final.freeCount = (f s').final.freeCount :=
    hwrote.freeCount.trans (hn.trans hwrote'.freeCount.symm)
  generalize f s = x at *
  generalize f s' = x' at *
  cases hboth with
  | @ok u u' halike =>
    rw [respond_next_eq (s := u.withEnc _) h, respond_next_eq (s := u'.withEnc _) h', ← halike.enc]
    exact halike.sameCommand hwrote hwrote' rfl hfree ⟨rfl, rfl⟩ ⟨rfl, rfl⟩ ⟨rfl, rfl⟩
  | @overflow u u' halike =>
    have hfree : u.freeCount = u'.freeCount := hfree
    rw [takeOverflow_next_eq h, takeOverflow_next_eq h', ← halike.enc]
    refine halike.sameCommand hwrote hwrote' ?_ (congrArg (· + 1) hfree) ⟨rfl, rfl⟩ ⟨rfl, rfl⟩ ⟨rfl, rfl⟩
    simp only [State.withResponse_enc, enterFault_enc, halike.enc, hfree]

theorem execEncodeBool_sameCommand {bit : Bool} {p : Byte} {s s' t t' : State} (he : s.enc = s'.enc)
    (hn : s.freeCount = s'.freeCount) (h : exec (.encodeBool bit p) s = .next t)
    (h' : exec (.encodeBool bit p) s' = .next t') : SameCommand s s' t t' := by
  by_cases hp : s.enc.phase = .active
  · rw [exec_encodeBool_active hp] at h
    rw [exec_encodeBool_active (he ▸ hp)] at h'
    refine (dependsOnEncoder_encode bit p).finish (g := id) (data := fun _ => 0) (fun s => ?_) he hn h h'
    exact (wrote_withEnc (by simp) (by simp) (by simp)).trans (wrote_emitDueByte _)
  · have ht := whenEncActive_inactive hp h
    have ht' := whenEncActive_inactive (he ▸ hp) h'
    rw [← he] at ht'
    exact sameCommand_respond he hn ht ht'

theorem execStopEncode_sameCommand {s s' t t' : State} (he : s.enc = s'.enc) (hn : s.freeCount = s'.freeCount)
    (h : exec .stopEncode s = .next t) (h' : exec .stopEncode s' = .next t') : SameCommand s s' t t' := by
  by_cases hp : s.enc.phase = .active
  · rw [exec_stopEncode_active hp] at h
    rw [exec_stopEncode_active (he ▸ hp)] at h'
    exact dependsOnEncoder_stop.finish (g := fun e => { e with phase := .done }) (data := Encoder.outputCursor)
      wrote_stop he hn h h'
  · have ht := whenEncActive_inactive hp h
    have ht' := whenEncActive_inactive (he ▸ hp) h'
    rw [← he] at ht'
    exact sameCommand_respond he hn ht ht'

theorem exec_encoder_sameCommand {i : Instr} {s s' t t' : State} (hi : forEncoder i = true) (he : s.enc = s'.enc)
    (hn : s.freeCount = s'.freeCount) (h : exec i s = .next t) (h' : exec i s' = .next t') :
    SameCommand s s' t t' := by
  cases i with
  | startEncode a b =>
    rw [respond_next_eq (s := (s.withEnc (startedEncoder a b)).withStreamStart a) h,
      respond_next_eq (s := (s'.withEnc (startedEncoder a b)).withStreamStart a) h']
    exact ⟨rfl, hn, fun _ => rfl, ⟨_, _, rfl, rfl, rfl, rfl⟩, 0, [], by decide, rfl, rfl⟩
  | encodeBool bit p => exact execEncodeBool_sameCommand he hn h h'
  | stopEncode => exact execStopEncode_sameCommand he hn h h'
  | startDecode a n => cases hi
  | decodeBool p => cases hi
  | norm r => cases hi

/-- Bytes stored over two memories: inside their window both read them, outside each reads as before. -/
theorem readMem_storeBytes_both {m m' : Memory} {a : Nat} {vs : List Byte} (hm : Memory.wf m = true)
    (hm' : Memory.wf m' = true) (ha : a + vs.length ≤ 2 ^ 32) (b : Nat) :
    readMem (storeBytes m a vs) b = readMem (storeBytes m' a vs) b ∨
      (readMem (storeBytes m a vs) b = readMem m b ∧ readMem (storeBytes m' a vs) b = readMem m' b) := by
  by_cases hb : b < a ∨ a + vs.length ≤ b
  · exact .inr ⟨readMem_storeBytes_other hb, readMem_storeBytes_other hb⟩
  · refine .inl ?_
    induction vs generalizing m m' a with
    | nil => exact absurd hb (by simp only [List.length_nil]; omega)
    | cons v vs ih =>
      simp only [List.length_cons] at ha hb
      by_cases hab : b = a
      · subst hab
        rw [storeBytes, storeBytes, readMem_storeBytes_other (by omega), readMem_storeBytes_other (by omega),
          readMem_writeMem_same b v hm, readMem_writeMem_same b v hm']
      · exact ih (writeMem_wf v hm (by omega)) (writeMem_wf v hm' (by omega)) (by omega) (by omega)

/-- Settles O37: the registers, the answer and the bytes stored are the same. -/
theorem encoderDependsOnItsOwnRegistersAlone : Obligations.EncoderDependsOnItsOwnRegistersAlone := by
  intro i s s' t t' hi he hn hm hm' h h'
  obtain ⟨henc, -, -, hanswer, c, vs, hlt, hs, hs'⟩ := exec_encoder_sameCommand hi he hn h h'
  refine ⟨henc, hanswer, fun b => ?_⟩
  rw [hs, hs']
  exact readMem_storeBytes_both hm hm' hlt b

end Sys2Proof.Machine
end

section
/-! PROOFS. Commands of the decoder and `NORM` interleaved with an encoding: leaving them out changes neither the
encoder, nor memory, nor the answers of the encoder's commands (rules R190, R204, R262). -/

namespace Sys2Proof.Machine

/-- What an encoding is made of is the same in both states. -/
structure SameEncoding (s s' : State) : Prop where
  enc : s.enc = s'.enc
  mem : s.mem = s'.mem
  streamStart : s.streamStart = s'.streamStart
  freeCount : s.freeCount = s'.freeCount

/-- What the statement compares of the answers: status and data of those to commands of the encoder. -/
def encoderAnswers (is : List Instr) (rs : List Response) : List (Status × Word) :=
  ((is.zip rs).filter fun x => forEncoder x.1).map fun x => (x.2.status, x.2.data)

theorem SameEncoding.exec_encoder {i : Instr} {s s' t t' : State} (h : SameEncoding s s') (hi : forEncoder i = true)
    (ht : exec i s = .next t) (ht' : exec i s' = .next t') :
    SameEncoding t t' ∧ ∃ r r' : Response, t.responses = s.responses ++ [r] ∧ t'.responses = s'.responses ++ [r'] ∧
      r.status = r'.status ∧ r.data = r'.data := by
  obtain ⟨henc, hmem, hstart, hfree⟩ := h
  obtain ⟨henc', hfree', hstart', hanswer, c, vs, -, hs, hs'⟩ := exec_encoder_sameCommand hi henc hfree ht ht'
  exact ⟨⟨henc', by rw [hs, hs', hmem], hstart' hstart, hfree'⟩, hanswer⟩

theorem SameEncoding.exec_other {i : Instr} {s s' t : State} (h : SameEncoding s s') (hi : forEncoder i = false)
    (ht : exec i s = .next t) : SameEncoding t s' ∧ ∃ r, t.responses = s.responses ++ [r] := by
  obtain ⟨d, r, rfl, -⟩ := exec_other_eq hi ht
  exact ⟨⟨h.enc, h.mem, h.streamStart, h.freeCount⟩, r, rfl⟩

/-- The two runs side by side: a command of the encoder is executed in both, any other in one of them. -/
theorem SameEncoding.run {is : List Instr} {s s' t t' : State} (h : SameEncoding s s')
    (ht : runSteps is.length (s.issue is) = .next t)
    (ht' : runSteps (is.filter forEncoder).length (s'.issue (is.filter forEncoder)) = .next t') :
    SameEncoding t t' ∧ ∃ rs rs', t.responses = s.responses ++ rs ∧ t'.responses = s'.responses ++ rs' ∧
      encoderAnswers is rs = rs'.map fun r => (r.status, r.data) := by
  induction is generalizing s s' with
  | nil =>
    cases ht
    cases ht'
    exact ⟨⟨h.enc, h.mem, h.streamStart, h.freeCount⟩, [], [], (List.append_nil _).symm, (List.append_nil _).symm, rfl⟩
  | cons i is ih =>
    obtain ⟨u, hu, hrest⟩ := runSteps_issue_cons ht
    cases hi : forEncoder i with
    | true =>
      rw [List.filter_cons_of_pos hi] at ht'
      obtain ⟨u', hu', hrest'⟩ := runSteps_issue_cons ht'
      obtain ⟨hsame, r, r', hr, hr', hstatus, hdata⟩ :=
        SameEncoding.exec_encoder (s := s.issue is) (s' := s'.issue (is.filter forEncoder))
          ⟨h.enc, h.mem, h.streamStart, h.freeCount⟩ hi hu hu'
      obtain ⟨hend, rs, rs', hrs, hrs', hanswers⟩ := ih hsame hrest hrest'
      refine ⟨hend, r :: rs, r' :: rs', ?_, ?_, ?_⟩
      · rw [hrs, hr, List.append_assoc]
        rfl
      · rw [hrs', hr', List.append_assoc]
        rfl
      · rw [List.map_cons, ← hanswers, ← hstatus, ← hdata]
        simp [encoderAnswers, hi]
    | false =>
      rw [List.filter_cons_of_neg (by rw [hi]; decide)] at ht'
      obtain ⟨hsame, r, hr⟩ := SameEncoding.exec_other (s := s.issue is) (s' := s')
        ⟨h.enc, h.mem, h.streamStart, h.freeCount⟩ hi hu
      obtain ⟨hend, rs, rs', hrs, hrs', hanswers⟩ := ih hsame hrest ht'
      refine ⟨hend, r :: rs, rs', ?_, hrs', ?_⟩
      · rw [hrs, hr, List.append_assoc]
        rfl
      · rw [← hanswers]
        simp [encoderAnswers, hi]

/-- Settles O48, from one state in both runs. -/
theorem interleavedCommandsLeaveTheEncodingAlone : Obligations.InterleavedCommandsLeaveTheEncodingAlone := by
  intro is s t t' ht ht'
  obtain ⟨⟨henc, hmem, hstart, hfree⟩, rs, rs', hrs, hrs', hanswers⟩ :=
    SameEncoding.run (s := s) (s' := s) ⟨rfl, rfl, rfl, rfl⟩ ht ht'
  refine ⟨henc, hmem, hstart, hfree, ?_⟩
  rw [hrs, hrs', List.drop_left, List.drop_left]
  exact hanswers

end Sys2Proof.Machine
end

section
/-! PROOFS. `range` is normalized after every command, and at most one carry reaches a held byte (rules R193, R197,
R198). -/

namespace Sys2Proof.Machine

/-! ## The renormalization of a selected range -/

theorem renormalized_ge {r : Byte} (h : r ≠ 0) : 128 ≤ (r <<< shiftOf r).toNat :=
  (normalizes_shiftOf h).1.trans_eq (toNat_shiftLeft_shiftOf h).symm

/-- Neither part of a range is empty (rule R105). -/
theorem selected_ne_zero {r p : Byte} (bit : Bool) (hr : 2 ≤ r.toNat) :
    (if bit then r - splitOf r p else splitOf r p) ≠ 0 := by
  refine ne_zero_of_toNat_pos ?_
  rw [toNat_selected bit hr]
  exact (selectedRange_bounds bit hr p.isLt).1

theorem encodeInterval_range_ge (bit : Bool) (p : Byte) {e : Encoder} (hr : 2 ≤ e.range.toNat) :
    128 ≤ (encodeInterval bit p e).range.toNat := by
  cases bit with
  | true => exact renormalized_ge (selected_ne_zero (p := p) true hr)
  | false => exact renormalized_ge (selected_ne_zero (p := p) false hr)

theorem encodedNext_range (bit : Bool) (p : Byte) (e : Encoder) :
    (encodedNext bit p e).range = (encodeInterval bit p e).range := by
  unfold encodedNext
  split
  · rw [byteRemoved_eq, afterFinalize_range]
  · rfl

/-- The range a bit selects is one of the two parts, whatever the window. -/
theorem decSelect_range (p : Byte) (d : Decoder) : (decSelect (splitOf d.range p) d).2.2 =
    if (decSelect (splitOf d.range p) d).1 then d.range - splitOf d.range p else splitOf d.range p := by
  unfold decSelect
  split <;> rfl

theorem decodeBit_range_ge (m : Memory) (p : Byte) {d : Decoder} (hr : 2 ≤ d.range.toNat) :
    128 ≤ (decodeBit m p d).2.range.toNat := by
  have hloaded : 2 ≤ (refill m d).range.toNat := by rwa [(refill_keeps m d).1]
  rw [decodeBit_context, (refill_keeps ..).1]
  refine renormalized_ge ?_
  rw [decSelect_range]
  exact selected_ne_zero _ hloaded

/-! ## Every command -/

theorem exec_encodeBool_range_ge {bit : Bool} {p : Byte} {s t : State} (h : exec (.encodeBool bit p) s = .next t)
    (hs : s.enc.phase = .active → 128 ≤ s.enc.range.toNat) (hp' : t.enc.phase = .active) :
    128 ≤ t.enc.range.toNat := by
  by_cases hp : s.enc.phase = .active
  · have hr := hs hp
    rw [exec_encodeBool_ok hp h (by rw [hp']; decide)]
    refine (encodeInterval_range_ge bit p (e := s.enc) (by omega)).trans_eq ?_
    rw [← encodedNext_range]
    rfl
  · obtain ⟨r, rfl⟩ := exec_writing_inactive (.inr ⟨bit, p, rfl⟩) hp h
    exact hs hp'

/-- After a `STOP_ENCODE` the encoder is `ACTIVE` in no case (rules R133, R136). -/
theorem exec_stopEncode_not_active {s t : State} (h : exec .stopEncode s = .next t) : t.enc.phase ≠ .active := by
  obtain ⟨hp, hx⟩ | ⟨hp, hx⟩ | ⟨-, u, -, hx⟩ | ⟨-, u, -, hx⟩ := execStopEncode_cases s
  · rw [respond_next_eq (hx.symm.trans h)]
    exact fun hp' => absurd (hp.symm.trans hp') (by decide)
  · rw [respond_next_eq (hx.symm.trans h)]
    obtain hp | hp := hp
    · exact fun hp' => absurd (hp.symm.trans hp') (by decide)
    · exact fun hp' => absurd (hp.symm.trans hp') (by decide)
  · rw [respond_next_eq (hx.symm.trans h)]
    exact nofun
  · rw [takeOverflow_next_eq (hx.symm.trans h)]
    exact nofun

theorem exec_encoder_range_ge {i : Instr} {s t : State} (hi : forEncoder i = true) (h : exec i s = .next t)
    (hs : s.enc.phase = .active → 128 ≤ s.enc.range.toNat) (hp' : t.enc.phase = .active) :
    128 ≤ t.enc.range.toNat := by
  cases i with
  | startEncode a b =>
    rw [respond_next_eq (s := (s.withEnc (startedEncoder a b)).withStreamStart a) h]
    exact (encInv_startedEncoder a b).range_ge
  | encodeBool bit p => exact exec_encodeBool_range_ge h hs hp'
  | stopEncode => exact absurd hp' (exec_stopEncode_not_active h)
  | startDecode a n => cases hi
  | decodeBool p => cases hi
  | norm r => cases hi

theorem exec_decoder_range_ge {i : Instr} {s t : State} (hi : forDecoder i = true) (h : exec i s = .next t)
    (hs : s.dec.phase = .active → 128 ≤ s.dec.range.toNat) (hp' : t.dec.phase = .active) :
    128 ≤ t.dec.range.toNat := by
  cases i with
  | startEncode a b => cases hi
  | encodeBool bit p => cases hi
  | stopEncode => cases hi
  | startDecode a n =>
    rw [respond_next_eq (s := s.withDec (startedDecoder a n)) h]
    exact (decInv_startedDecoder a n).range_ge
  | decodeBool p =>
    cases hp : s.dec.phase with
    | idle =>
      rw [exec_decodeBool_idle p hp] at h
      rw [respond_next_dec h] at hp' ⊢
      exact hs hp'
    | active =>
      have hr := hs hp
      rw [exec_decodeBool_active p hp] at h
      rw [← Host.Outcome.next.inj h, State.withResponse_dec, State.withDec_dec]
      exact decodeBit_range_ge s.mem p (by omega)
  | norm r => cases hi

/-- Settles O41, by the context the command addresses: it keeps its own range normalized and the other as it was. -/
theorem rangeIsNormalizedAfterEveryStep : Obligations.RangeIsNormalizedAfterEveryStep := by
  intro i s t h henc hdec
  cases hi : forEncoder i with
  | true => exact ⟨exec_encoder_range_ge hi h henc, by rwa [exec_encoder_dec hi h]⟩
  | false =>
    obtain ⟨d, r, rfl, hd⟩ := exec_other_eq hi h
    refine ⟨henc, ?_⟩
    cases hj : forDecoder i with
    | true => exact exec_decoder_range_ge hj h hdec
    | false =>
      rw [hd hj]
      exact hdec

/-! ## Carries -/

/-- A carry out of `low_value` comes only where none is pending and a byte is held: else the interval ends below the
carry (rule R197). -/
theorem EncInv.carry_meets_none {bit : Bool} {p : Byte} {e : Encoder} (h : EncInv e)
    (hcarry : 2 ^ 32 ≤ exactSum bit p e) : e.pendingCarry = false ∧ e.pendingValid = true := by
  have hend := exactSum_add_selected_le (bit := bit) (p := p) h.range_two
  have hvalid : e.pendingValid = true := by
    rw [← Bool.not_eq_false]
    intro hv
    have := (h.first hv).2.2
    omega
  refine ⟨?_, hvalid⟩
  rw [← Bool.not_eq_true]
  intro hc
  have hlater := (h.later hvalid).2
  rw [hc, Bool.toNat_true] at hlater
  omega

/-- Settles O44: the interval that the pending carry begins ends below `2^16`. -/
theorem aCarryNeverMeetsAnotherCarry : Obligations.ACarryNeverMeetsAnotherCarry := by
  intro bit p e h
  refine ⟨h.carry_meets_none, fun hc => ?_⟩
  obtain ⟨w, hw⟩ := h.encodeInterval bit p
  have hlater := (hw.later (hw.valid_of_carry hc)).2
  rw [hc, Bool.toNat_true] at hlater
  refine ⟨BitVec.eq_of_toNat_eq ?_, by omega⟩
  rw [toNat_topByte, Nat.div_eq_of_lt (by omega)]
  rfl

end Sys2Proof.Machine
end

section
/-! PROOFS. The stream is the lower end of the final interval: the bytes of the patching encoder, its pending carry and
`low_value` are at every moment the exact lower end of the interval (rules R122, R134, R135, R205). -/

namespace Sys2Proof.Machine

/-! ## Bytes as one number -/

@[simp] theorem bigEndian_nil : bigEndian [] = 0 := rfl

theorem bigEndian_concat (bs : List Byte) (b : Byte) : bigEndian (bs ++ [b]) = bigEndian bs * 256 + b.toNat := by
  simp [bigEndian]

theorem bigEndian_append (bs cs : List Byte) :
    bigEndian (bs ++ cs) = bigEndian bs * 2 ^ (8 * cs.length) + bigEndian cs := by
  induction cs using List.reverseRecOn with
  | nil => simp
  | append_singleton cs c ih =>
    rw [← List.append_assoc, bigEndian_concat, ih, bigEndian_concat, List.length_append, List.length_singleton,
      Nat.mul_add, Nat.pow_add]
    ring

theorem bigEndian_lt (bs : List Byte) : bigEndian bs < 2 ^ (8 * bs.length) := by
  induction bs using List.reverseRecOn with
  | nil => decide
  | append_singleton bs b ih =>
    have hb := b.isLt
    rw [bigEndian_concat, List.length_append, List.length_singleton, Nat.mul_add, Nat.pow_add]
    omega

/-- Patching a carry backward adds it to the number, where that stays below `256` to the number of bytes. -/
theorem bigEndian_patchCarry {out : List Byte} (h : bigEndian out.reverse + 1 < 2 ^ (8 * out.length)) :
    bigEndian (patchCarry out).reverse = bigEndian out.reverse + 1 := by
  induction out with
  | nil => exact absurd h (by decide)
  | cons b out ih =>
    rw [List.reverse_cons, bigEndian_concat, List.length_cons, Nat.mul_add, Nat.pow_add] at h
    rw [List.reverse_cons, bigEndian_concat, patchCarry]
    split
    next hb =>
      rw [hb, show (0xFF : Byte).toNat = 255 from rfl] at h ⊢
      rw [List.reverse_cons, bigEndian_concat, ih (by omega), show (0x00 : Byte).toNat = 0 from rfl]
      omega
    next hb =>
      have hlt := b.isLt
      have hne : b.toNat ≠ 255 := fun h255 => hb (BitVec.eq_of_toNat_eq h255)
      rw [List.reverse_cons, bigEndian_concat, BitVec.toNat_add, show (1 : Byte).toNat = 1 from rfl]
      omega

theorem length_patchCarry (out : List Byte) : (patchCarry out).length = out.length := by
  induction out with
  | nil => rfl
  | cons b out ih =>
    rw [patchCarry]
    split
    · rw [List.length_cons, List.length_cons, ih]
    · rfl

theorem length_patchedOut (carry : Bool) (out : List Byte) : (patchedOut carry out).length = out.length := by
  cases carry with
  | true => exact length_patchCarry out
  | false => rfl

theorem bigEndian_patchedOut {carry : Bool} {out : List Byte}
    (h : bigEndian out.reverse + carry.toNat < 2 ^ (8 * out.length)) :
    bigEndian (patchedOut carry out).reverse = bigEndian out.reverse + carry.toNat := by
  cases carry with
  | true => exact bigEndian_patchCarry h
  | false => rfl

/-! ## The exact interval -/

/-- Its range is normalized, and it lies inside the initial interval (rules R193, R203). -/
structure Interval.Inv (i : Interval) : Prop where
  range_ge : 128 ≤ i.range
  range_lt : i.range < 256
  within : i.low + i.range ≤ 255 * 2 ^ i.shifts

theorem Interval.inv_initial : Interval.initial.Inv := ⟨by decide, by decide, by decide⟩

/-- The lower end of the part a bit selects, before the renormalization (rule R203). -/
def selectedLow (bit : Bool) (p : Byte) (i : Interval) : Nat :=
  if bit then i.low + exactSplit i.range p.toNat else i.low

theorem selectedLow_true (p : Byte) (i : Interval) :
    selectedLow true p i = i.low + exactSplit i.range p.toNat := rfl
theorem selectedLow_false (p : Byte) (i : Interval) : selectedLow false p i = i.low := rfl
theorem selectedRange_false (r p : Nat) : selectedRange false r p = exactSplit r p := rfl

theorem Interval.encode_eq {i : Interval} {bit : Bool} {p : Byte} {k : Nat} (h : i.Inv)
    (hk : Normalizes (selectedRange bit i.range p.toNat) k) :
    i.encode (bit, p) = ⟨selectedLow bit p i * 2 ^ k, selectedRange bit i.range p.toNat * 2 ^ k, i.shifts + k⟩ := by
  have hr := h.range_ge
  have hlt := h.range_lt
  obtain ⟨hpos, hle⟩ := selectedRange_bounds bit (p := p.toNat) (by omega : 2 ≤ i.range) p.isLt
  have hshift := (exactShift_eq_iff hpos (by omega)).2 hk
  subst hshift
  rfl

/-- The part selected lies inside the interval. -/
theorem selectedLow_bounds {i : Interval} (bit : Bool) (p : Byte) (h : i.Inv) :
    i.low ≤ selectedLow bit p i ∧ selectedLow bit p i + selectedRange bit i.range p.toNat ≤ i.low + i.range := by
  have hr := h.range_ge
  obtain ⟨hpos, hle⟩ := exactSplit_bounds (p := p.toNat) (by omega : 2 ≤ i.range) p.isLt
  unfold selectedLow selectedRange
  cases bit with
  | true => simp only [if_true]; omega
  | false => simp only [Bool.false_eq_true, if_false]; omega

theorem Interval.Inv.exists_shift {i : Interval} (bit : Bool) (p : Byte) (h : i.Inv) :
    ∃ k, Normalizes (selectedRange bit i.range p.toNat) k :=
  exists_normalizes_selectedRange bit p (by have := h.range_ge; omega) h.range_lt

theorem Interval.Inv.encode {i : Interval} (x : Bool × Byte) (h : i.Inv) : (i.encode x).Inv := by
  obtain ⟨bit, p⟩ := x
  obtain ⟨k, hk⟩ := h.exists_shift bit p
  rw [Interval.encode_eq h hk]
  refine ⟨hk.1, Nat.lt_succ_of_le hk.2, ?_⟩
  have hle := Nat.mul_le_mul_right (2 ^ k) ((selectedLow_bounds bit p h).2.trans h.within)
  rw [Nat.add_mul, Nat.mul_assoc, ← Nat.pow_add] at hle
  exact hle

/-! ## The patching encoder follows it -/

/-- The patching encoder's output with its pending carry, over `low_value`: one number, with `low_value` as its last 32
bits (rule R122). -/
def exactLow (x : Encoder) (out : List Byte) : Nat :=
  (bigEndian out.reverse + x.pendingCarry.toNat) * 2 ^ 32 + x.lowValue.toNat

theorem IntervalInv.end_lt {e : Encoder} {w : Nat} (h : IntervalInv e w) : e.lowValue.toNat + w < 2 ^ 32 + 2 ^ 16 := by
  cases hv : e.pendingValid with
  | false =>
    have := (h.first hv).2.2
    omega
  | true =>
    have := (h.later hv).2
    omega

/-- The registers are those of a context that meets the encoder's invariant. -/
def HasEncInv (x : Encoder) : Prop := ∃ e, SameInterval x e ∧ EncInv e

/-- The patching encoder, with the registers `x` and the output `out`, is at the exact interval `i`. -/
structure Follows (i : Interval) (x : Encoder) (out : List Byte) : Prop where
  inv : HasEncInv x
  interval : i.Inv
  range : x.range.toNat = i.range
  low : exactLow x out = i.low * 2 ^ encPos x
  count : 8 * out.length + 24 = i.shifts + encPos x
  later : out ≠ [] → encPos x ≤ 8

theorem follows_initial : Follows Interval.initial (startedEncoder 0 0) [] :=
  ⟨⟨startedEncoder 0 0, ⟨rfl, rfl, rfl, rfl⟩, encInv_startedEncoder 0 0⟩, Interval.inv_initial, by decide, by decide,
    by decide, fun h => absurd rfl h⟩

section
variable {i : Interval} {x : Encoder} {out : List Byte} {bit : Bool} {p : Byte} {k : Nat}

theorem SameInterval.exactSum {e : Encoder} (h : SameInterval x e) : exactSum bit p x = exactSum bit p e := by
  rw [Machine.exactSum, Machine.exactSum, h.lowValue, h.range, h.bitCount]

/-- A carry out of `low_value` meets none pending, so the exact sum is kept whole (rules R26, R197). -/
theorem exactLow_encodedInterval (hx : HasEncInv x) :
    exactLow (encodedInterval bit p k x) out =
      (bigEndian out.reverse + x.pendingCarry.toNat) * 2 ^ 32 + exactSum bit p x := by
  obtain ⟨e, hsame, hinv⟩ := hx
  have hend := exactSum_add_selected_le (bit := bit) (p := p) hinv.range_two
  have hlt := hinv.interval.end_lt
  have hmeets := hinv.carry_meets_none (bit := bit) (p := p)
  rw [← hsame.exactSum, ← hsame.pendingCarry] at hmeets
  rw [← hsame.exactSum] at hend
  rw [exactLow, show (encodedInterval bit p k x).lowValue.toNat = exactSum bit p x % 2 ^ 32 from BitVec.toNat_ofNat ..,
    show (encodedInterval bit p k x).pendingCarry = (x.pendingCarry || decide (2 ^ 32 ≤ exactSum bit p x)) from rfl]
  by_cases hcarry : 2 ^ 32 ≤ exactSum bit p x
  · rw [(hmeets hcarry).1, decide_eq_true hcarry, Bool.or_true, Bool.toNat_true, Bool.toNat_false]
    omega
  · rw [decide_eq_false hcarry, Bool.or_false, Nat.mod_eq_of_lt (by omega)]

/-- With the split added for a 1 bit, it is the lower end of the part selected (rules R123, R203). -/
theorem Follows.selected (h : Follows i x out) :
    exactLow (encodedInterval bit p k x) out = selectedLow bit p i * 2 ^ encPos x := by
  have hlow := h.low
  rw [exactLow_encodedInterval h.inv]
  rw [exactLow] at hlow
  unfold exactSum selectedLow
  cases bit with
  | true =>
    simp only [if_true, Nat.add_mul, ← hlow, ← h.range, Nat.add_assoc]
    rfl
  | false => exact hlow

/-- Bytes with a carry that belong to a number inside the initial interval do not fill all of their digits. -/
theorem carried_lt {low s : Nat} {x' : Encoder} (hcount : 8 * out.length + 24 = s + encPos x)
    (hlow : exactLow x' out = low * 2 ^ encPos x) (hlt : low < 255 * 2 ^ s) :
    bigEndian out.reverse + x'.pendingCarry.toNat < 2 ^ (8 * out.length) := by
  have hscaled := Nat.mul_lt_mul_of_pos_right hlt (Nat.two_pow_pos (encPos x))
  rw [← hlow, Nat.mul_assoc, ← Nat.pow_add, ← hcount, Nat.pow_add, exactLow] at hscaled
  omega

theorem Follows.no_overflow (h : Follows i x out) :
    bigEndian out.reverse + (encodedInterval bit p k x).pendingCarry.toNat < 2 ^ (8 * out.length) := by
  have hlow := h.selected (bit := bit) (p := p) (k := k)
  obtain ⟨hpos, -⟩ := selectedRange_bounds bit (p := p.toNat)
    (by have := h.interval.range_ge; omega : 2 ≤ i.range) p.isLt
  have hwithin := (selectedLow_bounds bit p h.interval).2.trans h.interval.within
  exact carried_lt h.count hlow (by omega)

/-- Emitting the top byte moves it from `low_value` to the bytes, with the carry added in (rules R125, R134). -/
theorem exactLow_patchEmit (h : bigEndian out.reverse + x.pendingCarry.toNat < 2 ^ (8 * out.length)) :
    exactLow (patchEmit (x, out)).1 (patchEmit (x, out)).2 = exactLow x out * 2 ^ 8 := by
  have hout : bigEndian (patchEmit (x, out)).2.reverse =
      (bigEndian out.reverse + x.pendingCarry.toNat) * 256 + x.lowValue.toNat / 2 ^ 24 := by
    rw [patchEmit, reverse_patchFinalize, bigEndian_concat, bigEndian_patchedOut h, toNat_topByte]
  rw [exactLow, hout, exactLow, show (patchEmit (x, out)).1.pendingCarry = false from rfl, Bool.toNat_false,
    show (patchEmit (x, out)).1.lowValue = lowShifted x from rfl, toNat_lowShifted]
  omega

theorem length_patchEmit (y : Encoder × List Byte) : (patchEmit y).2.length = y.2.length + 1 := by
  rw [patchEmit, ← List.length_reverse, reverse_patchFinalize, List.length_append, List.length_singleton,
    List.length_reverse, length_patchedOut]

theorem HasEncInv.patchEncode (h : HasEncInv x) : HasEncInv (patchEncode (x, out) (bit, p)).1 := by
  obtain ⟨e, hsame, hinv⟩ := h
  exact ⟨encodedNext bit p e, patchEncode_same hsame, hinv.encodedNext bit p⟩

theorem HasEncInv.count (h : HasEncInv x) : -24 ≤ x.bitCount.toInt ∧ x.bitCount.toInt < 0 := by
  obtain ⟨e, hsame, hinv⟩ := h
  rw [hsame.bitCount]
  exact ⟨hinv.count_ge, hinv.count_neg⟩

/-- From the interval `i`, the shift by `k` and the `n` bytes that it makes leave `low_value`, one or none, lead to
the next interval (rules R123, R203). -/
theorem Follows.next {x' : Encoder} {out' : List Byte} {n : Nat} (h : Follows i x out)
    (hk : Normalizes (selectedRange bit i.range p.toNat) k) (hinv : HasEncInv x')
    (hrange : x'.range.toNat = selectedRange bit i.range p.toNat * 2 ^ k)
    (hlow : exactLow x' out' = selectedLow bit p i * 2 ^ encPos x * 2 ^ (8 * n))
    (hcount : x'.bitCount.toInt = x.bitCount.toInt + k - 8 * n) (hlen : out'.length = out.length + n)
    (hn : n = 0 ∨ n = 1 ∧ 0 ≤ x.bitCount.toInt + k) : Follows (i.encode (bit, p)) x' out' := by
  have hneg := h.inv.count.2
  have hneg' := hinv.count.2
  have hbytes := h.count
  have hpos : encPos x + 8 * n = k + encPos x' := by
    unfold encPos
    omega
  have hnext := h.interval.encode (bit, p)
  rw [Interval.encode_eq h.interval hk] at hnext ⊢
  refine ⟨hinv, hnext, hrange, ?_, ?_, fun hne => ?_⟩
  · rw [hlow, Nat.mul_assoc, ← Nat.pow_add, hpos, Nat.pow_add, Nat.mul_assoc]
  · dsimp only
    omega
  · obtain rfl | ⟨rfl, hdue⟩ := hn
    · have := h.later fun hnil => hne (List.eq_nil_of_length_eq_zero (by rw [hlen, hnil]; rfl))
      omega
    · unfold encPos
      omega

theorem HasEncInv.encPos_bounds (h : HasEncInv x) : 1 ≤ encPos x ∧ encPos x ≤ 24 := by
  obtain ⟨hge, hneg⟩ := h.count
  unfold encPos
  omega

/-- One bit, encoded by the patching encoder and in exact integers. -/
theorem Follows.encode (h : Follows i x out) :
    Follows (i.encode (bit, p)) (patchEncode (x, out) (bit, p)).1 (patchEncode (x, out) (bit, p)).2 := by
  obtain ⟨k, hk⟩ := h.interval.exists_shift bit p
  obtain ⟨hge, hneg⟩ := h.inv.count
  have hkx : Normalizes (selectedRange bit x.range.toNat p.toNat) k := h.range.symm ▸ hk
  have hint := encodeInterval_eq (by have := h.interval.range_ge; rw [h.range]; omega) hge hkx
  have hdue := byteDue_encodedInterval (bit := bit) (p := p) hneg hk.le
  have hcount := toInt_encodedInterval_bitCount (bit := bit) (p := p) hneg hk.le
  have hrange := (toNat_encodedInterval_range hkx).trans (by rw [h.range])
  have hlow := h.selected (bit := bit) (p := p) (k := k)
  have hfull := h.no_overflow (bit := bit) (p := p) (k := k)
  have hinv := h.inv.patchEncode (out := out) (bit := bit) (p := p)
  rw [← hint] at hdue hcount hrange hlow hfull
  by_cases hd : 0 ≤ x.bitCount.toInt + k
  · rw [patchEncode_due (hdue.trans (decide_eq_true hd))] at hinv ⊢
    refine h.next (n := 1) hk hinv hrange ?_ ?_ ?_ (.inr ⟨rfl, hd⟩)
    · exact (exactLow_patchEmit hfull).trans (congrArg (· * 2 ^ 8) hlow)
    · exact (encCount_sub (by omega)).trans (by rw [hcount]; rfl)
    · dsimp only
      exact length_patchEmit (encodeInterval bit p x, out)
  · rw [patchEncode_none (hdue.trans (decide_eq_false hd))] at hinv ⊢
    exact h.next (n := 0) hk hinv hrange (by simpa using hlow) (by simpa using hcount) rfl (.inl rfl)

end

theorem Follows.encodeAll {i : Interval} {y : Encoder × List Byte} (bits : List (Bool × Byte))
    (h : Follows i y.1 y.2) :
    Follows (bits.foldl Interval.encode i) (bits.foldl patchEncode y).1 (bits.foldl patchEncode y).2 := by
  induction bits generalizing i y with
  | nil => exact h
  | cons x bits ih => exact ih h.encode

/-- The patching encoder after a whole sequence of bits, before the end of its stream. -/
def patchedBits (bits : List (Bool × Byte)) : Encoder × List Byte :=
  bits.foldl patchEncode (startedEncoder 0 0, [])

theorem follows_patchedBits (bits : List (Bool × Byte)) :
    Follows (finalInterval bits) (patchedBits bits).1 (patchedBits bits).2 :=
  Follows.encodeAll (y := (startedEncoder 0 0, [])) bits follows_initial

/-! ## The end of the stream -/

theorem bigEndian_topBytes_flush (e : Encoder) : bigEndian (topBytes Config.flushBytes e) = e.lowValue.toNat := by
  have hlow := e.lowValue.isLt
  rw [topBytes_flush]
  simp only [bigEndian, lowBytes, List.foldl_cons, List.foldl_nil, BitVec.extractLsb'_toNat,
    Nat.shiftRight_eq_div_pow]
  omega

theorem patchStream_eq (bits : List (Bool × Byte)) :
    patchStream bits = (patchEmit^[Config.flushBytes] (patchedBits bits)).2.reverse := rfl

section
variable {i : Interval} {x : Encoder} {out : List Byte}

/-- The end of the stream: the bytes with the pending carry added in, then those of `low_value` (rules R133, R134). -/
theorem reverse_patchEmit_flush : (patchEmit^[Config.flushBytes] (x, out)).2.reverse =
    (patchedOut x.pendingCarry out).reverse ++ topBytes Config.flushBytes x := by
  have hone : (patchEmit (x, out)).2.reverse = (patchedOut x.pendingCarry out).reverse ++ [topByte x] :=
    reverse_patchFinalize ..
  rw [Config.flushBytes, Function.iterate_succ_apply, reverse_iterate_patchEmit 3 rfl, hone, List.append_assoc,
    List.singleton_append]
  rfl

theorem Follows.bigEndian_stream (h : Follows i x out) :
    bigEndian (patchEmit^[Config.flushBytes] (x, out)).2.reverse = i.low * 2 ^ encPos x := by
  have hfull : bigEndian out.reverse + x.pendingCarry.toNat < 2 ^ (8 * out.length) := by
    have hwithin := h.interval.within
    have hrange := h.interval.range_ge
    exact carried_lt h.count h.low (by omega)
  rw [reverse_patchEmit_flush, bigEndian_append, bigEndian_patchedOut hfull, bigEndian_topBytes_flush, ← h.low,
    length_topBytes]
  rfl

theorem length_patchEmit_flush : (patchEmit^[Config.flushBytes] (x, out)).2.length = out.length + 4 := by
  rw [← List.length_reverse, reverse_patchEmit_flush, List.length_append, List.length_reverse, length_patchedOut,
    length_topBytes]
  rfl

/-- The length of rule R135: after the first byte less than a whole byte is missing, before it nothing is written. -/
theorem Follows.streamLength_eq (h : Follows i x out) : streamLength i.shifts = out.length + 4 := by
  have hcount := h.count
  have hpos := h.inv.encPos_bounds
  unfold streamLength
  by_cases hnil : out = []
  · rw [hnil, List.length_nil] at hcount ⊢
    omega
  · have := h.later hnil
    omega

end

theorem length_patchStream (bits : List (Bool × Byte)) :
    (patchStream bits).length = (patchedBits bits).2.length + 4 := by
  rw [patchStream_eq, List.length_reverse]
  exact length_patchEmit_flush

/-! ## The machine's run -/

/-- A command leaves the script of the commands still to come as it is (rule R14). -/
theorem issue_of_exec {i : Instr} {is : List Instr} {s u : State} (h : exec i (s.issue is) = .next u) :
    u.issue is = u := by
  rw [State.issue, ← State.withHost_self u, exec_next_host h]
  rfl

/-- A run of the commands after `START_ENCODE` that leads into no fault comes to its `STOP_ENCODE` beside the patching
encoder, every answer before it `OK`. -/
theorem Mirrors.before_stop {a : Word} {m₀ : Memory} {bits : List (Bool × Byte)} {x : Encoder × List Byte}
    {s t : State} (h : Mirrors a m₀ x s.enc s.mem)
    (ht : runSteps (bits.length + 1) (s.issue (streamProgram bits)) = .next t) (hf : t.enc.phase ≠ .fault) :
    ∃ u, Mirrors a m₀ (bits.foldl patchEncode x) u.enc u.mem ∧ exec .stopEncode u = .next t ∧ u.dec = s.dec ∧
      u.responses = s.responses ++ List.replicate bits.length ⟨.ok, s.dec.exhausted, 0⟩ := by
  induction bits generalizing x s with
  | nil =>
    obtain ⟨u, hu, hrest⟩ := runSteps_issue_cons ht
    rw [issue_of_exec hu] at hrest
    cases hrest
    exact ⟨s.issue [], h, hu, rfl, (List.append_nil _).symm⟩
  | cons b bits ih =>
    obtain ⟨u, hu, hrest⟩ := runSteps_issue_cons ht
    have hf' : u.enc.phase ≠ .fault := fun hu' => hf (runSteps_streamProgram_fault hu' hrest)
    have hnext := Mirrors.encode (s := s.issue (streamProgram bits)) h hu hf'
    have hok := exec_encodeBool_ok (s := s.issue (streamProgram bits)) h.phase hu hf'
    obtain ⟨v, hmirrors, hv, hdec, hresp⟩ := ih hnext hrest
    have hdec' : u.dec = s.dec := by rw [hok]; rfl
    have hresp' : u.responses = s.responses ++ [⟨.ok, s.dec.exhausted, 0⟩] := by rw [hok]; rfl
    refine ⟨v, hmirrors, hv, hdec.trans hdec', ?_⟩
    rw [hresp, hresp', hdec', List.append_assoc, List.length_cons, List.replicate_succ, List.singleton_append]

/-- What a completed run of `encodeProgram a _ bits` from `s` leaves in `t`: the patching encoder's bytes at `a`, its
count, and every answer `OK`. -/
structure Encoded (a : Word) (bits : List (Bool × Byte)) (s t : State) : Prop where
  cursor : t.enc.outputCursor.toNat = a.toNat + (patchStream bits).length
  bytes : bytesAt t.mem a.toNat (patchStream bits).length = patchStream bits
  bitCount : t.enc.bitCount = (patchedBits bits).1.bitCount
  responses : t.responses = s.responses ++ List.replicate (bits.length + 1) ⟨.ok, s.dec.exhausted, 0⟩ ++
    [⟨.ok, s.dec.exhausted, t.enc.outputCursor⟩]

theorem encoded_of_run {bits : List (Bool × Byte)} {a b : Word} {s t : State} (hwf : Memory.wf s.mem = true)
    (hrun : runSteps (bits.length + 2) (s.issue (encodeProgram a b bits)) = .next t) (hf : t.enc.phase ≠ .fault) :
    Encoded a bits s t := by
  obtain ⟨v, hv, hrest⟩ := runSteps_issue_cons (is := streamProgram bits) hrun
  cases hv
  obtain ⟨u, hmirrors, hu, hdec, hresp⟩ := Mirrors.before_stop (mirrors_started a b s.mem) hrest hf
  obtain ⟨hmem, hcur⟩ := hmirrors.stop hu hf
  have hlt := t.enc.outputCursor.isLt
  have hok := exec_stopEncode_ok hmirrors.phase (fun hv => (hmirrors.inv.first hv).2.1) hu hf
  rw [← patchedBits, ← patchStream_eq] at hmem hcur
  refine ⟨hcur, ?_, ?_, ?_⟩
  · rw [hmem, bytesAt_storeBytes hwf (by omega)]
  · rw [patchedBits, hmirrors.same.bitCount, hok]
    rfl
  · have hresp' : u.responses = s.responses ++ List.replicate (bits.length + 1) ⟨.ok, s.dec.exhausted, 0⟩ := by
      rw [hresp, List.replicate_succ, ← List.singleton_append, ← List.append_assoc]
      rfl
    rw [← hresp', hok, ← show u.dec.exhausted = s.dec.exhausted from congrArg _ hdec]
    rfl

/-- Settles O46, from the patching encoder to the machine. -/
theorem streamIsTheLowerEndOfTheFinalInterval : Obligations.StreamIsTheLowerEndOfTheFinalInterval := by
  rintro bits a b s t m pos hwf hrun hdone rfl rfl
  obtain ⟨hcur, hbytes, hcount, -⟩ := encoded_of_run hwf hrun (by rw [hdone]; decide)
  have hfollows := follows_patchedBits bits
  have hpos : (-t.enc.bitCount.toInt).toNat = encPos (patchedBits bits).1 := by rw [hcount]; rfl
  have hlen := hfollows.streamLength_eq
  rw [length_patchStream, ← hlen] at hcur hbytes
  rw [hpos, hbytes]
  refine ⟨hcur, hfollows.inv.encPos_bounds.1, hfollows.inv.encPos_bounds.2, ?_, hfollows.bigEndian_stream⟩
  have hcount := hfollows.count
  omega

end Sys2Proof.Machine
end

section
/-! PROOFS. An encoding whose buffer is long enough completes: what it stores and holds back are as many bytes as the
patching encoder has, and these are bounded by the shifts (rules R131, R135, R190, R191). -/

namespace Sys2Proof.Machine

/-! ## How many bytes there are -/

theorem length_heldBytes_eq (e : Encoder) : (heldBytes e).length = (unpatchedBytes e).length := by
  cases hv : e.pendingValid with
  | true => rw [unpatchedBytes, length_heldBytes hv, length_heldBytes (e := { e with pendingCarry := false }) hv]
  | false => simp [unpatchedBytes, heldBytes, hv]

theorem length_releasedBy_le (b : Byte) (e : Encoder) : (releasedBy b e).length ≤ (heldBytes e).length := by
  unfold releasedBy
  split
  · exact le_rfl
  · exact Nat.zero_le _

/-- A command releases none but bytes held before it. -/
theorem length_encodeReleases_le (bit : Bool) (p : Byte) (e : Encoder) :
    (encodeReleases bit p e).length ≤ (unpatchedBytes e).length := by
  have hle := length_releasedBy_le (topByte (encodeInterval bit p e)) (encodeInterval bit p e)
  rw [length_heldBytes_eq, unpatchedBytes_encodeInterval] at hle
  unfold encodeReleases
  split
  · exact hle
  · exact Nat.zero_le _

/-- A run that overflows its counter is `2^32` bytes long with the pending byte. -/
theorem length_of_encodeOverflowsRun {bit : Bool} {p : Byte} {e : Encoder} (h : encodeOverflowsRun bit p e = true) :
    (unpatchedBytes e).length = 2 ^ 32 := by
  simp only [encodeOverflowsRun, runOverflows, encodeInterval_pendingValid, Bool.and_eq_true, runFull_iff,
    encodeInterval_run] at h
  obtain ⟨-, ⟨⟨hv, -⟩, -⟩, hrun⟩ := h
  rw [← length_heldBytes_eq, length_heldBytes hv, hrun]
  rfl

theorem length_patchEncode_ge (y : Encoder × List Byte) (b : Bool × Byte) :
    y.2.length ≤ (patchEncode y b).2.length := by
  obtain ⟨x, out⟩ := y
  obtain ⟨bit, p⟩ := b
  cases hdue : byteDue (encodeInterval bit p x) with
  | true =>
    rw [patchEncode_due hdue]
    dsimp only
    exact (Nat.le_succ _).trans_eq (length_patchEmit (encodeInterval bit p x, out)).symm
  | false => rw [patchEncode_none hdue]

theorem length_foldl_patchEncode_ge (bits : List (Bool × Byte)) (y : Encoder × List Byte) :
    y.2.length ≤ (bits.foldl patchEncode y).2.length := by
  induction bits generalizing y with
  | nil => exact le_rfl
  | cons b bits ih => exact (length_patchEncode_ge y b).trans (ih _)

theorem foldl_encode_shifts_le (bits : List (Bool × Byte)) (i : Interval) :
    (bits.foldl Interval.encode i).shifts ≤ i.shifts + 7 * bits.length := by
  induction bits generalizing i with
  | nil => exact le_rfl
  | cons x bits ih =>
    have hone : (i.encode x).shifts ≤ i.shifts + 7 := Nat.add_le_add_left (Nat.sub_le ..) _
    have hrest := ih (i.encode x)
    rw [List.foldl_cons, List.length_cons]
    omega

/-- The bound of rule R190 on the bytes before the last four. -/
theorem length_patchedBits_le (bits : List (Bool × Byte)) :
    (patchedBits bits).2.length ≤ (7 * bits.length - 16) / 8 := by
  have hfollows := follows_patchedBits bits
  have hcount := hfollows.count
  have hshifts := foldl_encode_shifts_le bits Interval.initial
  rw [show Interval.initial.shifts = 0 from rfl, Nat.zero_add, ← finalInterval] at hshifts
  by_cases hnil : (patchedBits bits).2 = []
  · rw [hnil]
    exact Nat.zero_le _
  · have := hfollows.later hnil
    omega

/-! ## A run in a buffer that is long enough -/

section
variable {a : Word} {m₀ : Memory} {x : Encoder × List Byte} {s t : State}

/-- What is stored and what is held back are as many bytes as the patching encoder has written. -/
theorem Mirrors.length (h : Mirrors a m₀ x s.enc s.mem) :
    s.enc.outputCursor.toNat + (unpatchedBytes s.enc).length = a.toNat + x.2.length := by
  obtain ⟨ws, ⟨-, hcur⟩, hout⟩ := h.stream
  rw [← x.2.length_reverse, hout, List.length_append, hcur, Nat.add_assoc]

theorem Mirrors.encode_completes {bit : Bool} {p : Byte} (h : Mirrors a m₀ x s.enc s.mem)
    (hroom : a.toNat + x.2.length ≤ s.enc.outputEnd.toNat) (ht : exec (.encodeBool bit p) s = .next t) :
    t.enc.phase ≠ .fault ∧ t.enc.outputEnd = s.enc.outputEnd := by
  have hlen := h.length
  have hend := s.enc.outputEnd.isLt
  have hrun : encodeOverflowsRun bit p s.enc = false := by
    rw [← Bool.not_eq_true]
    intro hover
    have := length_of_encodeOverflowsRun hover
    omega
  have hfit : (encodeReleases bit p s.enc).length ≤ room s.enc := by
    have := length_encodeReleases_le bit p s.enc
    unfold room
    omega
  have hphase := (encodedNext_phase bit p s.enc).trans h.phase
  refine ⟨?_, (execEncodeBool_released h.phase ht).outputEnd⟩
  rw [respond_next_eq ((exec_encodeBool_fits h.phase hrun hfit).symm.trans ht)]
  exact fun hf => absurd (hphase.symm.trans hf) (by decide)

theorem Mirrors.stop_completes (h : Mirrors a m₀ x s.enc s.mem)
    (hroom : a.toNat + (x.2.length + 4) ≤ s.enc.outputEnd.toNat) (ht : exec .stopEncode s = .next t) :
    t.enc.phase ≠ .fault := by
  have hlen := h.length
  have hfit : (stopReleases s.enc).length ≤ room s.enc := by
    rw [stopReleases, List.length_append, length_heldBytes_eq, show (lowBytes s.enc).length = 4 from rfl]
    unfold room
    omega
  rw [← Host.Outcome.next.inj ((stopEncodeStoresTheRestOfTheStream s h.phase
    (fun hv => (h.inv.first hv).2.1) hfit).symm.trans ht)]
  exact nofun

end

theorem Mirrors.run_completes {a : Word} {m₀ : Memory} {bits : List (Bool × Byte)} {x : Encoder × List Byte}
    {s t : State} (h : Mirrors a m₀ x s.enc s.mem)
    (hroom : a.toNat + ((bits.foldl patchEncode x).2.length + 4) ≤ s.enc.outputEnd.toNat)
    (ht : runSteps (bits.length + 1) (s.issue (streamProgram bits)) = .next t) : t.enc.phase ≠ .fault := by
  induction bits generalizing x s with
  | nil =>
    obtain ⟨u, hu, hrest⟩ := runSteps_issue_cons ht
    cases hrest
    exact Mirrors.stop_completes (s := s.issue []) (t := u) h hroom hu
  | cons b bits ih =>
    obtain ⟨u, hu, hrest⟩ := runSteps_issue_cons ht
    have hmono := length_foldl_patchEncode_ge (b :: bits) x
    obtain ⟨hf, hend⟩ := Mirrors.encode_completes (s := s.issue (streamProgram bits)) h
      (show _ ≤ s.enc.outputEnd.toNat by omega) hu
    have hend : u.enc.outputEnd = s.enc.outputEnd := hend
    exact ih (Mirrors.encode (s := s.issue (streamProgram bits)) h hu hf) (by rw [hend]; exact hroom) hrest

/-- Every command answers, so every list of commands has a run (rule R14). -/
theorem exists_runSteps_issue (is : List Instr) (s : State) : ∃ t, runSteps is.length (s.issue is) = .next t := by
  induction is generalizing s with
  | nil => exact ⟨_, rfl⟩
  | cons i is ih =>
    have hstep : step (s.issue (i :: is)) = exec i (s.issue is) := step_decoded rfl (decodeOfEncodeIsIdentity i)
    obtain ⟨u, r, hu, -⟩ := exec_answers i (s.issue is)
    obtain ⟨t, ht⟩ := ih u
    rw [issue_of_exec hu] at ht
    exact ⟨t, by rw [List.length_cons, runSteps, hstep, hu]; exact ht⟩

/-- An encoding into a buffer of the size of rule R190 completes. -/
theorem encodeProgram_completes {bits : List (Bool × Byte)} {a b : Word} {s : State}
    (hwf : Memory.wf s.mem = true) (hab : a.toNat ≤ b.toNat)
    (hsize : 4 + (7 * bits.length - 16) / 8 ≤ b.toNat - a.toNat) :
    ∃ t, runSteps (bits.length + 2) (s.issue (encodeProgram a b bits)) = .next t ∧ Encoded a bits s t := by
  obtain ⟨t, ht⟩ := exists_runSteps_issue (encodeProgram a b bits) s
  rw [show (encodeProgram a b bits).length = bits.length + 2 by simp [encodeProgram]] at ht
  refine ⟨t, ht, encoded_of_run hwf ht ?_⟩
  obtain ⟨v, hv, hrest⟩ := runSteps_issue_cons (is := streamProgram bits) ht
  cases hv
  have hlen := length_patchedBits_le bits
  rw [patchedBits] at hlen
  exact Mirrors.run_completes (mirrors_started a b s.mem) (show _ ≤ b.toNat by omega) hrest

end Sys2Proof.Machine
end

section
/-! PROOFS. Decoding the stream gives the bits back: the window is at every moment the bytes loaded less the lower end
of the exact interval, and the whole stream lies inside that interval (rules R162 to R166, R190, R203). -/

namespace Sys2Proof.Machine

/-! ## The number inside the interval -/

/-- The number `n` of `w` bits, as a fraction, lies inside the interval (rules R122, R203). -/
def Interval.Contains (i : Interval) (w n : Nat) : Prop :=
  i.low * 2 ^ w ≤ n * 2 ^ (8 + i.shifts) ∧ n * 2 ^ (8 + i.shifts) < (i.low + i.range) * 2 ^ w

/-- The part of the interval a bit selects, before the renormalization. -/
def Interval.select (bit : Bool) (p : Byte) (i : Interval) : Interval :=
  ⟨selectedLow bit p i, selectedRange bit i.range p.toNat, i.shifts⟩

section
variable {i : Interval} {bit : Bool} {p : Byte} {w n : Nat}

theorem Interval.contains_encode_iff (h : i.Inv) :
    (i.encode (bit, p)).Contains w n ↔ (i.select bit p).Contains w n := by
  obtain ⟨k, hk⟩ := h.exists_shift bit p
  rw [Interval.encode_eq h hk]
  unfold Interval.Contains Interval.select
  dsimp only
  rw [← Nat.add_mul, ← Nat.add_assoc, Nat.pow_add, ← Nat.mul_assoc, Nat.mul_right_comm _ (2 ^ k),
    Nat.mul_right_comm _ (2 ^ k), Nat.mul_le_mul_right_iff (Nat.two_pow_pos k),
    Nat.mul_lt_mul_right (Nat.two_pow_pos k)]

theorem Interval.contains_of_select (h : i.Inv) (hc : (i.select bit p).Contains w n) : i.Contains w n := by
  obtain ⟨hlow, hhigh⟩ := selectedLow_bounds bit p h
  exact ⟨(Nat.mul_le_mul_right _ hlow).trans hc.1, hc.2.trans_le (Nat.mul_le_mul_right _ hhigh)⟩

/-- A number in the final interval is in every one that has led there, since each contains the next. -/
theorem Interval.contains_of_foldl (bits : List (Bool × Byte)) (h : i.Inv)
    (hc : (bits.foldl Interval.encode i).Contains w n) : i.Contains w n := by
  induction bits generalizing i with
  | nil => exact hc
  | cons x bits ih => exact Interval.contains_of_select h ((Interval.contains_encode_iff h).1 (ih (h.encode x) hc))

theorem Interval.shifts_le_encode (i : Interval) (x : Bool × Byte) : i.shifts ≤ (i.encode x).shifts :=
  Nat.le_add_right _ _

theorem foldl_encode_shifts_ge (bits : List (Bool × Byte)) (i : Interval) :
    i.shifts ≤ (bits.foldl Interval.encode i).shifts := by
  induction bits generalizing i with
  | nil => exact le_rfl
  | cons x bits ih => exact (i.shifts_le_encode x).trans (ih (i.encode x))

end

/-- The first bytes of a stream, as a number, against an interval that contains the whole: `z` is the place of the
last bit loaded in the window, and the interval's unit is at bit 24 (rule R162). -/
theorem Interval.Contains.bigEndian_take {i : Interval} {bs : List Byte} {q z : Nat}
    (h : i.Contains (8 * bs.length) (bigEndian bs)) (hq : q ≤ bs.length) (hz : 8 * q + z = 32 + i.shifts)
    (hz' : z ≤ 24) : i.low * 2 ^ 24 ≤ bigEndian (bs.take q) * 2 ^ z ∧
      bigEndian (bs.take q) * 2 ^ z < (i.low + i.range) * 2 ^ 24 := by
  obtain ⟨hlow, hhigh⟩ := h
  have hsplit := bigEndian_append (bs.take q) (bs.drop q)
  have hrest := bigEndian_lt (bs.drop q)
  rw [List.take_append_drop] at hsplit
  rw [List.length_drop] at hsplit hrest
  have hscale : 2 ^ (8 * (bs.length - q)) * 2 ^ (8 + i.shifts) * 2 ^ 24 = 2 ^ z * 2 ^ (8 * bs.length) := by
    rw [← Nat.pow_add, ← Nat.pow_add, ← Nat.pow_add]
    congr 1
    omega
  have hunit : 2 ^ 24 = 2 ^ (24 - z) * 2 ^ z := by
    rw [← Nat.pow_add]
    congr 1
    omega
  rw [hsplit] at hlow hhigh
  generalize bigEndian (bs.take q) = N at *
  generalize bigEndian (bs.drop q) = R at *
  constructor
  · have hlt : i.low * 2 ^ (24 - z) < N + 1 := by
      refine Nat.lt_of_mul_lt_mul_right (a := 2 ^ z * 2 ^ (8 * bs.length)) ?_
      calc i.low * 2 ^ (24 - z) * (2 ^ z * 2 ^ (8 * bs.length))
          = i.low * 2 ^ (8 * bs.length) * 2 ^ 24 := by rw [hunit]; ring
        _ ≤ (N * 2 ^ (8 * (bs.length - q)) + R) * 2 ^ (8 + i.shifts) * 2 ^ 24 := Nat.mul_le_mul_right _ hlow
        _ < (N + 1) * 2 ^ (8 * (bs.length - q)) * 2 ^ (8 + i.shifts) * 2 ^ 24 := by
            refine Nat.mul_lt_mul_of_pos_right (Nat.mul_lt_mul_of_pos_right ?_ (Nat.two_pow_pos _)) (by decide)
            rw [Nat.add_mul, Nat.one_mul]
            omega
        _ = (N + 1) * (2 ^ z * 2 ^ (8 * bs.length)) := by rw [← hscale]; ring
    rw [hunit, ← Nat.mul_assoc]
    exact Nat.mul_le_mul_right _ (Nat.le_of_lt_succ hlt)
  · refine Nat.lt_of_mul_lt_mul_right (a := 2 ^ (8 * bs.length)) ?_
    calc N * 2 ^ z * 2 ^ (8 * bs.length)
        = N * 2 ^ (8 * (bs.length - q)) * 2 ^ (8 + i.shifts) * 2 ^ 24 := by rw [Nat.mul_assoc, ← hscale]; ring
      _ ≤ (N * 2 ^ (8 * (bs.length - q)) + R) * 2 ^ (8 + i.shifts) * 2 ^ 24 :=
          Nat.mul_le_mul_right _ (Nat.mul_le_mul_right _ (Nat.le_add_right ..))
      _ < (i.low + i.range) * 2 ^ (8 * bs.length) * 2 ^ 24 := Nat.mul_lt_mul_of_pos_right hhigh (by decide)
      _ = (i.low + i.range) * 2 ^ 24 * 2 ^ (8 * bs.length) := by ring

/-! ## The decoder follows the interval -/

/-- The decoder has read the first bytes of the stream `bs`, and its window is their number less the lower end of the
interval, both aligned to the window (rule R162). -/
structure Reads (bs : List Byte) (i : Interval) (d : Decoder) : Prop where
  mid : DecMidInv d
  interval : i.Inv
  length : d.inputEnd.toNat = bs.length
  exhausted : d.exhausted = false
  range : d.range.toNat = i.range
  count : 8 * (d.inputCursor.toNat : Int) = 8 + i.shifts + d.bitCount.toInt
  value : d.value.toNat + i.low * 2 ^ 24 =
    bigEndian (bs.take d.inputCursor.toNat) * 2 ^ (24 - d.bitCount.toInt).toNat

/-- The input buffer of the decoder holds these bytes. -/
def InputHolds (m : Memory) (d : Decoder) (bs : List Byte) : Prop :=
  ∀ (q : Nat) (hq : q < bs.length), readMem m ((d.inputBase.toNat + q) % 2 ^ 32) = bs[q]

section
variable {bs : List Byte} {i : Interval} {d : Decoder} {m : Memory} {bit : Bool} {p : Byte} {k : Nat}

theorem InputHolds.of_base {d' : Decoder} (h : InputHolds m d bs) (hb : d'.inputBase = d.inputBase) :
    InputHolds m d' bs := by
  rw [InputHolds, hb]
  exact h

theorem withWindow_inputBase (d : Decoder) (r : Byte) (v : Word) (c : BitVec 5) :
    (d.withWindow r v c).inputBase = d.inputBase := rfl

theorem decodedContext_inputBase (p : Byte) (k : Nat) (d : Decoder) :
    (decodedContext p k d).inputBase = d.inputBase := withWindow_inputBase ..

theorem inputTaken_of_lt (h : d.inputCursor.toNat < d.inputEnd.toNat) :
    inputTaken d = { d with inputCursor := d.inputCursor + 1 } := if_pos h

theorem bigEndian_take_succ {q : Nat} (hq : q < bs.length) :
    bigEndian (bs.take (q + 1)) = bigEndian (bs.take q) * 256 + bs[q].toNat := by
  rw [List.take_succ_eq_append_getElem hq, bigEndian_concat]

/-- A byte placed directly below the valid bits is added to the window (rule R165). -/
theorem toNat_or_placeByte (b : Byte) (hge : -8 ≤ d.bitCount.toInt) (hdue : d.bitCount.toInt < 0)
    (hv : 2 ^ (24 - d.bitCount.toInt).toNat ∣ d.value.toNat) :
    (d.value ||| placeByte d b).toNat = d.value.toNat + b.toNat * 2 ^ (16 - d.bitCount.toInt).toNat := by
  have hb := b.isLt
  have hexp : (24 - d.bitCount.toInt).toNat = 8 + (16 - d.bitCount.toInt).toNat := by omega
  have hle : 2 ^ (16 - d.bitCount.toInt).toNat ≤ 2 ^ 24 := Nat.pow_le_pow_right (by decide) (by omega)
  have hbyte : b.toNat * 2 ^ (16 - d.bitCount.toInt).toNat < 2 ^ (24 - d.bitCount.toInt).toNat := by
    rw [hexp, Nat.pow_add]
    exact Nat.mul_lt_mul_of_pos_right hb (Nat.two_pow_pos _)
  have hsmall : b.toNat * 2 ^ (16 - d.bitCount.toInt).toNat < 2 ^ 32 :=
    hbyte.trans_le (Nat.pow_le_pow_right (by decide) (by omega))
  obtain ⟨v, hv⟩ := hv
  rw [BitVec.toNat_or, placeByte_eq, BitVec.toNat_ofNat, Nat.mod_eq_of_lt hsmall, hv,
    Nat.two_pow_add_eq_or_of_lt hbyte]

/-- A `REFILL` with a byte left takes it. -/
theorem Reads.refill (h : Reads bs i d) (hm : InputHolds m d bs)
    (hleft : d.bitCount.toInt < 0 → d.inputCursor.toNat < bs.length) : Reads bs i (refill m d) := by
  by_cases hdue : d.bitCount.toInt < 0
  · have hge := h.mid.count_ge
    have hq := hleft hdue
    have hlt : d.inputCursor.toNat < d.inputEnd.toNat := h.length ▸ hq
    have hbyte : inputByte m d = bs[d.inputCursor.toNat] := (if_pos hlt).trans (hm _ hq)
    have hcount : (d.bitCount + 8).toInt = d.bitCount.toInt + 8 := decCount_add (by omega)
    have hcursor := toNat_inputCursor_succ hlt
    have hexp : (24 - (d.bitCount.toInt + 8)).toNat = (16 - d.bitCount.toInt).toNat := by omega
    have hexp' : (24 - d.bitCount.toInt).toNat = 8 + (16 - d.bitCount.toInt).toNat := by omega
    have hmid := h.mid.refill m
    rw [refill_due hdue, inputTaken_of_lt hlt, hbyte] at hmid ⊢
    refine ⟨hmid, h.interval, h.length, h.exhausted, h.range, ?_, ?_⟩
    · dsimp only
      rw [hcount, hcursor]
      have := h.count
      omega
    · dsimp only
      rw [toNat_or_placeByte _ hge hdue h.mid.value_aligned, hcount, hexp, hcursor, bigEndian_take_succ hq,
        Nat.add_right_comm, h.value, hexp', Nat.pow_add]
      ring
  · rwa [refill_loaded (by omega)]

/-- Before the end of the stream there is a byte left wherever a `REFILL` is due. -/
theorem Reads.refill_before_end (h : Reads bs i d) (hm : InputHolds m d bs) (hlong : 8 + i.shifts < 8 * bs.length) :
    Reads bs i (Machine.refill m d) := h.refill hm (by have := h.count; omega)

/-- With 8 valid bits loaded, the window against the part that contains the stream (rule R163). -/
theorem Reads.selected (h : Reads bs i d) (hc : 0 ≤ d.bitCount.toInt)
    (hx : (i.select bit p).Contains (8 * bs.length) (bigEndian bs)) :
    selectedLow bit p i * 2 ^ 24 ≤ d.value.toNat + i.low * 2 ^ 24 ∧
      d.value.toNat + i.low * 2 ^ 24 < (selectedLow bit p i + selectedRange bit i.range p.toNat) * 2 ^ 24 := by
  have hcount := h.count
  have hle := h.mid.cursor_le
  rw [BitVec.le_def, h.length] at hle
  rw [h.value]
  have hfew := h.mid.count_le
  have hplace : 8 * d.inputCursor.toNat + (24 - d.bitCount.toInt).toNat = 32 + i.shifts := by omega
  exact hx.bigEndian_take hle hplace (by omega)

/-- So the bit decoded is the one whose part contains it. -/
theorem Reads.decodedBit (h : Reads bs i d) (hc : 0 ≤ d.bitCount.toInt)
    (hx : (i.select bit p).Contains (8 * bs.length) (bigEndian bs)) : decodedBit p d = bit := by
  obtain ⟨hlow, hhigh⟩ := h.selected hc hx
  rw [Machine.decodedBit, h.range]
  cases bit with
  | true =>
    rw [selectedLow_true, Nat.add_comm, Nat.add_mul] at hlow
    exact decide_eq_true (Nat.le_of_add_le_add_right hlow)
  | false =>
    rw [selectedLow_false, selectedRange_false] at hhigh
    exact decide_eq_false (by omega)

/-- The window after the subtraction and the shift, no bit of it lost (rules R162, R163). -/
theorem Reads.decodedValue (h : Reads bs i d) (hc : 0 ≤ d.bitCount.toInt)
    (hx : (i.select bit p).Contains (8 * bs.length) (bigEndian bs))
    (hk : Normalizes (selectedRange bit i.range p.toNat) k) :
    (decodedValue p k d).toNat + selectedLow bit p i * 2 ^ k * 2 ^ 24 = (d.value.toNat + i.low * 2 ^ 24) * 2 ^ k := by
  obtain ⟨hlow, hhigh⟩ := h.selected hc hx
  have hbit := h.decodedBit hc hx
  obtain ⟨v, hv, hsum⟩ : ∃ v, (if bit then d.value.toNat - exactSplit d.range.toNat p.toNat * 2 ^ 24
      else d.value.toNat) = v ∧ v + selectedLow bit p i * 2 ^ 24 = d.value.toNat + i.low * 2 ^ 24 := by
    refine ⟨_, rfl, ?_⟩
    rw [h.range]
    cases bit with
    | true =>
      rw [selectedLow_true] at hlow ⊢
      rw [if_pos rfl]
      omega
    | false => rfl
  have hlt : v * 2 ^ k < 2 ^ 32 := by
    have hv' : v < selectedRange bit i.range p.toNat * 2 ^ 24 := by omega
    have hscaled := Nat.mul_lt_mul_of_pos_right hv' (Nat.two_pow_pos k)
    rw [Nat.mul_right_comm] at hscaled
    have := hk.2
    omega
  rw [Machine.decodedValue, hbit, hv, BitVec.toNat_ofNat, Nat.mod_eq_of_lt hlt, ← hsum]
  ring

/-- Another range, window and count, at another interval. -/
theorem Reads.withWindow {i' : Interval} {r : Byte} {v : Word} {c : BitVec 5} (h : Reads bs i d)
    (hmid : DecMidInv (d.withWindow r v c)) (hinv : i'.Inv) (hr : r.toNat = i'.range)
    (hc : 8 * (d.inputCursor.toNat : Int) = 8 + i'.shifts + c.toInt)
    (hv : v.toNat + i'.low * 2 ^ 24 = bigEndian (bs.take d.inputCursor.toNat) * 2 ^ (24 - c.toInt).toNat) :
    Reads bs i' (d.withWindow r v c) := ⟨hmid, hinv, h.length, h.exhausted, hr, hc, hv⟩

theorem Reads.decodedContext (h : Reads bs i d) (hc : 0 ≤ d.bitCount.toInt)
    (hx : (i.select bit p).Contains (8 * bs.length) (bigEndian bs))
    (hk : Normalizes (selectedRange bit i.range p.toNat) k) :
    Reads bs (i.encode (bit, p)) (decodedContext p k d) := by
  have hbit := h.decodedBit hc hx
  have hkd : Normalizes (selectedRange (Machine.decodedBit p d) d.range.toNat p.toNat) k := by
    rw [hbit, h.range]
    exact hk
  have hcount := toInt_shiftedCount hc hk.le
  have hmid := h.mid.decodedContext hc hkd
  have hrange := toNat_decodedRange hkd
  have hvalue := h.decodedValue hc hx hk
  have hle := h.mid.count_le
  have hexp : (24 - (d.bitCount.toInt - k)).toNat = (24 - d.bitCount.toInt).toNat + k := by omega
  have hinv := h.interval.encode (bit, p)
  rw [hbit, h.range] at hrange
  rw [Interval.encode_eq h.interval hk] at hinv ⊢
  refine h.withWindow hmid hinv hrange ?_ ?_
  · have := h.count
    rw [hcount]
    push_cast
    omega
  · rw [hcount, hexp, Nat.pow_add, ← Nat.mul_assoc, ← h.value]
    exact hvalue

/-- `DECODE_BOOL` decodes the bit whose part contains the stream, and goes on to its interval (rule R163). -/
theorem Reads.decodeBit (h : Reads bs i d) (hm : InputHolds m d bs)
    (hx : (i.encode (bit, p)).Contains (8 * bs.length) (bigEndian bs))
    (hlong : 8 + (i.encode (bit, p)).shifts < 8 * bs.length) :
    (decodeBit m p d).1 = bit ∧ Reads bs (i.encode (bit, p)) (decodeBit m p d).2 := by
  have hshifts := i.shifts_le_encode (bit, p)
  have hloaded := h.refill_before_end hm ((Nat.add_le_add_left hshifts 8).trans_lt hlong)
  have hc := refill_count_nonneg m h.mid.count_ge
  have hx' := (Interval.contains_encode_iff h.interval).1 hx
  have hbit := hloaded.decodedBit hc hx'
  obtain ⟨k, hk⟩ := h.interval.exists_shift bit p
  have hctx := hloaded.decodedContext hc hx' hk
  have hm' : InputHolds m (Machine.decodedContext p k (Machine.refill m d)) bs :=
    hm.of_base ((decodedContext_inputBase p k _).trans (refill_keeps m d).2.2.1)
  rw [← decodeBit_refill m p h.mid.count_ge, decodeBit_loaded m (by have := hloaded.mid.range_ge; omega) hc
    (by rw [hbit, hloaded.range]; exact hk)]
  dsimp only
  exact ⟨hbit, hctx.refill_before_end hm' hlong⟩

end

/-! ## A whole decoding -/

theorem reads_startedDecoder {bs : List Byte} {a n : Word} (hn : n.toNat = bs.length) :
    Reads bs Interval.initial (startedDecoder a n) :=
  ⟨(decInv_startedDecoder a n).mid, Interval.inv_initial, hn, rfl, rfl, rfl, by
    simp [startedDecoder, Interval.initial]⟩

theorem exec_decodeBool_fields {p : Byte} {s u : State} {bit : Bool} {d : Decoder} (hp : s.dec.phase = .active)
    (hd : decodeBit s.mem p s.dec = (bit, d)) (hx : d.exhausted = false) (h : exec (.decodeBool p) s = .next u) :
    u.dec = d ∧ u.mem = s.mem ∧ u.responses = s.responses ++ [⟨.ok, false, if bit then 1 else 0⟩] := by
  cases (exec_decodeBool_next hp hd hx).symm.trans h
  exact ⟨rfl, rfl, rfl⟩

/-- The rest of a decoding, from any moment on, answers the rest of the bits. -/
theorem Reads.run {bs : List Byte} {i : Interval} {bits : List (Bool × Byte)} {s v : State}
    (h : Reads bs i s.dec) (hp : s.dec.phase = .active) (hm : InputHolds s.mem s.dec bs)
    (hx : (bits.foldl Interval.encode i).Contains (8 * bs.length) (bigEndian bs))
    (hlong : 8 + (bits.foldl Interval.encode i).shifts < 8 * bs.length)
    (hv : runSteps bits.length (s.issue (bits.map fun x => .decodeBool x.2)) = .next v) :
    v.responses = s.responses ++ bits.map fun x => ⟨.ok, false, if x.1 then 1 else 0⟩ := by
  induction bits generalizing i s with
  | nil =>
    cases hv
    exact (List.append_nil _).symm
  | cons x bits ih =>
    obtain ⟨bit, p⟩ := x
    obtain ⟨u, hu, hrest⟩ := runSteps_issue_cons hv
    rw [List.foldl_cons] at hx hlong
    have hnext := h.interval.encode (bit, p)
    obtain ⟨hbit, hreads⟩ := h.decodeBit hm (Interval.contains_of_foldl bits hnext hx)
      (by have := foldl_encode_shifts_ge bits (i.encode (bit, p)); omega)
    obtain ⟨hphase, hbase, -, -⟩ := decodeBit_keeps s.mem p s.dec
    have hpair : Machine.decodeBit s.mem p s.dec = (bit, (Machine.decodeBit s.mem p s.dec).2) := by rw [← hbit]
    obtain ⟨hdec, hmem, hresp⟩ := exec_decodeBool_fields (s := s.issue (bits.map fun x => .decodeBool x.2)) hp hpair
      hreads.exhausted hu
    rw [← hdec] at hreads hphase hbase
    rw [ih hreads (hphase.trans hp) (hmem ▸ hm.of_base hbase) hx hlong hrest, hresp, List.append_assoc]
    rfl

/-- The final interval contains the number it makes its stream (rule R205). -/
theorem Interval.contains_low {i : Interval} {pos w : Nat} (h : i.Inv) (hw : w = 8 + i.shifts + pos) :
    i.Contains w (i.low * 2 ^ pos) := by
  have hr := h.range_ge
  have heq : i.low * 2 ^ pos * 2 ^ (8 + i.shifts) = i.low * 2 ^ w := by
    rw [hw, Nat.mul_assoc, ← Nat.pow_add, Nat.add_comm pos]
  rw [Interval.Contains, heq]
  exact ⟨le_rfl, Nat.mul_lt_mul_of_pos_right (by omega) (Nat.two_pow_pos _)⟩

theorem readMem_of_bytesAt {m : Memory} {a : Nat} {bs : List Byte} (h : bytesAt m a bs.length = bs) {q : Nat}
    (hq : q < bs.length) : readMem m (a + q) = bs[q] := by
  induction bs generalizing a q with
  | nil => exact absurd hq (Nat.not_lt_zero q)
  | cons b bs ih =>
    obtain ⟨hb, hbs⟩ := List.cons.inj h
    cases q with
    | zero => exact hb
    | succ q =>
      rw [← Nat.add_assoc, Nat.add_right_comm]
      exact ih hbs (Nat.lt_of_succ_lt_succ hq)

/-- The stream of a sequence of bits, wherever memory holds it, decodes to them (rule R190). -/
theorem decodeProgram_answers {bits : List (Bool × Byte)} {a n : Word} {u : State}
    (hn : n.toNat = (patchStream bits).length) (hfit : a.toNat + n.toNat ≤ 2 ^ 32)
    (hbytes : bytesAt u.mem a.toNat n.toNat = patchStream bits) :
    ∃ v, runSteps (bits.length + 1) (u.issue (decodeProgram a n (bits.map Prod.snd))) = .next v ∧
      v.responses = u.responses ++ ⟨.ok, false, 0⟩ :: bits.map fun x => ⟨.ok, false, if x.1 then 1 else 0⟩ := by
  obtain ⟨v, hv⟩ := exists_runSteps_issue (decodeProgram a n (bits.map Prod.snd)) u
  rw [show (decodeProgram a n (bits.map Prod.snd)).length = bits.length + 1 by simp [decodeProgram]] at hv
  refine ⟨v, hv, ?_⟩
  have hfollows := follows_patchedBits bits
  have hcount := hfollows.count
  have hpos := hfollows.inv.encPos_bounds
  have hlen := length_patchStream bits
  have hnumber : bigEndian (patchStream bits) = (finalInterval bits).low * 2 ^ encPos (patchedBits bits).1 :=
    hfollows.bigEndian_stream
  have hx : (finalInterval bits).Contains (8 * (patchStream bits).length) (bigEndian (patchStream bits)) := by
    rw [hnumber]
    exact Interval.contains_low hfollows.interval (by omega)
  have hlong : 8 + (finalInterval bits).shifts < 8 * (patchStream bits).length := by omega
  have hholds : InputHolds u.mem (startedDecoder a n) (patchStream bits) := fun q hq => by
    rw [show (startedDecoder a n).inputBase = a from rfl, Nat.mod_eq_of_lt (by omega)]
    exact readMem_of_bytesAt (hn ▸ hbytes) hq
  obtain ⟨w, hw, hrest⟩ := runSteps_issue_cons hv
  cases hw
  rw [List.map_map] at hrest
  exact (Reads.run (bits := bits) (reads_startedDecoder hn) rfl hholds hx hlong hrest).trans
    (List.append_assoc ..)

/-- Settles O45: the encoding completes, and its stream decodes to the bits wherever memory holds it. -/
theorem decodingReproducesTheEncodedBits : Obligations.DecodingReproducesTheEncodedBits := by
  intro bits a b s hwf hab hsize
  obtain ⟨t, ht, hcur, hbytes, -, hresp⟩ := encodeProgram_completes hwf hab hsize
  have hlen := length_patchStream bits
  have hle := length_patchedBits_le bits
  have hb := b.isLt
  have hn : (BitVec.ofNat 32 (patchStream bits).length).toNat = (patchStream bits).length :=
    (BitVec.toNat_ofNat ..).trans (Nat.mod_eq_of_lt (by omega))
  have hend : t.enc.outputCursor = a + BitVec.ofNat 32 (patchStream bits).length := by
    apply BitVec.eq_of_toNat_eq
    rw [BitVec.toNat_add, hn, hcur, Nat.mod_eq_of_lt (by omega)]
  refine ⟨t, BitVec.ofNat 32 (patchStream bits).length, ht, hend ▸ hresp, by omega, fun u hu => ?_⟩
  exact decodeProgram_answers hn (by omega) (hu.trans (by rw [hn]; exact hbytes))

end Sys2Proof.Machine
end

section
/-! PROOFS. Commands with no effect, an idle block, and the sticky fault (rules R85, R221, R224, R225, R230, R234). -/

namespace Sys2Proof

theorem decode_reserved {w : CommandWord} (h : 6 ≤ (opField w).toNat) :
    decode w = .error (.reservedOp (opField w)) := by
  unfold decode
  split
  case h_7 => rfl
  all_goals omega

/-- The decoder refuses the two reserved values of `op` and no other (rule R85). -/
theorem exists_decode_ok_iff {w : CommandWord} : (∃ i, decode w = .ok i) ↔ (opField w).toNat < 6 := by
  constructor
  · rintro ⟨i, hi⟩
    rw [← Nat.not_le]
    intro hop
    cases (decode_reserved hop).symm.trans hi
  · intro hop
    unfold decode
    interval_cases (opField w).toNat <;> exact ⟨_, rfl⟩

end Sys2Proof

namespace Sys2Proof.Machine

/-- Settles O5, with `op` as the upper digit of the word. -/
theorem reservedOpcodesAreAnsweredIllegalOp : Obligations.ReservedOpcodesAreAnsweredIllegalOp := by
  intro w s
  rw [← toNat_opField, exists_decode_ok_iff]
  exact ⟨Iff.rfl, fun hop => runCommand_reserved s (decode_reserved hop)⟩

/-- Settles O9: the step looks at the script first. -/
theorem idleBlockKeepsItsState : Obligations.IdleBlockKeepsItsState := by
  intro s hs
  rw [step, hs]

/-! ## The commands that write bytes, outside `ACTIVE` -/

theorem exec_writing_refused {i : Instr} {s : State} (hi : WritesBytes i)
    (hp : s.enc.phase = .idle ∨ s.enc.phase = .done) : exec i s = refuseCommand .sequenceError s := by
  obtain rfl | ⟨bit, p, rfl⟩ := hi
  · exact whenEncActive_refused hp
  · exact whenEncActive_refused hp

theorem exec_writing_fault {i : Instr} {s : State} (hi : WritesBytes i) (hp : s.enc.phase = .fault) :
    exec i s = stickyOverflow s := by
  obtain rfl | ⟨bit, p, rfl⟩ := hi
  · exact whenEncActive_fault hp
  · exact whenEncActive_fault hp

/-- Settles O30: step 0 of each of the three commands. -/
theorem outOfSequenceCommandsAreRefused : Obligations.OutOfSequenceCommandsAreRefused := fun _ =>
  ⟨fun hp bit p => ⟨exec_writing_refused (.inr ⟨bit, p, rfl⟩) hp, exec_writing_refused (.inl rfl) hp⟩,
    fun hp p => exec_decodeBool_idle p hp⟩

/-! ## What leaves `FAULT` -/

theorem exec_leaves_fault {i : Instr} {s t : State} (hp : s.enc.phase = .fault) (h : exec i s = .next t)
    (ht : t.enc.phase ≠ .fault) : ∃ a b, i = .startEncode a b := by
  have hwriting (hi : WritesBytes i) : False := by
    obtain ⟨r, rfl⟩ := exec_writing_inactive hi (by rw [hp]; decide) h
    exact ht hp
  have hother (hi : forEncoder i = false) : False := by
    obtain ⟨d, r, rfl, -⟩ := exec_other_eq hi h
    exact ht hp
  cases i with
  | startEncode a b => exact ⟨a, b, rfl⟩
  | encodeBool bit p => exact (hwriting (.inr ⟨bit, p, rfl⟩)).elim
  | stopEncode => exact (hwriting (.inl rfl)).elim
  | startDecode a n => exact (hother rfl).elim
  | decodeBool p => exact (hother rfl).elim
  | norm r => exact (hother rfl).elim

theorem runCommand_leaves_fault {w : CommandWord} {s t : State} (hp : s.enc.phase = .fault)
    (h : runCommand w s = .next t) (ht : t.enc.phase ≠ .fault) : ∃ a b, decode w = .ok (.startEncode a b) := by
  cases hw : decode w with
  | ok i =>
    rw [runCommand_decoded s hw] at h
    obtain ⟨a, b, rfl⟩ := exec_leaves_fault hp h ht
    exact ⟨a, b, rfl⟩
  | error e =>
    rw [runCommand_reserved s hw] at h
    rw [respond_next_eq h] at ht
    exact absurd hp ht

/-- Settles O31: the sticky answer, and the action of the outside world that leads out of the fault. -/
theorem faultPhaseIsSticky : Obligations.FaultPhaseIsSticky := by
  refine ⟨fun bit p s hp => ⟨exec_writing_fault (.inr ⟨bit, p, rfl⟩) hp, exec_writing_fault (.inl rfl) hp⟩,
    fun s t hp h ht => ?_⟩
  obtain ⟨-, rfl⟩ | ⟨w, rest, hs, hr⟩ | ⟨a, rest, -, rfl⟩ | ⟨rest, hs, -⟩ | ⟨w, k, rest, -, hs, -, -⟩ |
    ⟨w, a, rest, u, hs, hr, -, rfl⟩ := step_next_cases h
  · exact absurd hp ht
  · obtain ⟨b, e, hw⟩ := runCommand_leaves_fault (s := s.withHost rest) hp hr ht
    exact .inr (.inr ⟨w, b, e, rest, hw, .inl hs⟩)
  · rw [hostAccess_enc] at ht
    exact absurd hp ht
  · exact .inl ⟨rest, hs⟩
  · exact .inr (.inl ⟨w, k, rest, hs⟩)
  · rw [hostAccess_enc] at ht
    obtain ⟨b, e, hw⟩ := runCommand_leaves_fault (s := s.withHost rest) hp hr ht
    exact .inr (.inr ⟨w, b, e, rest, hw, .inr ⟨a, hs⟩⟩)

end Sys2Proof.Machine
end

section
/-! PROOFS. The status every command is answered with, and the two phases it leaves behind (rules R228, R233). -/

namespace Sys2Proof.Machine

/-! ## How a command ends -/

/-- The command ends in an answer of this status, with the contexts in these phases. -/
def Ends (o : Host.Outcome State Fault Refusal) (status : Status) (enc : EncPhase) (dec : DecPhase) : Prop :=
  ∃ data u, o = respond status data u ∧ u.enc.phase = enc ∧ u.dec.phase = dec

theorem ends_respond (status : Status) (data : Word) (u : State) :
    Ends (respond status data u) status u.enc.phase u.dec.phase := ⟨data, u, rfl, rfl, rfl⟩

/-- The last response of the next state is that answer. -/
theorem Ends.of_next {o : Host.Outcome State Fault Refusal} {status : Status} {enc : EncPhase} {dec : DecPhase}
    {t : State} {rs : List Response} {r : Response} (h : Ends o status enc dec) (ho : o = .next t)
    (hr : t.responses = rs ++ [r]) : r.status = status ∧ t.enc.phase = enc ∧ t.dec.phase = dec := by
  obtain ⟨data, u, rfl, henc, hdec⟩ := h
  rw [respond_next_eq ho] at hr ⊢
  obtain ⟨-, hlast⟩ := List.append_inj' hr rfl
  cases hlast
  exact ⟨rfl, henc, hdec⟩

/-! ## Every command, by the phase of the context it addresses -/

theorem exec_startEncode_ends (a b : Word) (s : State) :
    Ends (exec (.startEncode a b) s) .ok .active s.dec.phase := ⟨_, _, rfl, rfl, rfl⟩

theorem exec_startDecode_ends (a n : Word) (s : State) :
    Ends (exec (.startDecode a n) s) .ok s.enc.phase .active := ⟨_, _, rfl, rfl, rfl⟩

section
variable {i : Instr} {s : State}

theorem exec_writing_refused_ends (hi : WritesBytes i) (hp : s.enc.phase = .idle ∨ s.enc.phase = .done) :
    Ends (exec i s) .sequenceError s.enc.phase s.dec.phase := by
  rw [exec_writing_refused hi hp]
  exact ends_respond ..

theorem exec_writing_fault_ends (hi : WritesBytes i) (hp : s.enc.phase = .fault) :
    Ends (exec i s) .bufferOverflow .fault s.dec.phase := by
  rw [exec_writing_fault hi hp, ← hp]
  exact ends_respond ..

/-- A procedure returns to the rest of its command, or the fault it has raised is taken (rule R136). -/
theorem Wrote.finish_ends {x : Emit} {f : State → Host.Outcome State Fault Refusal} {finished : EncPhase}
    (h : Wrote s x.final) (hf : ∀ u, Wrote s u → Ends (f u) .ok finished s.dec.phase) :
    Ends (x.finish f) .ok finished s.dec.phase ∨ Ends (x.finish f) .bufferOverflow .fault s.dec.phase := by
  cases x with
  | ok u => exact .inl (hf u h)
  | overflow u => exact .inr ⟨_, enterFault u, rfl, rfl, congrArg Decoder.phase h.dec⟩

theorem exec_encodeBool_active_ends (bit : Bool) (p : Byte) (hp : s.enc.phase = .active) :
    Ends (exec (.encodeBool bit p) s) .ok .active s.dec.phase ∨
    Ends (exec (.encodeBool bit p) s) .bufferOverflow .fault s.dec.phase := by
  have hinterval : Wrote s (s.withEnc (encodeInterval bit p s.enc)) := wrote_withEnc (by simp) (by simp) (by simp)
  rw [exec_encodeBool_active hp]
  exact (hinterval.trans (wrote_emitDueByte _)).finish_ends fun u hu =>
    ⟨_, u, rfl, hu.phase.trans hp, congrArg Decoder.phase hu.dec⟩

theorem exec_stopEncode_active_ends (hp : s.enc.phase = .active) :
    Ends (exec .stopEncode s) .ok .done s.dec.phase ∨
    Ends (exec .stopEncode s) .bufferOverflow .fault s.dec.phase := by
  rw [exec_stopEncode_active hp]
  exact (wrote_stop s).finish_ends fun _ hu => ⟨_, _, rfl, rfl, congrArg Decoder.phase hu.dec⟩

theorem exec_decodeBool_idle_ends (p : Byte) (hp : s.dec.phase = .idle) :
    Ends (exec (.decodeBool p) s) .sequenceError s.enc.phase .idle := by
  rw [exec_decodeBool_idle p hp, ← hp]
  exact ends_respond ..

theorem exec_decodeBool_active_ends (p : Byte) (hp : s.dec.phase = .active) :
    Ends (exec (.decodeBool p) s) .ok s.enc.phase .active := by
  rw [exec_decodeBool_active p hp]
  exact ⟨_, s.withDec (decodeBit s.mem p s.dec).2, rfl, rfl, (decodeBit_keeps s.mem p s.dec).1.trans hp⟩

end

theorem exec_norm_zero_ends (s : State) :
    Ends (exec (.norm 0) s) .illegalOperand s.enc.phase s.dec.phase := ends_respond ..

theorem exec_norm_ends {r : Byte} (hr : r ≠ 0) (s : State) :
    Ends (exec (.norm r) s) .ok s.enc.phase s.dec.phase := by
  rw [exec_norm_of_ne_zero hr]
  exact ends_respond ..

theorem runCommand_reserved_ends {w : CommandWord} {e : DecodeError} (s : State) (h : decode w = .error e) :
    Ends (runCommand w s) .illegalOp s.enc.phase s.dec.phase := by
  rw [runCommand_reserved s h]
  exact ends_respond ..

/-! ## The table of phases (rule R233) -/

/-- One row of the table for the commands that write bytes: from phase `before` such a command answers `status` and is
then in `after`, `finished` being the phase of a command that completes. -/
def WritingRow (finished before : EncPhase) (status : Status) (after : EncPhase) : Prop :=
  match before with
  | .idle => status = .sequenceError ∧ after = .idle
  | .active => (status = .ok ∧ after = finished) ∨ (status = .bufferOverflow ∧ after = .fault)
  | .done => status = .sequenceError ∧ after = .done
  | .fault => status = .bufferOverflow ∧ after = .fault

section
variable {s t : State} {rs : List Response} {r : Response}

theorem exec_writing_row {i : Instr} {finished : EncPhase} (hi : WritesBytes i)
    (hactive : s.enc.phase = .active → Ends (exec i s) .ok finished s.dec.phase ∨
      Ends (exec i s) .bufferOverflow .fault s.dec.phase)
    (h : exec i s = .next t) (hr : t.responses = rs ++ [r]) :
    t.dec.phase = s.dec.phase ∧ WritingRow finished s.enc.phase r.status t.enc.phase := by
  cases hp : s.enc.phase with
  | idle =>
    obtain ⟨hst, he, hd⟩ := (exec_writing_refused_ends hi (.inl hp)).of_next h hr
    exact ⟨hd, hst, he.trans hp⟩
  | active =>
    obtain hends | hends := hactive hp
    · obtain ⟨hst, he, hd⟩ := hends.of_next h hr
      exact ⟨hd, .inl ⟨hst, he⟩⟩
    · obtain ⟨hst, he, hd⟩ := hends.of_next h hr
      exact ⟨hd, .inr ⟨hst, he⟩⟩
  | done =>
    obtain ⟨hst, he, hd⟩ := (exec_writing_refused_ends hi (.inr hp)).of_next h hr
    exact ⟨hd, hst, he.trans hp⟩
  | fault =>
    obtain ⟨hst, he, hd⟩ := (exec_writing_fault_ends hi hp).of_next h hr
    exact ⟨hd, hst, he⟩

theorem exec_norm_phases {x : Byte} (h : exec (.norm x) s = .next t) (hr : t.responses = rs ++ [r]) :
    t.enc.phase = s.enc.phase ∧ t.dec.phase = s.dec.phase := by
  by_cases hx : x = 0
  · rw [hx] at h
    exact ((exec_norm_zero_ends s).of_next h hr).2
  · exact ((exec_norm_ends hx s).of_next h hr).2

end

/-- Settles O32, by the command the word decodes to and the phase of the context it addresses. -/
theorem phaseTransitions : Obligations.PhaseTransitions := by
  refine ⟨fun w s => ?_, fun s => ⟨rfl, rfl⟩⟩
  obtain ⟨t, r, h, hanswer⟩ := runCommand_answers w s
  have hr := hanswer.responses
  refine ⟨t, r, h, hr, ?_⟩
  cases hw : decode w with
  | error e => exact ((runCommand_reserved_ends s hw).of_next h hr).2
  | ok i =>
    rw [runCommand_decoded s hw] at h
    cases i with
    | startEncode a b => exact (exec_startEncode_ends a b s).of_next h hr
    | encodeBool bit p =>
      exact exec_writing_row (.inr ⟨bit, p, rfl⟩) (exec_encodeBool_active_ends bit p) h hr
    | stopEncode => exact exec_writing_row (.inl rfl) exec_stopEncode_active_ends h hr
    | startDecode a n =>
      obtain ⟨hst, he, hd⟩ := (exec_startDecode_ends a n s).of_next h hr
      exact ⟨hst, hd, he⟩
    | decodeBool p =>
      cases hp : s.dec.phase with
      | idle =>
        obtain ⟨hst, he, hd⟩ := (exec_decodeBool_idle_ends p hp).of_next h hr
        exact ⟨he, hst, hd⟩
      | active =>
        obtain ⟨hst, he, hd⟩ := (exec_decodeBool_active_ends p hp).of_next h hr
        exact ⟨he, hst, hd⟩
    | norm x => exact exec_norm_phases h hr

/-! ## The order of the checks (rule R228) -/

theorem exec_writing_active_status {i : Instr} {s t : State} {rs : List Response} {r : Response}
    (hi : WritesBytes i) (hp : s.enc.phase = .active) (h : exec i s = .next t) (hr : t.responses = rs ++ [r]) :
    r.status = .ok ∨ r.status = .bufferOverflow := by
  have hends : (∃ finished, Ends (exec i s) .ok finished s.dec.phase) ∨
      Ends (exec i s) .bufferOverflow .fault s.dec.phase := by
    obtain rfl | ⟨bit, p, rfl⟩ := hi
    · exact (exec_stopEncode_active_ends hp).imp_left fun hok => ⟨_, hok⟩
    · exact (exec_encodeBool_active_ends bit p hp).imp_left fun hok => ⟨_, hok⟩
  obtain ⟨finished, hok⟩ | hov := hends
  · exact .inl (hok.of_next h hr).1
  · exact .inr (hov.of_next h hr).1

/-- A command that writes no bytes and meets none of the checks is answered `OK`. -/
theorem exec_other_status_ok {i : Instr} {s t : State} {rs : List Response} {r : Response} (hi : ¬ WritesBytes i)
    (hdec : ¬ ((∃ p, i = .decodeBool p) ∧ s.dec.phase ≠ .active)) (hnorm : i ≠ .norm 0)
    (h : exec i s = .next t) (hr : t.responses = rs ++ [r]) : r.status = .ok := by
  cases i with
  | startEncode a b => exact ((exec_startEncode_ends a b s).of_next h hr).1
  | encodeBool bit p => exact absurd (.inr ⟨bit, p, rfl⟩) hi
  | stopEncode => exact absurd (.inl rfl) hi
  | startDecode a n => exact ((exec_startDecode_ends a n s).of_next h hr).1
  | decodeBool p =>
    have hp : s.dec.phase = .active := by
      by_contra hne
      exact hdec ⟨⟨p, rfl⟩, hne⟩
    exact ((exec_decodeBool_active_ends p hp).of_next h hr).1
  | norm x => exact ((exec_norm_ends (fun hx => hnorm (congrArg Instr.norm hx)) s).of_next h hr).1

/-- Settles O33, by the checks in the order in which they are made. -/
theorem firstApplicableCheckDecidesTheStatus : Obligations.FirstApplicableCheckDecidesTheStatus := by
  intro w s t h
  obtain ⟨u, r, hu, hanswer⟩ := runCommand_answers w s
  cases h.symm.trans hu
  have hr := hanswer.responses
  refine ⟨r, hr, ?_⟩
  cases hw : decode w with
  | error e => exact ((runCommand_reserved_ends s hw).of_next h hr).1
  | ok i =>
    rw [runCommand_decoded s hw] at h
    dsimp only
    split_ifs with hfault hinactive hdec hnorm hi
    · exact ((exec_writing_fault_ends hfault.1 hfault.2).of_next h hr).1
    · obtain ⟨hi, hp⟩ := hinactive
      refine ((exec_writing_refused_ends hi ?_).of_next h hr).1
      cases hq : s.enc.phase with
      | idle => exact .inl rfl
      | active => exact absurd hq hp
      | done => exact .inr rfl
      | fault => exact absurd ⟨hi, hq⟩ hfault
    · obtain ⟨⟨p, rfl⟩, hp⟩ := hdec
      refine ((exec_decodeBool_idle_ends p ?_).of_next h hr).1
      cases hq : s.dec.phase with
      | idle => rfl
      | active => exact absurd hq hp
    · subst hnorm
      exact ((exec_norm_zero_ends s).of_next h hr).1
    · refine exec_writing_active_status hi ?_ h hr
      by_contra hp
      exact hinactive ⟨hi, hp⟩
    · exact exec_other_status_ok hi hdec hnorm h hr

end Sys2Proof.Machine
end

section
/-! PROOFS. The reset input between two commands, and while a command is in flight (rules R55, R250). -/

namespace Sys2Proof.Machine

/-- Settles O11: the step is the reset of the block. -/
theorem resetLeavesPhasesIdleAndMemoryUntouched : Obligations.ResetLeavesPhasesIdleAndMemoryUntouched :=
  ⟨fun rest s hs => ⟨resetBlock (s.withHost rest), step_action hs, rfl, rfl, rfl, rfl, rfl, rfl⟩, rfl, rfl, rfl⟩

/-- The step that takes a reset during a command: the abandoned command's first `k` bytes are copied from the memory
it would have left, and the block is reset. -/
theorem step_resetDuring {s u : State} {w : CommandWord} {k : Nat} {rest : List HostAction}
    (hs : s.host = .resetDuring w k :: rest) (hu : runCommand w (s.withHost rest) = .next u) :
    step s = .next (resetBlock ((s.withHost rest).withMem
      (copyBytes u.mem (min k (bytesWritten w s u)) s.enc.outputCursor.toNat s.mem))) :=
  (step_action hs).trans (resetDuringCommand_next hu)

/-- Settles O12: the copied bytes end below the end of memory, so that inside the prefix the memory reads as the
command leaves it, and outside it as before. -/
theorem resetInFlightKeepsAPrefixOfTheWrites : Obligations.ResetInFlightKeepsAPrefixOfTheWrites := by
  intro w k rest s hm hs
  obtain ⟨u, r, hu, -⟩ := runCommand_answers w (s.withHost rest)
  have hfits : s.enc.outputCursor.toNat + bytesWritten w s u ≤ 2 ^ 32 :=
    cursor_add_bytesWritten_le (s := s.withHost rest) hu
  refine ⟨_, u, _, step_resetDuring hs hu, hu, rfl, rfl, rfl, rfl, rfl, rfl, fun a hfrom hto => ?_, fun a hout => ?_⟩
  · exact readMem_copyBytes_inside hm (by omega) hfrom hto
  · exact readMem_copyBytes_other hout

end Sys2Proof.Machine
end
